-- ==== Sys2Proof/Word.lean ====
section
/-!
DEFINITION. The widths and the plainest value types of the MMB.

Every operand is an unsigned integer held in W-bit limbs (00_scope.md R13, R21), and the spec's pseudocode
computes on unbounded natural numbers, so a limb, a word of operand memory and a multi-limb value are natural numbers
here (log 3); that the words held in memory stay below 2^W is an invariant of the machine (Safety.lean). A CSR is a
`BitVec 32` (10_state.md §2).
-/

namespace Sys2Proof

/-- The limb width W, one of the two the spec admits (00_scope.md R6). -/
inductive WordSize where
  | w32
  | w64
deriving DecidableEq, Repr

/-- The number of bits of a limb. -/
def WordSize.bits : WordSize → Nat
  | .w32 => 32
  | .w64 => 64

end Sys2Proof
end

