-- ==== Sys2Proof/Config.lean ====
section
/-!
DEFINITION. The implementation parameters of the MMB (00_scope.md R6–R10) and the values the spec leaves free.
-/

namespace Sys2Proof

/-- One argument tuple of SCRATCH_OK: an opcode and the operand lengths LENA, LENB and the slot's limb count
(00_scope.md R10). What a command gives for a length it does not use is the model's choice (log 2). -/
structure ScratchQuery where
  opcode : Nat
  lenA : Nat
  lenB : Nat
  limbs : Nat
deriving DecidableEq, Repr

/-- The parameters a model takes (00_scope.md R6–R10). They are constant for one block; the state carries them
unchanged, so that a claim about every state is a claim about every configuration (log 1). SCRATCH_OK is given by
the list of arguments at which it is false (log 2). -/
structure Params where
  width : WordSize
  nMax : Nat
  memWords : Nat
  ctxSlots : Nat
  scratchFails : List ScratchQuery
deriving DecidableEq, Repr

/-- The defaults of 00_scope.md R6–R10. -/
def Params.default : Params :=
  { width := .w64, nMax := 128, memWords := 4096, ctxSlots := 4, scratchFails := [] }

/-- The ranges 00_scope.md R6–R9 give the parameters (W's is in its type). -/
abbrev Params.wf (p : Params) : Prop :=
  (1 ≤ p.nMax ∧ p.nMax ≤ 65535) ∧ (1 ≤ p.memWords ∧ p.memWords ≤ 2 ^ 32) ∧ (1 ≤ p.ctxSlots ∧ p.ctxSlots ≤ 8)

/-- The limb width in bits. -/
abbrev Params.w (p : Params) : Nat := p.width.bits

/-- FREE VALUE: what a host read of an uninitialised operand-memory word returns, for the `draw`-th such read
(10_state.md R50: "an arbitrary W-bit value (a draw)"; 93_implementation_defined.md U1, U3; log 7). The reader
takes it modulo 2^W. -/
opaque Config.unspecifiedWord : Nat → Nat

end Sys2Proof
end

