-- ==== Sys2Proof/Syntax.lean ====
section
/-!
DEFINITION. The MMB's commands as abstract syntax: one constructor per row of the opcode map (30_encoding.md R116,
spec/opcode_table.json).

Every command word carries the same two fields beside its opcode, CTX and SEL (30_encoding.md R111), also where a
format ignores them (R118), so every constructor carries both: `ctx` is the ring-context slot number and `sel` the
selector, index or bit value.
-/

namespace Sys2Proof

/-- An MMB command (30_encoding.md R116). -/
inductive Instr where
  /-- CMP, opcode 0x01 -/
  | cmp (ctx sel : Nat)
  /-- ADD, opcode 0x02 -/
  | add (ctx sel : Nat)
  /-- SUB, opcode 0x03 -/
  | sub (ctx sel : Nat)
  /-- ABSDIFF, opcode 0x04 -/
  | absdiff (ctx sel : Nat)
  /-- MUL, opcode 0x05 -/
  | mul (ctx sel : Nat)
  /-- SQR, opcode 0x06 -/
  | sqr (ctx sel : Nat)
  /-- SHL, opcode 0x07 -/
  | shl (ctx sel : Nat)
  /-- SHR, opcode 0x08 -/
  | shr (ctx sel : Nat)
  /-- BITTEST, opcode 0x09 -/
  | bittest (ctx sel : Nat)
  /-- BITSET, opcode 0x0A -/
  | bitset (ctx sel : Nat)
  /-- ISZERO, opcode 0x0B -/
  | iszero (ctx sel : Nat)
  /-- CLZ, opcode 0x0C -/
  | clz (ctx sel : Nat)
  /-- CTZ, opcode 0x0D -/
  | ctz (ctx sel : Nat)
  /-- RECIP, opcode 0x10 -/
  | recip (ctx sel : Nat)
  /-- DIVMOD, opcode 0x11 -/
  | divmod (ctx sel : Nat)
  /-- RING_INIT, opcode 0x20 -/
  | ringInit (ctx sel : Nat)
  /-- CTX_RD, opcode 0x21 -/
  | ctxRd (ctx sel : Nat)
  /-- MODRED, opcode 0x22 -/
  | modred (ctx sel : Nat)
  /-- MODADD, opcode 0x23 -/
  | modadd (ctx sel : Nat)
  /-- MODSUB, opcode 0x24 -/
  | modsub (ctx sel : Nat)
  /-- MODHALF, opcode 0x25 -/
  | modhalf (ctx sel : Nat)
  /-- MODINV_CT, opcode 0x26 -/
  | modinvCt (ctx sel : Nat)
  /-- MODINV_VT, opcode 0x27 -/
  | modinvVt (ctx sel : Nat)
  /-- RMUL, opcode 0x28 -/
  | rmul (ctx sel : Nat)
  /-- RSQR, opcode 0x29 -/
  | rsqr (ctx sel : Nat)
  /-- RREDUCE, opcode 0x2A -/
  | rreduce (ctx sel : Nat)
  /-- RINV, opcode 0x2B -/
  | rinv (ctx sel : Nat)
  /-- RTO, opcode 0x2C -/
  | rto (ctx sel : Nat)
  /-- RFROM, opcode 0x2D -/
  | rfrom (ctx sel : Nat)
  /-- RISONE, opcode 0x2E -/
  | risone (ctx sel : Nat)
  /-- CT_EQ, opcode 0x30 -/
  | ctEq (ctx sel : Nat)
  /-- CT_LT, opcode 0x31 -/
  | ctLt (ctx sel : Nat)
  /-- CT_GT, opcode 0x32 -/
  | ctGt (ctx sel : Nat)
  /-- CT_SEL, opcode 0x33 -/
  | ctSel (ctx sel : Nat)
  /-- CSWAP, opcode 0x34 -/
  | cswap (ctx sel : Nat)
  /-- CNEG, opcode 0x35 -/
  | cneg (ctx sel : Nat)
  /-- CSHR, opcode 0x36 -/
  | cshr (ctx sel : Nat)
  /-- MUX2, opcode 0x37 -/
  | mux2 (ctx sel : Nat)
  /-- MUX4, opcode 0x38 -/
  | mux4 (ctx sel : Nat)
  /-- EXP_LADDER, opcode 0x40 -/
  | expLadder (ctx sel : Nat)
  /-- EXP_FAST, opcode 0x41 -/
  | expFast (ctx sel : Nat)
  /-- EXP_SSMA, opcode 0x42 -/
  | expSsma (ctx sel : Nat)
deriving DecidableEq, Repr

/-- Why a command word is no MMB command (30_encoding.md R117). -/
inductive IllegalWord where
  /-- one of bits [31:13] is set -/
  | reservedBits
  /-- OPC is not in the opcode map -/
  | unassignedOpcode
deriving DecidableEq, Repr

end Sys2Proof
end

