-- ==== Sys2Proof/WellFormed.lean ====
section
/-!
DEFINITION. Well-formed commands: those whose fields fit the command word (30_encoding.md R111). A selector of 2 or 3
on a one-bit-selector command, or a slot number a configuration does not have, is still a command word the block
accepts; what happens then is the machine's matter (30_encoding.md R130 steps 3 and 7).
-/

namespace Sys2Proof

/-- CTX is a 3-bit field (30_encoding.md R111). -/
abbrev ctxFits (ctx : Nat) : Bool := ctx < 8

/-- SEL is a 2-bit field (30_encoding.md R111). -/
abbrev selFits (sel : Nat) : Bool := sel < 4

/-- Both fields of the command fit the command word. -/
def Instr.wellFormed : Instr → Bool
  | .cmp ctx sel => ctxFits ctx && selFits sel
  | .add ctx sel => ctxFits ctx && selFits sel
  | .sub ctx sel => ctxFits ctx && selFits sel
  | .absdiff ctx sel => ctxFits ctx && selFits sel
  | .mul ctx sel => ctxFits ctx && selFits sel
  | .sqr ctx sel => ctxFits ctx && selFits sel
  | .shl ctx sel => ctxFits ctx && selFits sel
  | .shr ctx sel => ctxFits ctx && selFits sel
  | .bittest ctx sel => ctxFits ctx && selFits sel
  | .bitset ctx sel => ctxFits ctx && selFits sel
  | .iszero ctx sel => ctxFits ctx && selFits sel
  | .clz ctx sel => ctxFits ctx && selFits sel
  | .ctz ctx sel => ctxFits ctx && selFits sel
  | .recip ctx sel => ctxFits ctx && selFits sel
  | .divmod ctx sel => ctxFits ctx && selFits sel
  | .ringInit ctx sel => ctxFits ctx && selFits sel
  | .ctxRd ctx sel => ctxFits ctx && selFits sel
  | .modred ctx sel => ctxFits ctx && selFits sel
  | .modadd ctx sel => ctxFits ctx && selFits sel
  | .modsub ctx sel => ctxFits ctx && selFits sel
  | .modhalf ctx sel => ctxFits ctx && selFits sel
  | .modinvCt ctx sel => ctxFits ctx && selFits sel
  | .modinvVt ctx sel => ctxFits ctx && selFits sel
  | .rmul ctx sel => ctxFits ctx && selFits sel
  | .rsqr ctx sel => ctxFits ctx && selFits sel
  | .rreduce ctx sel => ctxFits ctx && selFits sel
  | .rinv ctx sel => ctxFits ctx && selFits sel
  | .rto ctx sel => ctxFits ctx && selFits sel
  | .rfrom ctx sel => ctxFits ctx && selFits sel
  | .risone ctx sel => ctxFits ctx && selFits sel
  | .ctEq ctx sel => ctxFits ctx && selFits sel
  | .ctLt ctx sel => ctxFits ctx && selFits sel
  | .ctGt ctx sel => ctxFits ctx && selFits sel
  | .ctSel ctx sel => ctxFits ctx && selFits sel
  | .cswap ctx sel => ctxFits ctx && selFits sel
  | .cneg ctx sel => ctxFits ctx && selFits sel
  | .cshr ctx sel => ctxFits ctx && selFits sel
  | .mux2 ctx sel => ctxFits ctx && selFits sel
  | .mux4 ctx sel => ctxFits ctx && selFits sel
  | .expLadder ctx sel => ctxFits ctx && selFits sel
  | .expFast ctx sel => ctxFits ctx && selFits sel
  | .expSsma ctx sel => ctxFits ctx && selFits sel

end Sys2Proof
end

