-- ==== Sys2Proof/Decode.lean ====
section
/-!
DEFINITION. Decoding a 32-bit command word (30_encoding.md R111, R116, R117) and encoding a command.

The MMB fetches nothing from memory (10_state.md R31): a command word is the value the host wrote to CMD, one number
of 32 bits, so there is no byte order in decoding.
-/

namespace Sys2Proof

/-- The opcode of a command (30_encoding.md R116). -/
def opcodeOf : Instr → Nat
  | .cmp _ _ => 0x01
  | .add _ _ => 0x02
  | .sub _ _ => 0x03
  | .absdiff _ _ => 0x04
  | .mul _ _ => 0x05
  | .sqr _ _ => 0x06
  | .shl _ _ => 0x07
  | .shr _ _ => 0x08
  | .bittest _ _ => 0x09
  | .bitset _ _ => 0x0A
  | .iszero _ _ => 0x0B
  | .clz _ _ => 0x0C
  | .ctz _ _ => 0x0D
  | .recip _ _ => 0x10
  | .divmod _ _ => 0x11
  | .ringInit _ _ => 0x20
  | .ctxRd _ _ => 0x21
  | .modred _ _ => 0x22
  | .modadd _ _ => 0x23
  | .modsub _ _ => 0x24
  | .modhalf _ _ => 0x25
  | .modinvCt _ _ => 0x26
  | .modinvVt _ _ => 0x27
  | .rmul _ _ => 0x28
  | .rsqr _ _ => 0x29
  | .rreduce _ _ => 0x2A
  | .rinv _ _ => 0x2B
  | .rto _ _ => 0x2C
  | .rfrom _ _ => 0x2D
  | .risone _ _ => 0x2E
  | .ctEq _ _ => 0x30
  | .ctLt _ _ => 0x31
  | .ctGt _ _ => 0x32
  | .ctSel _ _ => 0x33
  | .cswap _ _ => 0x34
  | .cneg _ _ => 0x35
  | .cshr _ _ => 0x36
  | .mux2 _ _ => 0x37
  | .mux4 _ _ => 0x38
  | .expLadder _ _ => 0x40
  | .expFast _ _ => 0x41
  | .expSsma _ _ => 0x42

/-- The CTX field of a command (30_encoding.md R111). -/
def ctxOf : Instr → Nat
  | .cmp ctx _ => ctx
  | .add ctx _ => ctx
  | .sub ctx _ => ctx
  | .absdiff ctx _ => ctx
  | .mul ctx _ => ctx
  | .sqr ctx _ => ctx
  | .shl ctx _ => ctx
  | .shr ctx _ => ctx
  | .bittest ctx _ => ctx
  | .bitset ctx _ => ctx
  | .iszero ctx _ => ctx
  | .clz ctx _ => ctx
  | .ctz ctx _ => ctx
  | .recip ctx _ => ctx
  | .divmod ctx _ => ctx
  | .ringInit ctx _ => ctx
  | .ctxRd ctx _ => ctx
  | .modred ctx _ => ctx
  | .modadd ctx _ => ctx
  | .modsub ctx _ => ctx
  | .modhalf ctx _ => ctx
  | .modinvCt ctx _ => ctx
  | .modinvVt ctx _ => ctx
  | .rmul ctx _ => ctx
  | .rsqr ctx _ => ctx
  | .rreduce ctx _ => ctx
  | .rinv ctx _ => ctx
  | .rto ctx _ => ctx
  | .rfrom ctx _ => ctx
  | .risone ctx _ => ctx
  | .ctEq ctx _ => ctx
  | .ctLt ctx _ => ctx
  | .ctGt ctx _ => ctx
  | .ctSel ctx _ => ctx
  | .cswap ctx _ => ctx
  | .cneg ctx _ => ctx
  | .cshr ctx _ => ctx
  | .mux2 ctx _ => ctx
  | .mux4 ctx _ => ctx
  | .expLadder ctx _ => ctx
  | .expFast ctx _ => ctx
  | .expSsma ctx _ => ctx

/-- The SEL field of a command (30_encoding.md R111). -/
def selOf : Instr → Nat
  | .cmp _ sel => sel
  | .add _ sel => sel
  | .sub _ sel => sel
  | .absdiff _ sel => sel
  | .mul _ sel => sel
  | .sqr _ sel => sel
  | .shl _ sel => sel
  | .shr _ sel => sel
  | .bittest _ sel => sel
  | .bitset _ sel => sel
  | .iszero _ sel => sel
  | .clz _ sel => sel
  | .ctz _ sel => sel
  | .recip _ sel => sel
  | .divmod _ sel => sel
  | .ringInit _ sel => sel
  | .ctxRd _ sel => sel
  | .modred _ sel => sel
  | .modadd _ sel => sel
  | .modsub _ sel => sel
  | .modhalf _ sel => sel
  | .modinvCt _ sel => sel
  | .modinvVt _ sel => sel
  | .rmul _ sel => sel
  | .rsqr _ sel => sel
  | .rreduce _ sel => sel
  | .rinv _ sel => sel
  | .rto _ sel => sel
  | .rfrom _ sel => sel
  | .risone _ sel => sel
  | .ctEq _ sel => sel
  | .ctLt _ sel => sel
  | .ctGt _ sel => sel
  | .ctSel _ sel => sel
  | .cswap _ sel => sel
  | .cneg _ sel => sel
  | .cshr _ sel => sel
  | .mux2 _ sel => sel
  | .mux4 _ sel => sel
  | .expLadder _ sel => sel
  | .expFast _ sel => sel
  | .expSsma _ sel => sel

/-- The OPC field of a command word, bits [7:0] (30_encoding.md R111). -/
def opcField (cmd : BitVec 32) : BitVec 8 := cmd.extractLsb' 0 8

/-- The CTX field of a command word, bits [10:8]. -/
def ctxField (cmd : BitVec 32) : BitVec 3 := cmd.extractLsb' 8 3

/-- The SEL field of a command word, bits [12:11]. -/
def selField (cmd : BitVec 32) : BitVec 2 := cmd.extractLsb' 11 2

/-- The reserved field of a command word, bits [31:13]. -/
def rsvdField (cmd : BitVec 32) : BitVec 19 := cmd.extractLsb' 13 19

/-- The opcode map read from the opcode to the command (30_encoding.md R116); `none` for an unassigned opcode. -/
def instrOf (opc : BitVec 8) (ctx sel : Nat) : Option Instr :=
  match opc with
  | 0x01#8 => some (.cmp ctx sel)
  | 0x02#8 => some (.add ctx sel)
  | 0x03#8 => some (.sub ctx sel)
  | 0x04#8 => some (.absdiff ctx sel)
  | 0x05#8 => some (.mul ctx sel)
  | 0x06#8 => some (.sqr ctx sel)
  | 0x07#8 => some (.shl ctx sel)
  | 0x08#8 => some (.shr ctx sel)
  | 0x09#8 => some (.bittest ctx sel)
  | 0x0A#8 => some (.bitset ctx sel)
  | 0x0B#8 => some (.iszero ctx sel)
  | 0x0C#8 => some (.clz ctx sel)
  | 0x0D#8 => some (.ctz ctx sel)
  | 0x10#8 => some (.recip ctx sel)
  | 0x11#8 => some (.divmod ctx sel)
  | 0x20#8 => some (.ringInit ctx sel)
  | 0x21#8 => some (.ctxRd ctx sel)
  | 0x22#8 => some (.modred ctx sel)
  | 0x23#8 => some (.modadd ctx sel)
  | 0x24#8 => some (.modsub ctx sel)
  | 0x25#8 => some (.modhalf ctx sel)
  | 0x26#8 => some (.modinvCt ctx sel)
  | 0x27#8 => some (.modinvVt ctx sel)
  | 0x28#8 => some (.rmul ctx sel)
  | 0x29#8 => some (.rsqr ctx sel)
  | 0x2A#8 => some (.rreduce ctx sel)
  | 0x2B#8 => some (.rinv ctx sel)
  | 0x2C#8 => some (.rto ctx sel)
  | 0x2D#8 => some (.rfrom ctx sel)
  | 0x2E#8 => some (.risone ctx sel)
  | 0x30#8 => some (.ctEq ctx sel)
  | 0x31#8 => some (.ctLt ctx sel)
  | 0x32#8 => some (.ctGt ctx sel)
  | 0x33#8 => some (.ctSel ctx sel)
  | 0x34#8 => some (.cswap ctx sel)
  | 0x35#8 => some (.cneg ctx sel)
  | 0x36#8 => some (.cshr ctx sel)
  | 0x37#8 => some (.mux2 ctx sel)
  | 0x38#8 => some (.mux4 ctx sel)
  | 0x40#8 => some (.expLadder ctx sel)
  | 0x41#8 => some (.expFast ctx sel)
  | 0x42#8 => some (.expSsma ctx sel)
  | _ => none

/-- The decoder: total on every command word; a word with a reserved bit set or an unassigned opcode is illegal
(30_encoding.md R117), named by its reason. -/
def decode (cmd : BitVec 32) : Except IllegalWord Instr :=
  if rsvdField cmd ≠ 0 then .error .reservedBits
  else
    match instrOf (opcField cmd) (ctxField cmd).toNat (selField cmd).toNat with
    | some i => .ok i
    | none => .error .unassignedOpcode

/-- The command word of a command: `(SEL << 11) | (CTX << 8) | OPC` (30_encoding.md R111, R121). -/
def encode (i : Instr) : BitVec 32 :=
  BitVec.ofNat 32 (selOf i * 2 ^ 11 + ctxOf i * 2 ^ 8 + opcodeOf i)

/-- The command word made of the `nbits` low bits of `w`, all higher bits 0. -/
def tableWord (nbits w : Nat) : BitVec 32 := BitVec.ofNat 32 (w % 2 ^ nbits)

/-- The command this decoder reads from the word whose `nbits` bits are `w`, numbered as spec/opcode_table.json
numbers them. -/
def decodeTableWord (nbits w : Nat) : Option Instr :=
  match decode (tableWord nbits w) with
  | .ok i => some i
  | .error _ => none

end Sys2Proof
end

