-- ==== Sys2Proof/Machine/Arith.lean ====
section
/-!
DEFINITION. The number functions of the spec's notation (00_scope.md R13) and of the reciprocal (42_division.md
R250), on natural numbers, each by a structural recursion so that it evaluates.
-/

namespace Sys2Proof.Machine

/-- `bitlen(x)`: the number of bits of x without leading zeros; bitlen(0) = 0 (00_scope.md R13). -/
def bitlen (x : Nat) : Nat := if x = 0 then 0 else x.log2 + 1

/-- The number of trailing zero bits of a in a field of `bits` bits; `bits` for a = 0 (41_bigint.md R213). The
greatest power of two dividing a is gcd(a, 2^bits). -/
def trailingZeros (bits a : Nat) : Nat := (Nat.gcd a (2 ^ bits)).log2

/-- `recip(d) = ⌊2^(2b) / d⌋` with b = bitlen(d) (42_division.md R250). -/
def recipOf (d : Nat) : Nat := 2 ^ (2 * bitlen d) / d

/-- Extended Euclid modulo m: the pairs (r₀, t₀), (r₁, t₁) keep rᵢ ≡ tᵢ·x (mod m); answers the t of the last
nonzero remainder. -/
def euclid (m : Nat) : Nat → Nat → Nat → Nat → Nat → Nat
  | 0, _, _, t0, _ => t0
  | fuel + 1, r0, r1, t0, t1 =>
    if r1 = 0 then t0 else euclid m fuel r1 (r0 % r1) t1 ((t0 + (m - r0 / r1 * t1 % m)) % m)

/-- `x^{-1} mod m`: the unique y in [0, m) with x·y ≡ 1 (mod m), where gcd(x, m) = 1 (00_scope.md R13). Any method
that yields it conforms (93_implementation_defined.md U11). -/
def invMod (x m : Nat) : Nat := euclid m (2 * bitlen m) m (x % m) 0 1

/-- Square-and-multiply from the least significant bit; `fuel` bounds the exponent's bits. -/
def powModFuel (p : Nat) : Nat → Nat → Nat → Nat
  | 0, _, _ => 1 % p
  | fuel + 1, x, e =>
    let h := powModFuel p fuel (x * x % p) (e / 2)
    if e % 2 = 1 then x * h % p else h

/-- `x^e mod p` (46_modexp.md R384; x^0 = 1 for every x). -/
def powMod (x e p : Nat) : Nat := powModFuel p (bitlen e) x e

end Sys2Proof.Machine
end

