-- ==== Sys2Proof/Machine/State.lean ====
section
/-!
DEFINITION. The state of one MMB instance as plain data (10_state.md R32), the reasons a step can stop, and the
state after reset (70_reset_and_hazards.md R440).

STATUS, ID, PARAM0, PARAM1 and the IRQ line are views computed from these fields (Machine/HostAccess.lean): each piece
of state is stored once (log 14).
-/

namespace Sys2Proof.Machine

/-- The status codes of STATUS.ERR (60_exceptions.md R400). Codes 7–15 are never produced, so they have no name. -/
inductive StatusCode where
  | ok
  | param
  | noInverse
  | resource
  | illegal
  | aborted
  | invariant
deriving DecidableEq, Repr

/-- The model-fault kinds (60_exceptions.md R411). -/
inductive ModelFault where
  | uninit
  | aliasing
  | selector
  | hostHazard
  | bus
deriving DecidableEq, Repr

/-- The strategy of a ring-context slot (43_ring.md R272). Codes 2 and 3 are never stored. -/
inductive Strategy where
  | plain
  | montgomery
deriving DecidableEq, Repr

/-- A ring-context slot (10_state.md R40). The multi-limb fields MOD, RECIP, RONE and RR are held as the integers
their limbs denote (00_scope.md R18, "p = c.MOD (the modulus, an integer)"; log 15). -/
structure Slot where
  valid : Bool
  strat : Strategy
  n : Nat
  bitlen : Nat
  modulus : Nat
  recip : Nat
  n0inv : Nat
  rone : Nat
  rr : Nat
deriving DecidableEq, Repr

/-- A slot at reset: VALID = 0 (10_state.md R40). The other fields are unspecified there and read by no command while
VALID = 0; DESIGN CHOICE: they hold 0 (log 10). -/
def Slot.reset : Slot :=
  { valid := false, strat := .plain, n := 0, bitlen := 0, modulus := 0, recip := 0, n0inv := 0, rone := 0, rr := 0 }

/-- The nine descriptor registers (10_state.md R39). -/
structure Descriptors where
  dst0 : BitVec 32
  dst1 : BitVec 32
  srcA : BitVec 32
  srcB : BitVec 32
  srcC : BitVec 32
  srcD : BitVec 32
  lenA : BitVec 16
  lenB : BitVec 16
  imm : BitVec 32
deriving DecidableEq, Repr

/-- The descriptor registers at reset (70_reset_and_hazards.md R440). -/
def Descriptors.reset : Descriptors :=
  { dst0 := 0, dst1 := 0, srcA := 0, srcB := 0, srcC := 0, srcD := 0, lenA := 0, lenB := 0, imm := 0 }

/-- The command latch: the snapshot of CMD and of the descriptor registers taken at the CMD write (10_state.md R45). -/
structure Latch where
  cmd : BitVec 32
  desc : Descriptors
deriving DecidableEq, Repr

/-- Operand memory (10_state.md R43): the initialised words, by rising word address. A word that is not listed has
INIT = 0 and holds no value (log 4). -/
abbrev Memory := List (Nat × Nat)

/-- The canonical form of a memory: word addresses strictly rising. -/
abbrev Memory.wf (m : Memory) : Prop := m.Pairwise fun x y => x.1 < y.1

/-- A host access (10_state.md R50). -/
inductive HostAction where
  | csrRead (k : BitVec 8)
  | csrWrite (k : BitVec 8) (v : BitVec 32)
  | memRead (a : Nat)
  | memWrite (a : Nat) (v : Nat)
deriving DecidableEq, Repr

/-- What moves next (10_state.md R32, 70_reset_and_hazards.md R440; log 5): a host access, the engine, or the reset
input. -/
inductive Turn where
  | host (a : HostAction)
  | engine
  | reset
deriving DecidableEq, Repr

/-- What a host read returned (10_state.md R50; log 6). -/
inductive HostRead where
  | csr (k : BitVec 8) (v : BitVec 32)
  | mem (a : Nat) (v : Nat)
deriving DecidableEq, Repr

/-- The state of one MMB instance (10_state.md R32), with its configuration and the model's own fields. -/
structure State where
  /-- the configuration, which no step changes (00_scope.md R6–R10; log 1) -/
  params : Params
  /-- STATUS.ERR (R36) -/
  err : StatusCode
  /-- STATUS.DONE (R36) -/
  done : Bool
  /-- the sticky FAULTED register (R44) -/
  faulted : Bool
  /-- RESULT (R37) -/
  result : BitVec 32
  /-- CMD (R38) -/
  cmd : BitVec 32
  /-- the descriptor registers (R39) -/
  desc : Descriptors
  /-- IRQCTL.IE (R46) -/
  ie : Bool
  /-- the ring-context slots (R40) -/
  slots : List Slot
  /-- operand memory with its initialisation bits (R43) -/
  mem : Memory
  /-- the command latch (R45); BUSY = 1 exactly while it holds a snapshot -/
  latch : Option Latch
  /-- the model-fault record (R48): a set, held without repeats -/
  modelFaults : List ModelFault
  /-- MODEL'S OWN: the turns still to come (log 5) -/
  turns : List Turn
  /-- MODEL'S OWN: what host reads returned, newest first (log 6) -/
  hostReads : List HostRead
  /-- MODEL'S OWN: how many free values have been drawn (log 7) -/
  draws : Nat
deriving DecidableEq, Repr

/-- Why the machine stops with a fault. -/
inductive Fault where
  /-- A model fault stands in the record, so no agent takes a further step (60_exceptions.md R411). Raised by `step`
  only. SAFE: the hardware may go on with some value where the model ends. -/
  | modelFault (kinds : List ModelFault)
deriving DecidableEq, Repr

/-- Why the model refuses an instruction. -/
inductive Refusal where
  /-- The instruction has no meaning in the model. Raised by `exec` only, for an arm not yet written. SAFE. -/
  | notModelled (mnemonic : String)
deriving DecidableEq, Repr

/-- The reset state of a block with the parameters `p` (70_reset_and_hazards.md R440): no memory word initialised,
every slot invalid, no command latched. The model-fault record and the model's own fields are empty (10_state.md R48,
log 5, 6, 7). -/
def State.resetWith (p : Params) : State :=
  { params := p
    err := .ok
    done := false
    faulted := false
    result := 0
    cmd := 0
    desc := Descriptors.reset
    ie := false
    slots := List.replicate p.ctxSlots Slot.reset
    mem := []
    latch := none
    modelFaults := []
    turns := []
    hostReads := []
    draws := 0 }

/-- The machine right after reset, with the default parameters (00_scope.md R6–R10). -/
def State.reset : State := State.resetWith Params.default

end Sys2Proof.Machine
end

