-- ==== Sys2Proof/Machine/Ops.lean ====
section
/-!
DEFINITION. The named operations over memory, slots and registers, and how a command ends.

The MMB has no traps (60_exceptions.md R409): where another machine takes an exception, the MMB completes the command
with a status code. `State.complete` is that one shared operation, `State.failWith` the one for the codes that spoil
the destinations, and there is no return from it. A model fault (60_exceptions.md R411) is `State.recordFault`.
-/

namespace Sys2Proof.Machine

/-! ## Operand memory (00_scope.md R15, 10_state.md R43, 20_memory.md R80–R85) -/

/-- The word at address a, or none where INIT = 0. -/
def Memory.read : Memory → Nat → Option Nat
  | [], _ => none
  | (k, v) :: m, a => if k = a then some v else Memory.read m a

/-- Store one word and set its INIT bit, keeping addresses rising. -/
def Memory.write : Memory → Nat → Nat → Memory
  | [], a, v => [(a, v)]
  | (k, x) :: m, a, v =>
    if a < k then (a, v) :: (k, x) :: m
    else if a = k then (a, v) :: m
    else (k, x) :: Memory.write m a v

/-- INIT[a] ← 0 (60_exceptions.md R407). -/
def Memory.erase : Memory → Nat → Memory
  | [], _ => []
  | (k, x) :: m, a => if k = a then Memory.erase m a else (k, x) :: Memory.erase m a

/-- `MemRead(base, n)`: the little-endian value of n words of w bits, none when one of them is uninitialised
(00_scope.md R15, 20_memory.md R80, R84). -/
def Memory.readLimbs (w : Nat) (m : Memory) : Nat → Nat → Option Nat
  | _, 0 => some 0
  | base, n + 1 =>
    match m.read base, Memory.readLimbs w m (base + 1) n with
    | some lo, some hi => some (lo + 2 ^ w * hi)
    | _, _ => none

/-- `MemWrite(base, n, v)`: the n limbs of v, little-endian (00_scope.md R15). -/
def Memory.writeLimbs (w : Nat) : Memory → Nat → Nat → Nat → Memory
  | m, _, 0, _ => m
  | m, base, n + 1, v => Memory.writeLimbs w (m.write base (v % 2 ^ w)) (base + 1) n (v / 2 ^ w)

/-- INIT ← 0 on n words (60_exceptions.md R407). -/
def Memory.eraseLimbs : Memory → Nat → Nat → Memory
  | m, _, 0 => m
  | m, base, n + 1 => Memory.eraseLimbs (m.erase base) (base + 1) n

/-- An operand range X:L: the words base .. base+len−1 (20_memory.md R83). -/
structure Range where
  base : Nat
  len : Nat
deriving DecidableEq, Repr

/-- The range is legal: at least one word, all inside memory, no wrap (20_memory.md R83). -/
def Range.legal (p : Params) (r : Range) : Bool := decide (1 ≤ r.len) && decide (r.base + r.len ≤ p.memWords)

/-- Address a is one of the range's words. -/
def Range.covers (r : Range) (a : Nat) : Bool := decide (r.base ≤ a) && decide (a < r.base + r.len)

/-- The two ranges share a word. -/
def Range.overlaps (r q : Range) : Bool := decide (r.base < q.base + q.len) && decide (q.base < r.base + r.len)

/-- The value of a range, `val(X:L)` (00_scope.md R15). -/
def State.readRange (s : State) (r : Range) : Option Nat := Memory.readLimbs s.params.w s.mem r.base r.len

/-- The values of several ranges, none when one of their words is uninitialised (30_encoding.md R130 step 8). -/
def State.readRanges (s : State) : List Range → Option (List Nat)
  | [] => some []
  | r :: rs =>
    match s.readRange r, s.readRanges rs with
    | some v, some vs => some (v :: vs)
    | _, _ => none

/-- Write each value to its range, in order. -/
def writeRanges (w : Nat) : Memory → List Range → List Nat → Memory
  | m, r :: rs, v :: vs => writeRanges w (Memory.writeLimbs w m r.base r.len v) rs vs
  | m, _, _ => m

/-- Make every word of the ranges uninitialised (60_exceptions.md R407). -/
def eraseRanges : Memory → List Range → Memory
  | m, [] => m
  | m, r :: rs => eraseRanges (Memory.eraseLimbs m r.base r.len) rs

/-! ## Ring-context slots (10_state.md R40) -/

/-- Slot c; a slot the block does not have reads as an invalid one. -/
def State.slot (s : State) (c : Nat) : Slot := s.slots.getD c Slot.reset

/-- Put slot c. -/
def State.setSlot (s : State) (c : Nat) (x : Slot) : State := { s with slots := s.slots.set c x }

/-! ## The command in progress (10_state.md R45, 30_encoding.md R110) -/

/-- STATUS.BUSY: a latched command awaits the engine (10_state.md R36). -/
def State.busy (s : State) : Bool := s.latch.isSome

/-- The descriptor values a command uses: the latched snapshot (10_state.md R45). With no command latched the engine
performs none; the registers as they stand are then taken, as a CMD write in this state would latch them (log 12). -/
def State.operandDesc (s : State) : Descriptors :=
  match s.latch with
  | some l => l.desc
  | none => s.desc

/-- The effect of a CMD write while BUSY = 0 (30_encoding.md R110): CMD takes the value, the latch takes the snapshot,
BUSY becomes 1. -/
def State.issue (s : State) (v : BitVec 32) : State := { s with cmd := v, latch := some { cmd := v, desc := s.desc } }

/-- The latched command word, if any (10_state.md R45). -/
def State.pendingCommand (s : State) : Option (BitVec 32) := s.latch.map (·.cmd)

/-! ## Ending a command (30_encoding.md R130 step 10; 60_exceptions.md R405–R408) -/

/-- `complete(code)`: ERR ← code, BUSY ← 0, DONE ← 1, RESULT ← the result if the code is OK, else 0. -/
def State.complete (s : State) (code : StatusCode) (result : BitVec 32) : State :=
  { s with
    err := code
    done := true
    latch := none
    result := if code = .ok then result else 0#32 }

/-- End with NO_INVERSE, RESOURCE or INVARIANT: the destination words become uninitialised (60_exceptions.md R407). -/
def State.failWith (s : State) (code : StatusCode) (dests : List Range) : State :=
  State.complete { s with mem := eraseRanges s.mem dests } code 0#32

/-- End with INVARIANT: as `failWith`, and the block is FAULTED from now on (60_exceptions.md R408). -/
def State.failInvariant (s : State) (dests : List Range) : State :=
  { s.failWith .invariant dests with faulted := true }

/-- End with OK: every destination range holds its value (60_exceptions.md R405). -/
def State.finish (s : State) (result : BitVec 32) (dests : List Range) (values : List Nat) : State :=
  State.complete { s with mem := writeRanges s.params.w s.mem dests values } .ok result

/-- Add a kind to the model-fault record (10_state.md R48: a kind once added is never removed). Nothing else changes:
the engine or the host took no step (log 8). -/
def State.recordFault (s : State) (k : ModelFault) : State :=
  if k ∈ s.modelFaults then s else { s with modelFaults := s.modelFaults ++ [k] }

/-- A command word that is no MMB command (30_encoding.md R130 steps 1 and 2): ABORTED in a FAULTED block, else
ILLEGAL; nothing else changes (R117). -/
def State.rejectIllegal (s : State) : State := s.complete (if s.faulted then .aborted else .illegal) 0#32

end Sys2Proof.Machine
end

