-- ==== Sys2Proof/Machine/Flags.lean ====
section
/-!
DEFINITION. The flags a command returns. The MMB has no flag register: each flag is the command's RESULT
(10_state.md R51).
-/

namespace Sys2Proof.Machine

/-- A truth value as RESULT: 1 or 0. -/
def boolResult (b : Bool) : BitVec 32 := if b then 1 else 0

/-- A count as RESULT (41_bigint.md R212, R213). -/
def countResult (n : Nat) : BitVec 32 := BitVec.ofNat 32 n

/-- The three-way compare: 1, 0xFFFFFFFF or 0 for greater, less, equal (41_bigint.md R200). -/
def compareResult (a b : Nat) : BitVec 32 := if b < a then 0x00000001 else if a < b then 0xFFFFFFFF else 0

/-- The carry-out of an addition in `bits` bits (41_bigint.md R201). -/
def carryOut (bits a b : Nat) : BitVec 32 := BitVec.ofNat 32 ((a + b) / 2 ^ bits)

/-- The borrow-out of a subtraction (41_bigint.md R202); also "b is the larger" (R203). -/
def borrowOut (a b : Nat) : BitVec 32 := boolResult (decide (a < b))

/-- The mask of a condition: the all-ones word MASK = 2^W − 1 when it holds, else 0 (45_constant_time.md §1). -/
def maskOf (w : Nat) (holds : Bool) : Nat := if holds then 2 ^ w - 1 else 0

/-- RESULT of a mask-writing command: 1 when the mask is all ones, else 0 (45_constant_time.md R350–R352). -/
def maskResult (w : Nat) (mask : Nat) : BitVec 32 := boolResult (decide (mask = 2 ^ w - 1))

end Sys2Proof.Machine
end

