-- ==== Sys2Proof/Machine/Operands.lean ====
section
/-!
DEFINITION. Operand formats (30_encoding.md R112) and the common execution procedure (R130, R131): the checks every
command passes before its own body, and what its body's outcome does to the state.
-/

namespace Sys2Proof.Machine

/-! ## Formats (30_encoding.md R112, R116) -/

/-- The operand formats of 30_encoding.md R112. -/
inductive Format where
  | n2r | n2 | mul | sqr | n1 | n1r | rcp | div | init | crd
  | r1 | r1r | r2 | rw | w1 | swp | shc | mx2 | mx4 | exp
deriving DecidableEq, Repr

/-- The operand format of each command (30_encoding.md R116). -/
def formatOf : Instr → Format
  | .cmp _ _ => .n2r
  | .add _ _ => .n2
  | .sub _ _ => .n2
  | .absdiff _ _ => .n2
  | .mul _ _ => .mul
  | .sqr _ _ => .sqr
  | .shl _ _ => .n1
  | .shr _ _ => .n1
  | .bittest _ _ => .n1r
  | .bitset _ _ => .n1
  | .iszero _ _ => .n1r
  | .clz _ _ => .n1r
  | .ctz _ _ => .n1r
  | .recip _ _ => .rcp
  | .divmod _ _ => .div
  | .ringInit _ _ => .init
  | .ctxRd _ _ => .crd
  | .modred _ _ => .rw
  | .modadd _ _ => .r2
  | .modsub _ _ => .r2
  | .modhalf _ _ => .r1
  | .modinvCt _ _ => .r1
  | .modinvVt _ _ => .r1
  | .rmul _ _ => .r2
  | .rsqr _ _ => .r1
  | .rreduce _ _ => .rw
  | .rinv _ _ => .r1
  | .rto _ _ => .r1
  | .rfrom _ _ => .r1
  | .risone _ _ => .r1r
  | .ctEq _ _ => .w1
  | .ctLt _ _ => .w1
  | .ctGt _ _ => .w1
  | .ctSel _ _ => .w1
  | .cswap _ _ => .swp
  | .cneg _ _ => .n1
  | .cshr _ _ => .shc
  | .mux2 _ _ => .mx2
  | .mux4 _ _ => .mx4
  | .expLadder _ _ => .exp
  | .expFast _ _ => .exp
  | .expSsma _ _ => .exp

/-- The commands whose SEL is a one-bit selector (30_encoding.md R113). -/
def hasOneBitSelector : Instr → Bool
  | .bitset _ _ | .ctSel _ _ | .cswap _ _ | .cneg _ _ | .cshr _ _ | .mux2 _ _ => true
  | _ => false

/-- The formats that name a ring-context slot (30_encoding.md R112, column CTX). -/
def Format.usesCtx : Format → Bool
  | .init | .crd | .r1 | .r1r | .r2 | .rw | .exp => true
  | _ => false

/-- The length len_f of the CTX_RD field f of a slot of n limbs; none for f > 7 (43_ring.md R271). -/
def ctxFieldLen (n f : Nat) : Option Nat :=
  match f with
  | 0 => some n
  | 1 => some (n + 1)
  | 2 => some 1
  | 3 => some n
  | 4 => some n
  | 5 => some 1
  | 6 => some 1
  | 7 => some 1
  | _ => none

/-- A length is in lo .. hi. -/
def lenIn (lo hi len : Nat) : Bool := decide (lo ≤ len) && decide (len ≤ hi)

/-- The length limits of a format (30_encoding.md R112, last column), n being the slot's limb count. -/
def Format.lengthsOk (p : Params) (d : Descriptors) (n : Nat) : Format → Bool
  | .mul | .div => lenIn 1 p.nMax d.lenA.toNat && lenIn 1 p.nMax d.lenB.toNat
  | .crd => (ctxFieldLen n d.imm.toNat).isSome
  | .r1 | .r1r | .r2 | .w1 => true
  | .rw => lenIn 1 (2 * n) d.lenA.toNat
  | .exp => lenIn 1 p.nMax d.lenB.toNat
  | _ => lenIn 1 p.nMax d.lenA.toNat

/-- The source ranges of a format, in the order SRCA, SRCB, SRCC, SRCD (30_encoding.md R112). -/
def Format.sources (d : Descriptors) (n : Nat) : Format → List Range
  | .n2r | .n2 | .swp | .mx2 => [⟨d.srcA.toNat, d.lenA.toNat⟩, ⟨d.srcB.toNat, d.lenA.toNat⟩]
  | .mul | .div => [⟨d.srcA.toNat, d.lenA.toNat⟩, ⟨d.srcB.toNat, d.lenB.toNat⟩]
  | .sqr | .n1 | .n1r | .rcp | .init | .rw => [⟨d.srcA.toNat, d.lenA.toNat⟩]
  | .crd => []
  | .r1 | .r1r => [⟨d.srcA.toNat, n⟩]
  | .r2 => [⟨d.srcA.toNat, n⟩, ⟨d.srcB.toNat, n⟩]
  | .w1 => [⟨d.srcA.toNat, 1⟩, ⟨d.srcB.toNat, 1⟩]
  | .shc => [⟨d.srcA.toNat, d.lenA.toNat⟩, ⟨d.srcB.toNat, 1⟩]
  | .mx4 =>
    [⟨d.srcA.toNat, d.lenA.toNat⟩, ⟨d.srcB.toNat, d.lenA.toNat⟩, ⟨d.srcC.toNat, d.lenA.toNat⟩,
      ⟨d.srcD.toNat, d.lenA.toNat⟩]
  | .exp => [⟨d.srcA.toNat, n⟩, ⟨d.srcB.toNat, d.lenB.toNat⟩]

/-- The destination ranges of a format in operand memory, in the order the command's values go to them
(30_encoding.md R112). -/
def Format.dests (d : Descriptors) (n : Nat) : Format → List Range
  | .n2r | .n1r | .r1r | .init => []
  | .n2 | .n1 | .shc | .mx2 | .mx4 => [⟨d.dst0.toNat, d.lenA.toNat⟩]
  | .mul => [⟨d.dst0.toNat, d.lenA.toNat + d.lenB.toNat⟩]
  | .sqr => [⟨d.dst0.toNat, 2 * d.lenA.toNat⟩]
  | .rcp => [⟨d.dst0.toNat, d.lenA.toNat + 1⟩]
  | .div => [⟨d.dst0.toNat, d.lenA.toNat⟩, ⟨d.dst1.toNat, d.lenB.toNat⟩]
  | .crd => [⟨d.dst0.toNat, (ctxFieldLen n d.imm.toNat).getD 0⟩]
  | .r1 | .r2 | .rw | .exp => [⟨d.dst0.toNat, n⟩]
  | .w1 => [⟨d.dst0.toNat, 1⟩]
  | .swp => [⟨d.srcA.toNat, d.lenA.toNat⟩, ⟨d.srcB.toNat, d.lenA.toNat⟩]

/-! ## The alias rule (30_encoding.md R131) -/

/-- Two ranges are disjoint, or identical. -/
def Range.apartOrSame (r q : Range) : Bool := !r.overlaps q || decide (r = q)

/-- A destination against the sources: MUL and SQR admit no overlap, the other formats only identity. -/
def Format.destAgainstSources (f : Format) (dst : Range) (srcs : List Range) : Bool :=
  match f with
  | .mul | .sqr => srcs.all fun src => !dst.overlaps src
  | _ => srcs.all fun src => dst.apartOrSame src

/-- Two distinct destinations: SWP's may be identical, DIV's may not overlap. -/
def Format.destsApart (f : Format) : List Range → Bool
  | [x, y] => if f = .swp then x.apartOrSame y else !x.overlaps y
  | _ => true

/-- The alias check of 30_encoding.md R130 step 6. -/
def Format.aliasFree (f : Format) (srcs dsts : List Range) : Bool :=
  dsts.all (fun dst => f.destAgainstSources dst srcs) && f.destsApart dsts

/-! ## The common checks (30_encoding.md R130 steps 1–8) -/

/-- The limb count n a format's lengths refer to: the selected slot's (30_encoding.md R112); 0 for the formats that
name no slot and for INIT, whose slot is not yet built. -/
def limbCount (i : Instr) (s : State) : Nat :=
  if (formatOf i).usesCtx && decide (formatOf i ≠ .init) then (s.slot (ctxOf i)).n else 0

/-- The source ranges of command i in state s. -/
def sourcesOf (i : Instr) (s : State) : List Range := (formatOf i).sources s.operandDesc (limbCount i s)

/-- The destination ranges of command i in state s. -/
def destsOf (i : Instr) (s : State) : List Range := (formatOf i).dests s.operandDesc (limbCount i s)

/-- Step 3: the slot exists, and is valid unless the command builds it. -/
def slotOk (i : Instr) (s : State) : Bool :=
  !(formatOf i).usesCtx ||
    (decide (ctxOf i < s.params.ctxSlots) && (decide (formatOf i = .init) || (s.slot (ctxOf i)).valid))

/-- Step 4: the lengths are inside the format's limits. -/
def lengthsOk (i : Instr) (s : State) : Bool := (formatOf i).lengthsOk s.params s.operandDesc (limbCount i s)

/-- Step 5: every range lies inside operand memory (20_memory.md R83). -/
def rangesOk (i : Instr) (s : State) : Bool :=
  (sourcesOf i s).all (·.legal s.params) && (destsOf i s).all (·.legal s.params)

/-- Step 6: the alias rule. -/
def aliasOk (i : Instr) (s : State) : Bool := (formatOf i).aliasFree (sourcesOf i s) (destsOf i s)

/-- Step 7: a one-bit selector is 0 or 1 (30_encoding.md R113). -/
def selectorOk (i : Instr) : Bool := !hasOneBitSelector i || decide (selOf i < 2)

/-- The formats whose operands have length LENA (30_encoding.md R112). -/
def Format.namesLenA : Format → Bool
  | .crd | .r1 | .r1r | .r2 | .w1 | .exp => false
  | _ => true

/-- The formats whose operands have length LENB (30_encoding.md R112). -/
def Format.namesLenB : Format → Bool
  | .mul | .div | .exp => true
  | _ => false

/-- The arguments command i gives to SCRATCH_OK (00_scope.md R10). DESIGN CHOICE: a length register the command's format
does not name is given as 0, so that the status never depends on a register the command ignores (10_state.md R39,
30_encoding.md R118); the limb count is 0 where the format names no slot, and for RING_INIT (log 2). -/
def scratchQuery (i : Instr) (s : State) : ScratchQuery :=
  { opcode := opcodeOf i
    lenA := if (formatOf i).namesLenA then s.operandDesc.lenA.toNat else 0
    lenB := if (formatOf i).namesLenB then s.operandDesc.lenB.toNat else 0
    limbs := limbCount i s }

/-- SCRATCH_OK(opcode, lens) for command i (00_scope.md R10; log 2). -/
def scratchOk (i : Instr) (s : State) : Bool := !s.params.scratchFails.contains (scratchQuery i s)

/-! ## A command's body (30_encoding.md R130 step 9) -/

/-- What a body reads: the values of its sources, IMM, SEL, the lengths, and the selected slot. A format without the
operand leaves its value 0. -/
structure Operands where
  w : Nat
  a : Nat
  b : Nat
  c : Nat
  d : Nat
  lenA : Nat
  lenB : Nat
  k : Nat
  sel : Nat
  slot : Slot
deriving DecidableEq, Repr

/-- The number of bits of a LENA-limb operand, W·LENA. -/
def Operands.bits (o : Operands) : Nat := o.w * o.lenA

/-- The operands of command i, its source values given. -/
def operandsOf (i : Instr) (s : State) (values : List Nat) : Operands :=
  { w := s.params.w
    a := values.getD 0 0
    b := values.getD 1 0
    c := values.getD 2 0
    d := values.getD 3 0
    lenA := s.operandDesc.lenA.toNat
    lenB := s.operandDesc.lenB.toNat
    k := s.operandDesc.imm.toNat
    sel := selOf i
    slot := s.slot (ctxOf i) }

/-- How a body ends (30_encoding.md R130 step 9). -/
inductive Effect where
  /-- a value precondition fails -/
  | param
  /-- the element has no inverse (60_exceptions.md R402) -/
  | noInverse
  /-- REDC found a reduced value ≥ the modulus (60_exceptions.md R408) -/
  | invariant
  /-- `finish(result)` after writing each value to its destination range -/
  | write (result : BitVec 32) (values : List Nat)
  /-- `finish(0)` after RING_INIT built the slot -/
  | build (slot : Slot)
deriving DecidableEq, Repr

/-- End with RESOURCE (60_exceptions.md R403, R407): the destinations are spoilt, and RING_INIT's slot has VALID = 0.
DESIGN CHOICE: the slot's other fields, of which the spec then says nothing, keep their values (log 25); no command reads
them while VALID = 0. -/
def State.failResource (s : State) (i : Instr) : State :=
  let t := s.failWith .resource (destsOf i s)
  if formatOf i = .init then t.setSlot (ctxOf i) { t.slot (ctxOf i) with valid := false } else t

/-- Steps 9 and 10: PARAM first, then RESOURCE, then the body's own ending (60_exceptions.md R413). -/
def State.conclude (s : State) (i : Instr) : Effect → State
  | .param => s.complete .param 0#32
  | .noInverse => if scratchOk i s then s.failWith .noInverse (destsOf i s) else s.failResource i
  | .invariant => if scratchOk i s then s.failInvariant (destsOf i s) else s.failResource i
  | .write result values => if scratchOk i s then s.finish result (destsOf i s) values else s.failResource i
  | .build slot => if scratchOk i s then (s.setSlot (ctxOf i) slot).complete .ok 0#32 else s.failResource i

/-- The state after the engine performs command i with the given body (30_encoding.md R130). -/
def performed (i : Instr) (s : State) (body : Operands → Effect) : State :=
  if s.faulted then s.complete .aborted 0#32
  else if !slotOk i s then s.complete .param 0#32
  else if !lengthsOk i s then s.complete .param 0#32
  else if !rangesOk i s then s.complete .param 0#32
  else if !aliasOk i s then s.recordFault .aliasing
  else if !selectorOk i then s.recordFault .selector
  else
    match s.readRanges (sourcesOf i s) with
    | none => s.recordFault .uninit
    | some values => s.conclude i (body (operandsOf i s values))

/-- The engine's step for command i: always a next state (30_encoding.md R130). -/
def perform (i : Instr) (s : State) (body : Operands → Effect) : Host.Outcome State Fault Refusal :=
  .next (performed i s body)

end Sys2Proof.Machine
end

