-- ==== Sys2Proof/Machine/Conditional.lean ====
section
/-!
DEFINITION. The branch-free conditional primitives (45_constant_time.md R350–R358). The selector is SEL; values 2 and
3 of a one-bit selector never reach a body (30_encoding.md R130 step 7).
-/

namespace Sys2Proof.Machine

/-- A mask-writing comparison: the mask to DST0, RESULT 1 when it is all ones. -/
def writeMask (w : Nat) (holds : Bool) : Effect := .write (maskResult w (maskOf w holds)) [maskOf w holds]

/-- CT_EQ (R350). -/
def execCtEq (ctx sel : Nat) (s : State) : Host.Outcome State Fault Refusal :=
  perform (.ctEq ctx sel) s fun o => writeMask o.w (decide (o.a = o.b))

/-- CT_LT (R351): unsigned. -/
def execCtLt (ctx sel : Nat) (s : State) : Host.Outcome State Fault Refusal :=
  perform (.ctLt ctx sel) s fun o => writeMask o.w (decide (o.a < o.b))

/-- CT_GT (R352): unsigned. -/
def execCtGt (ctx sel : Nat) (s : State) : Host.Outcome State Fault Refusal :=
  perform (.ctGt ctx sel) s fun o => writeMask o.w (decide (o.b < o.a))

/-- s = 1 selects the first operand (R353, R357). -/
def choose (sel a b : Nat) : Nat := if sel = 1 then a else b

/-- CT_SEL (R353): the chosen word, not a mask (90_conflicts.md C4). -/
def execCtSel (ctx sel : Nat) (s : State) : Host.Outcome State Fault Refusal :=
  perform (.ctSel ctx sel) s fun o => .write 0 [choose o.sel o.a o.b]

/-- CSWAP (R354): both ranges are rewritten, swapped when s = 1. -/
def execCswap (ctx sel : Nat) (s : State) : Host.Outcome State Fault Refusal :=
  perform (.cswap ctx sel) s fun o => .write 0 [choose o.sel o.b o.a, choose o.sel o.a o.b]

/-- Two's complement negation in `bits` bits (R355). -/
def negate (bits a : Nat) : Nat := (2 ^ bits - a) % 2 ^ bits

/-- CNEG (R355): modulo 2^(W·LENA), not modulo a ring modulus. -/
def execCneg (ctx sel : Nat) (s : State) : Host.Outcome State Fault Refusal :=
  perform (.cneg ctx sel) s fun o => .write 0 [choose o.sel (negate o.bits o.a) o.a]

/-- A shift right by k < W with the low k bits of the carry word c entering at the top (R356). -/
def shiftRightInject (bits a c k : Nat) : Nat := a / 2 ^ k + c % 2 ^ k * 2 ^ (bits - k)

/-- CSHR (R356): the carry word is the second source; PARAM for k ≥ W. -/
def execCshr (ctx sel : Nat) (s : State) : Host.Outcome State Fault Refusal :=
  perform (.cshr ctx sel) s fun o =>
    if o.k < o.w then .write 0 [choose o.sel (shiftRightInject o.bits o.a o.b o.k) o.a] else .param

/-- MUX2 (R357). -/
def execMux2 (ctx sel : Nat) (s : State) : Host.Outcome State Fault Refusal :=
  perform (.mux2 ctx sel) s fun o => .write 0 [choose o.sel o.a o.b]

/-- The j-th of four values (R358). -/
def choose4 (j v0 v1 v2 v3 : Nat) : Nat :=
  match j with
  | 0 => v0
  | 1 => v1
  | 2 => v2
  | _ => v3

/-- MUX4 (R358): every SEL value is legal. -/
def execMux4 (ctx sel : Nat) (s : State) : Host.Outcome State Fault Refusal :=
  perform (.mux4 ctx sel) s fun o => .write 0 [choose4 o.sel o.a o.b o.c o.d]

end Sys2Proof.Machine
end

