-- ==== Sys2Proof/Machine/Division.lean ====
section
/-!
DEFINITION. The reciprocal unit and the divider (42_division.md R250–R252). Only the values are normative (R253,
R254).
-/

namespace Sys2Proof.Machine

/-- RECIP (R251): PARAM for d = 0. -/
def execRecip (ctx sel : Nat) (s : State) : Host.Outcome State Fault Refusal :=
  perform (.recip ctx sel) s fun o => if o.a = 0 then .param else .write 0 [recipOf o.a]

/-- DIVMOD (R252): quotient to DST0, remainder to DST1; PARAM for d = 0. -/
def execDivmod (ctx sel : Nat) (s : State) : Host.Outcome State Fault Refusal :=
  perform (.divmod ctx sel) s fun o => if o.b = 0 then .param else .write 0 [o.a / o.b, o.a % o.b]

end Sys2Proof.Machine
end

