-- ==== Sys2Proof/Machine/Kernel.lean ====
section
/-!
DEFINITION. The big-integer kernel commands (41_bigint.md R200–R213). A value of LENA limbs is in [0, 2^(W·LENA))
(R210).
-/

namespace Sys2Proof.Machine

/-- CMP (R200). -/
def execCmp (ctx sel : Nat) (s : State) : Host.Outcome State Fault Refusal :=
  perform (.cmp ctx sel) s fun o => .write (compareResult o.a o.b) []

/-- ADD (R201): the sum modulo 2^(W·LENA), RESULT the carry-out. -/
def execAdd (ctx sel : Nat) (s : State) : Host.Outcome State Fault Refusal :=
  perform (.add ctx sel) s fun o => .write (carryOut o.bits o.a o.b) [(o.a + o.b) % 2 ^ o.bits]

/-- SUB (R202): the difference modulo 2^(W·LENA), RESULT the borrow-out. -/
def execSub (ctx sel : Nat) (s : State) : Host.Outcome State Fault Refusal :=
  perform (.sub ctx sel) s fun o => .write (borrowOut o.a o.b) [(o.a + 2 ^ o.bits - o.b) % 2 ^ o.bits]

/-- ABSDIFF (R203): the absolute difference, RESULT 1 when b is the larger. -/
def execAbsdiff (ctx sel : Nat) (s : State) : Host.Outcome State Fault Refusal :=
  perform (.absdiff ctx sel) s fun o => .write (borrowOut o.a o.b) [if o.b ≤ o.a then o.a - o.b else o.b - o.a]

/-- MUL (R204): the exact product in LENA+LENB limbs. -/
def execMul (ctx sel : Nat) (s : State) : Host.Outcome State Fault Refusal :=
  perform (.mul ctx sel) s fun o => .write 0 [o.a * o.b]

/-- SQR (R205): the exact square in 2·LENA limbs. -/
def execSqr (ctx sel : Nat) (s : State) : Host.Outcome State Fault Refusal :=
  perform (.sqr ctx sel) s fun o => .write 0 [o.a * o.a]

/-- (a · 2^k) mod 2^bits (R206); a count of `bits` or more gives 0. -/
def shiftLeft (bits a k : Nat) : Nat := if bits ≤ k then 0 else a * 2 ^ k % 2 ^ bits

/-- SHL (R206), the count k = IMM. -/
def execShl (ctx sel : Nat) (s : State) : Host.Outcome State Fault Refusal :=
  perform (.shl ctx sel) s fun o => .write 0 [shiftLeft o.bits o.a o.k]

/-- ⌊a / 2^k⌋ (R207); a count of `bits` or more gives 0, a being below 2^bits. -/
def shiftRight (bits a k : Nat) : Nat := if bits ≤ k then 0 else a / 2 ^ k

/-- SHR (R207), the count k = IMM. -/
def execShr (ctx sel : Nat) (s : State) : Host.Outcome State Fault Refusal :=
  perform (.shr ctx sel) s fun o => .write 0 [shiftRight o.bits o.a o.k]

/-- Bit k of a (R208). -/
def bitOf (a k : Nat) : Nat := a / 2 ^ k % 2

/-- BITTEST (R208): PARAM for a bit index outside the operand. -/
def execBittest (ctx sel : Nat) (s : State) : Host.Outcome State Fault Refusal :=
  perform (.bittest ctx sel) s fun o =>
    if o.k < o.bits then .write (BitVec.ofNat 32 (bitOf o.a o.k)) [] else .param

/-- a with bit k replaced by v (R209). -/
def setBit (a k v : Nat) : Nat := a - bitOf a k * 2 ^ k + v * 2 ^ k

/-- BITSET (R209), the bit value being SEL. -/
def execBitset (ctx sel : Nat) (s : State) : Host.Outcome State Fault Refusal :=
  perform (.bitset ctx sel) s fun o => if o.k < o.bits then .write 0 [setBit o.a o.k o.sel] else .param

/-- ISZERO (R211). -/
def execIszero (ctx sel : Nat) (s : State) : Host.Outcome State Fault Refusal :=
  perform (.iszero ctx sel) s fun o => .write (boolResult (decide (o.a = 0))) []

/-- CLZ (R212): W·LENA − bitlen(a). -/
def execClz (ctx sel : Nat) (s : State) : Host.Outcome State Fault Refusal :=
  perform (.clz ctx sel) s fun o => .write (countResult (o.bits - bitlen o.a)) []

/-- CTZ (R213): W·LENA for a = 0. -/
def execCtz (ctx sel : Nat) (s : State) : Host.Outcome State Fault Refusal :=
  perform (.ctz ctx sel) s fun o => .write (countResult (trailingZeros o.bits o.a)) []

end Sys2Proof.Machine
end

