-- ==== Sys2Proof/Machine/Montgomery.lean ====
section
/-!
DEFINITION. The Montgomery multiplication subsystem (44_montgomery.md R320–R331) and the representation map of a slot
(43_ring.md R290), on numbers. `w` is the limb width W.
-/

namespace Sys2Proof.Machine

/-- The Montgomery radix R = 2^(W·n) (00_scope.md R18). -/
def radix (w n : Nat) : Nat := 2 ^ (w * n)

/-- N0INV = (−p₀^{-1}) mod 2^W with p₀ = p mod 2^W (44_montgomery.md R320). -/
def n0invOf (w p : Nat) : Nat := (2 ^ w - invMod (p % 2 ^ w) (2 ^ w)) % 2 ^ w

/-- RONE = R mod p (44_montgomery.md R321). -/
def roneOf (w n p : Nat) : Nat := radix w n % p

/-- RR = R² mod p (44_montgomery.md R322). -/
def rrOf (w n p : Nat) : Nat := radix w n * radix w n % p

/-- REDC's per-word "cancel low word" pass, from limb i on, `count` limbs (44_montgomery.md R325). -/
def cancelLimbs (w p n0inv : Nat) : Nat → Nat → Nat → Nat
  | 0, _, u => u
  | count + 1, i, u =>
    let m := u / 2 ^ (w * i) % 2 ^ w * n0inv % 2 ^ w
    cancelLimbs w p n0inv count (i + 1) (u + m * p * 2 ^ (w * i))

/-- REDC's value before the final check: the exact division by R, then one conditional subtraction
(44_montgomery.md R325). -/
def redcValue (w : Nat) (c : Slot) (t : Nat) : Nat :=
  let u := cancelLimbs w c.modulus c.n0inv c.n 0 t / radix w c.n
  if c.modulus ≤ u then u - c.modulus else u

/-- `REDC_c(t)`; none stands for raising INVARIANT (44_montgomery.md R325). -/
def redc (w : Nat) (c : Slot) (t : Nat) : Option Nat :=
  if c.modulus ≤ redcValue w c t then none else some (redcValue w c t)

/-- `MontMul_c(a, b) = REDC_c(a · b)` (44_montgomery.md R326). -/
def montMul (w : Nat) (c : Slot) (a b : Nat) : Option Nat := redc w c (a * b)

/-- φ_c, from plain residues to the slot's representation (43_ring.md R290). -/
def Slot.toRing (w : Nat) (c : Slot) (x : Nat) : Nat :=
  match c.strat with
  | .plain => x
  | .montgomery => x * radix w c.n % c.modulus

/-- φ_c^{-1}, from the slot's representation to plain residues (43_ring.md R290). -/
def Slot.ofRing (w : Nat) (c : Slot) (y : Nat) : Nat :=
  match c.strat with
  | .plain => y
  | .montgomery => y * invMod (radix w c.n % c.modulus) c.modulus % c.modulus

/-- one_c, the ring identity (43_ring.md R290; 44_montgomery.md R330). -/
def Slot.one (c : Slot) : Nat :=
  match c.strat with
  | .plain => 1
  | .montgomery => c.rone

/-- The slot's "multiply" (43_ring.md R291); none where REDC raises INVARIANT. -/
def Slot.mul (w : Nat) (c : Slot) (a b : Nat) : Option Nat :=
  match c.strat with
  | .plain => some (a * b % c.modulus)
  | .montgomery => montMul w c a b

/-- The slot's "wide-reduce" (43_ring.md R293). -/
def Slot.reduce (w : Nat) (c : Slot) (t : Nat) : Option Nat :=
  match c.strat with
  | .plain => some (t % c.modulus)
  | .montgomery => redc w c t

/-- The slot's "convert-in" (43_ring.md R295): on a Montgomery slot computed as MontMul_c(x, RR) (44_montgomery.md
R327). -/
def Slot.convertIn (w : Nat) (c : Slot) (x : Nat) : Option Nat :=
  match c.strat with
  | .plain => some x
  | .montgomery => montMul w c x c.rr

/-- The slot's "convert-out" (43_ring.md R296): on a Montgomery slot computed as REDC_c(y) (44_montgomery.md R328). -/
def Slot.convertOut (w : Nat) (c : Slot) (y : Nat) : Option Nat :=
  match c.strat with
  | .plain => some y
  | .montgomery => redc w c y

end Sys2Proof.Machine
end

