-- ==== Sys2Proof/Machine/Ring.lean ====
section
/-!
DEFINITION. The ring commands (43_ring.md R270–R297): slot commands, modular reducer, modular add, subtract, halve,
modular inverter, and the seven dispatch commands.
-/

namespace Sys2Proof.Machine

/-! ## Slot commands -/

/-- The strategy of a strategy code; codes 2 and 3 are reserved and larger ones are none (43_ring.md R272). -/
def strategyOf (code : Nat) : Option Strategy :=
  match code with
  | 0 => some .plain
  | 1 => some .montgomery
  | _ => none

/-- The strategy's code (43_ring.md R272). -/
def Strategy.code : Strategy → Nat
  | .plain => 0
  | .montgomery => 1

/-- The slot RING_INIT builds for modulus p of n limbs (43_ring.md R270). -/
def builtSlot (w : Nat) (st : Strategy) (n p : Nat) : Slot :=
  { valid := true
    strat := st
    n := n
    bitlen := bitlen p
    modulus := p
    recip := recipOf p
    n0inv := if st = .montgomery then n0invOf w p else 0
    rone := if st = .montgomery then roneOf w n p else 0
    rr := if st = .montgomery then rrOf w n p else 0 }

/-- RING_INIT (R270): the checks in the order its pseudocode lists them. -/
def execRingInit (ctx sel : Nat) (s : State) : Host.Outcome State Fault Refusal :=
  perform (.ringInit ctx sel) s fun o =>
    match strategyOf o.k with
    | none => .param
    | some st =>
      if o.a / 2 ^ (o.w * (o.lenA - 1)) = 0 then .param
      else if o.a < 2 then .param
      else if st = .montgomery ∧ o.a % 2 = 0 then .param
      else .build (builtSlot o.w st o.lenA o.a)

/-- The value of field f of a slot and whether a plain slot has it (43_ring.md R271). -/
def ctxFieldValue (c : Slot) (f : Nat) : Nat :=
  match f with
  | 0 => c.modulus
  | 1 => c.recip
  | 2 => c.n0inv
  | 3 => c.rone
  | 4 => c.rr
  | 5 => c.n
  | 6 => c.bitlen
  | _ => c.strat.code

/-- Fields 2, 3 and 4 exist on Montgomery slots only (43_ring.md R271). -/
def ctxFieldAllowed (c : Slot) (f : Nat) : Bool :=
  !(decide (f = 2) || decide (f = 3) || decide (f = 4)) || decide (c.strat = .montgomery)

/-- CTX_RD (R271). -/
def execCtxRd (ctx sel : Nat) (s : State) : Host.Outcome State Fault Refusal :=
  perform (.ctxRd ctx sel) s fun o =>
    if ctxFieldAllowed o.slot o.k then .write 0 [ctxFieldValue o.slot o.k] else .param

/-! ## Shared forms of the ring commands -/

/-- A ring element input ≥ p ends with PARAM before anything is written (43_ring.md R280). -/
def withElement (c : Slot) (a : Nat) (e : Effect) : Effect := if a < c.modulus then e else .param

/-- PARAM for an even modulus (43_ring.md R276, R277, R294). -/
def withOddModulus (c : Slot) (e : Effect) : Effect := if c.modulus % 2 = 1 then e else .param

/-- Write one value, RESULT 0; INVARIANT where REDC raised it. -/
def writeReduced : Option Nat → Effect
  | some v => .write 0 [v]
  | none => .invariant

/-- Write f (x^{-1} mod p), or end with NO_INVERSE where gcd(x, p) ≠ 1 (60_exceptions.md R402). -/
def writeInverse (x p : Nat) (f : Nat → Nat) : Effect :=
  if Nat.gcd x p = 1 then .write 0 [f (invMod x p)] else .noInverse

/-! ## Modular reducer, add, subtract, halve -/

/-- MODRED (R273): plain reduction whatever the strategy. -/
def execModred (ctx sel : Nat) (s : State) : Host.Outcome State Fault Refusal :=
  perform (.modred ctx sel) s fun o => .write 0 [o.a % o.slot.modulus]

/-- MODADD (R274). -/
def execModadd (ctx sel : Nat) (s : State) : Host.Outcome State Fault Refusal :=
  perform (.modadd ctx sel) s fun o =>
    withElement o.slot o.a <| withElement o.slot o.b <| .write 0 [(o.a + o.b) % o.slot.modulus]

/-- MODSUB (R275). -/
def execModsub (ctx sel : Nat) (s : State) : Host.Outcome State Fault Refusal :=
  perform (.modsub ctx sel) s fun o =>
    withElement o.slot o.a <| withElement o.slot o.b <|
      .write 0 [(o.a + o.slot.modulus - o.b) % o.slot.modulus]

/-- MODHALF (R276): (a + (a mod 2)·p) / 2. -/
def execModhalf (ctx sel : Nat) (s : State) : Host.Outcome State Fault Refusal :=
  perform (.modhalf ctx sel) s fun o =>
    withOddModulus o.slot <| withElement o.slot o.a <| .write 0 [(o.a + o.a % 2 * o.slot.modulus) / 2]

/-! ## Modular inverter -/

/-- MODINV_CT (R277): the inverse of the plain integer, whatever the strategy. -/
def execModinvCt (ctx sel : Nat) (s : State) : Host.Outcome State Fault Refusal :=
  perform (.modinvCt ctx sel) s fun o =>
    withOddModulus o.slot <| withElement o.slot o.a <| writeInverse o.a o.slot.modulus id

/-- MODINV_VT (R278): the values of MODINV_CT; only its timing differs. -/
def execModinvVt (ctx sel : Nat) (s : State) : Host.Outcome State Fault Refusal :=
  perform (.modinvVt ctx sel) s fun o =>
    withOddModulus o.slot <| withElement o.slot o.a <| writeInverse o.a o.slot.modulus id

/-! ## Dispatch commands -/

/-- RMUL (R291). -/
def execRmul (ctx sel : Nat) (s : State) : Host.Outcome State Fault Refusal :=
  perform (.rmul ctx sel) s fun o =>
    withElement o.slot o.a <| withElement o.slot o.b <| writeReduced (o.slot.mul o.w o.a o.b)

/-- RSQR (R292). -/
def execRsqr (ctx sel : Nat) (s : State) : Host.Outcome State Fault Refusal :=
  perform (.rsqr ctx sel) s fun o => withElement o.slot o.a <| writeReduced (o.slot.mul o.w o.a o.a)

/-- RREDUCE (R293): on a Montgomery slot REDC of any LENA-limb value, so INVARIANT can be reached. -/
def execRreduce (ctx sel : Nat) (s : State) : Host.Outcome State Fault Refusal :=
  perform (.rreduce ctx sel) s fun o => writeReduced (o.slot.reduce o.w o.a)

/-- RINV (R294): φ_c((φ_c^{-1}(a))^{-1} mod p). -/
def execRinv (ctx sel : Nat) (s : State) : Host.Outcome State Fault Refusal :=
  perform (.rinv ctx sel) s fun o =>
    withOddModulus o.slot <| withElement o.slot o.a <|
      writeInverse (o.slot.ofRing o.w o.a) o.slot.modulus (o.slot.toRing o.w)

/-- RTO (R295). -/
def execRto (ctx sel : Nat) (s : State) : Host.Outcome State Fault Refusal :=
  perform (.rto ctx sel) s fun o => withElement o.slot o.a <| writeReduced (o.slot.convertIn o.w o.a)

/-- RFROM (R296). -/
def execRfrom (ctx sel : Nat) (s : State) : Host.Outcome State Fault Refusal :=
  perform (.rfrom ctx sel) s fun o => withElement o.slot o.a <| writeReduced (o.slot.convertOut o.w o.a)

/-- RISONE (R297). -/
def execRisone (ctx sel : Nat) (s : State) : Host.Outcome State Fault Refusal :=
  perform (.risone ctx sel) s fun o =>
    withElement o.slot o.a <| .write (boolResult (decide (o.a = o.slot.one))) []

end Sys2Proof.Machine
end

