-- ==== Sys2Proof/Machine/Exponent.lean ====
section
/-!
DEFINITION. The modular exponentiation engine (46_modexp.md R380–R387). The value of every variant is R384's; the
listings R383, R385 and R386 that compute it are functions of their own below, and no meaning rests on them (log 17).
-/

namespace Sys2Proof.Machine

/-- The value of R384: φ_c(x^e mod p) with x = φ_c^{-1}(b). -/
def expValue (w : Nat) (c : Slot) (b e : Nat) : Nat := c.toRing w (powMod (c.ofRing w b) e c.modulus)

/-- The body of R384: PARAM for a base ≥ p. -/
def expBody (o : Operands) : Effect := withElement o.slot o.a <| .write 0 [expValue o.w o.slot o.a o.b]

/-- EXP_LADDER (R380). -/
def execExpLadder (ctx sel : Nat) (s : State) : Host.Outcome State Fault Refusal :=
  perform (.expLadder ctx sel) s expBody

/-- EXP_FAST (R381). -/
def execExpFast (ctx sel : Nat) (s : State) : Host.Outcome State Fault Refusal :=
  perform (.expFast ctx sel) s expBody

/-- EXP_SSMA (R382). -/
def execExpSsma (ctx sel : Nat) (s : State) : Host.Outcome State Fault Refusal :=
  perform (.expSsma ctx sel) s expBody

/-! ## The listings (46_modexp.md R383, R385, R386) -/

/-- The Montgomery ladder (R385) over the bits i−1 .. 0 of e; none where a ring multiply raises INVARIANT. -/
def ladderFrom (mul : Nat → Nat → Option Nat) (e : Nat) : Nat → Nat → Nat → Option Nat
  | 0, r0, _ => some r0
  | i + 1, r0, r1 =>
    let t := bitOf e i
    let x0 := choose t r1 r0
    let x1 := choose t r0 r1
    match mul x0 x1, mul x0 x0 with
    | some y1, some y0 => ladderFrom mul e i (choose t y1 y0) (choose t y0 y1)
    | _, _ => none

/-- The ladder on a slot: r0 ← one_c, r1 ← b, all `bits` bits of e (R385). -/
def ladder (w : Nat) (c : Slot) (bits b e : Nat) : Option Nat := ladderFrom (c.mul w) e bits c.one b

/-- The i-th 2-bit window of e. -/
def windowOf (e i : Nat) : Nat := e / 4 ^ i % 4

/-- The fast fixed 2-bit window (R386) over the windows i−1 .. 0: two squarings, then a multiply by b^d unless the
window d is 0. -/
def fastWindowFrom (mul : Nat → Nat → Option Nat) (b1 b2 b3 e : Nat) : Nat → Nat → Option Nat
  | 0, r => some r
  | i + 1, r =>
    match (mul r r).bind fun q => mul q q with
    | none => none
    | some q =>
      if windowOf e i = 0 then fastWindowFrom mul b1 b2 b3 e i q
      else
        match mul q (choose4 (windowOf e i) q b1 b2 b3) with
        | none => none
        | some r' => fastWindowFrom mul b1 b2 b3 e i r'

/-- The fast window on a slot, with the powers b, b², b³ (R386; 90_conflicts.md C6). -/
def fastWindow (w : Nat) (c : Slot) (windows b e : Nat) : Option Nat :=
  match c.mul w b b with
  | none => none
  | some b2 =>
    match c.mul w b2 b with
    | none => none
    | some b3 => fastWindowFrom (c.mul w) b b2 b3 e windows c.one

/-- Square-square-multiply-always (R383) over the windows i−1 .. 0: every window multiplies, a "00" window by m₀. -/
def ssmaFrom (mul : Nat → Nat → Option Nat) (m0 m1 m2 m3 e : Nat) : Nat → Nat → Option Nat
  | 0, r => some r
  | i + 1, r =>
    match ((mul r r).bind fun q => mul q q).bind fun q => mul q (choose4 (windowOf e i) m0 m1 m2 m3) with
    | none => none
    | some r' => ssmaFrom mul m0 m1 m2 m3 e i r'

/-- SSMA on a slot, m₀ = φ_c(p − 1), with the final conditional negation (R383; 90_conflicts.md C3). -/
def ssma (w : Nat) (c : Slot) (windows b e : Nat) : Option Nat :=
  match c.mul w b b with
  | none => none
  | some b2 =>
    match c.mul w b2 b with
    | none => none
    | some b3 =>
      (ssmaFrom (c.mul w) (c.toRing w (c.modulus - 1)) b b2 b3 e windows c.one).map fun r =>
        if windowOf e 0 = 0 then (c.modulus - r) % c.modulus else r

end Sys2Proof.Machine
end

