-- ==== Sys2Proof/Machine/Dispatch.lean ====
section
/-!
DEFINITION. The dispatch of a decoded command to its meaning, one arm per constructor of Instr (30_encoding.md R116).
-/

namespace Sys2Proof.Machine

def exec (i : Instr) (s : State) : Host.Outcome State Fault Refusal :=
  match i with
  | .cmp ctx sel => Sys2Proof.Machine.execCmp ctx sel s
  | .add ctx sel => Sys2Proof.Machine.execAdd ctx sel s
  | .sub ctx sel => Sys2Proof.Machine.execSub ctx sel s
  | .absdiff ctx sel => Sys2Proof.Machine.execAbsdiff ctx sel s
  | .mul ctx sel => Sys2Proof.Machine.execMul ctx sel s
  | .sqr ctx sel => Sys2Proof.Machine.execSqr ctx sel s
  | .shl ctx sel => Sys2Proof.Machine.execShl ctx sel s
  | .shr ctx sel => Sys2Proof.Machine.execShr ctx sel s
  | .bittest ctx sel => Sys2Proof.Machine.execBittest ctx sel s
  | .bitset ctx sel => Sys2Proof.Machine.execBitset ctx sel s
  | .iszero ctx sel => Sys2Proof.Machine.execIszero ctx sel s
  | .clz ctx sel => Sys2Proof.Machine.execClz ctx sel s
  | .ctz ctx sel => Sys2Proof.Machine.execCtz ctx sel s
  | .recip ctx sel => Sys2Proof.Machine.execRecip ctx sel s
  | .divmod ctx sel => Sys2Proof.Machine.execDivmod ctx sel s
  | .ringInit ctx sel => Sys2Proof.Machine.execRingInit ctx sel s
  | .ctxRd ctx sel => Sys2Proof.Machine.execCtxRd ctx sel s
  | .modred ctx sel => Sys2Proof.Machine.execModred ctx sel s
  | .modadd ctx sel => Sys2Proof.Machine.execModadd ctx sel s
  | .modsub ctx sel => Sys2Proof.Machine.execModsub ctx sel s
  | .modhalf ctx sel => Sys2Proof.Machine.execModhalf ctx sel s
  | .modinvCt ctx sel => Sys2Proof.Machine.execModinvCt ctx sel s
  | .modinvVt ctx sel => Sys2Proof.Machine.execModinvVt ctx sel s
  | .rmul ctx sel => Sys2Proof.Machine.execRmul ctx sel s
  | .rsqr ctx sel => Sys2Proof.Machine.execRsqr ctx sel s
  | .rreduce ctx sel => Sys2Proof.Machine.execRreduce ctx sel s
  | .rinv ctx sel => Sys2Proof.Machine.execRinv ctx sel s
  | .rto ctx sel => Sys2Proof.Machine.execRto ctx sel s
  | .rfrom ctx sel => Sys2Proof.Machine.execRfrom ctx sel s
  | .risone ctx sel => Sys2Proof.Machine.execRisone ctx sel s
  | .ctEq ctx sel => Sys2Proof.Machine.execCtEq ctx sel s
  | .ctLt ctx sel => Sys2Proof.Machine.execCtLt ctx sel s
  | .ctGt ctx sel => Sys2Proof.Machine.execCtGt ctx sel s
  | .ctSel ctx sel => Sys2Proof.Machine.execCtSel ctx sel s
  | .cswap ctx sel => Sys2Proof.Machine.execCswap ctx sel s
  | .cneg ctx sel => Sys2Proof.Machine.execCneg ctx sel s
  | .cshr ctx sel => Sys2Proof.Machine.execCshr ctx sel s
  | .mux2 ctx sel => Sys2Proof.Machine.execMux2 ctx sel s
  | .mux4 ctx sel => Sys2Proof.Machine.execMux4 ctx sel s
  | .expLadder ctx sel => Sys2Proof.Machine.execExpLadder ctx sel s
  | .expFast ctx sel => Sys2Proof.Machine.execExpFast ctx sel s
  | .expSsma ctx sel => Sys2Proof.Machine.execExpSsma ctx sel s

end Sys2Proof.Machine
end

