-- ==== Sys2Proof/Machine/HostAccess.lean ====
section
/-!
DEFINITION. The host's accesses (10_state.md R33–R39, R46, R49, R50), the busy hazard (70_reset_and_hazards.md R450),
the interrupt line (60_exceptions.md R412) and the reset input (70_reset_and_hazards.md R440).
-/

namespace Sys2Proof.Machine

/-- The STATUS.ERR code numbers (60_exceptions.md R400). -/
def StatusCode.code : StatusCode → Nat
  | .ok => 0
  | .param => 1
  | .noInverse => 2
  | .resource => 3
  | .illegal => 4
  | .aborted => 5
  | .invariant => 6

/-- ID: 0x4D4D in bits [31:16], W in [15:8], 0x01 in [7:0] (10_state.md R33). -/
def idWord (p : Params) : BitVec 32 := BitVec.ofNat 32 (0x4D4D * 2 ^ 16 + p.w * 2 ^ 8 + 0x01)

/-- PARAM0: N_MAX in bits [15:0], CTX_SLOTS − 1 in [18:16] (10_state.md R34). -/
def param0Word (p : Params) : BitVec 32 := BitVec.ofNat 32 (p.nMax % 2 ^ 16 + (p.ctxSlots - 1) % 2 ^ 3 * 2 ^ 16)

/-- PARAM1: MEM_WORDS mod 2^32 (10_state.md R35). -/
def param1Word (p : Params) : BitVec 32 := BitVec.ofNat 32 p.memWords

/-- STATUS as the host reads it: ERR [3:0], BUSY [8], DONE [9], FAULTED [10] (10_state.md R36). -/
def State.statusWord (s : State) : BitVec 32 :=
  BitVec.ofNat 32 (s.err.code + s.busy.toNat * 2 ^ 8 + s.done.toNat * 2 ^ 9 + s.faulted.toNat * 2 ^ 10)

/-- The value a read of CSR number k returns (10_state.md R50); reserved numbers read 0 (R49). -/
def State.csr (s : State) (k : BitVec 8) : BitVec 32 :=
  match k with
  | 0x00#8 => idWord s.params
  | 0x01#8 => param0Word s.params
  | 0x02#8 => param1Word s.params
  | 0x03#8 => s.statusWord
  | 0x04#8 => s.result
  | 0x05#8 => s.cmd
  | 0x06#8 => s.desc.dst0
  | 0x07#8 => s.desc.dst1
  | 0x08#8 => s.desc.srcA
  | 0x09#8 => s.desc.srcB
  | 0x0A#8 => s.desc.srcC
  | 0x0B#8 => s.desc.srcD
  | 0x0C#8 => s.desc.lenA.setWidth 32
  | 0x0D#8 => s.desc.lenB.setWidth 32
  | 0x0E#8 => s.desc.imm
  | 0x0F#8 => BitVec.ofNat 32 s.ie.toNat
  | _ => 0

/-- A CMD write (30_encoding.md R110); while BUSY = 1 it is model fault HOST_HAZARD (70_reset_and_hazards.md R450). -/
def State.writeCmd (s : State) (v : BitVec 32) : State := if s.busy then s.recordFault .hostHazard else s.issue v

/-- A host write of v to CSR number k (10_state.md R36–R39, R46, R49): STATUS bit 9 clears DONE, CMD starts a command,
the read-only and the reserved registers ignore it. -/
def State.writeCsr (s : State) (k : BitVec 8) (v : BitVec 32) : State :=
  match k with
  | 0x03#8 => if v.getLsbD 9 then { s with done := false } else s
  | 0x05#8 => s.writeCmd v
  | 0x06#8 => { s with desc := { s.desc with dst0 := v } }
  | 0x07#8 => { s with desc := { s.desc with dst1 := v } }
  | 0x08#8 => { s with desc := { s.desc with srcA := v } }
  | 0x09#8 => { s with desc := { s.desc with srcB := v } }
  | 0x0A#8 => { s with desc := { s.desc with srcC := v } }
  | 0x0B#8 => { s with desc := { s.desc with srcD := v } }
  | 0x0C#8 => { s with desc := { s.desc with lenA := v.setWidth 16 } }
  | 0x0D#8 => { s with desc := { s.desc with lenB := v.setWidth 16 } }
  | 0x0E#8 => { s with desc := { s.desc with imm := v } }
  | 0x0F#8 => { s with ie := v.getLsbD 0 }
  | _ => s

/-- The model faults of a host operand-memory access at a: HOST_HAZARD while BUSY = 1, BUS at a ≥ MEM_WORDS
(10_state.md R50); both kinds where both hold (log 9). -/
def State.memAccessFaults (s : State) (a : Nat) : List ModelFault :=
  (if s.busy then [.hostHazard] else []) ++ (if s.params.memWords ≤ a then [.bus] else [])

/-- An operand-memory access that goes on as `f` where it meets no model fault. -/
def State.withMemAccess (s : State) (a : Nat) (f : State → State) : State :=
  if s.memAccessFaults a = [] then f s else (s.memAccessFaults a).foldl State.recordFault s

/-- The word a host read of address a returns, and the state after it: a free value of W bits where INIT = 0
(10_state.md R50; log 7). -/
def State.hostReadMem (s : State) (a : Nat) : State :=
  match s.mem.read a with
  | some v => { s with hostReads := .mem a v :: s.hostReads }
  | none =>
    { s with
      hostReads := .mem a (Config.unspecifiedWord s.draws % 2 ^ s.params.w) :: s.hostReads
      draws := s.draws + 1 }

/-- A host write of the word v to address a (10_state.md R50); the bus carries W bits (log 18). -/
def State.hostWriteMem (s : State) (a v : Nat) : State := { s with mem := s.mem.write a (v % 2 ^ s.params.w) }

/-- One host access, an atomic step of the host agent (10_state.md R50). -/
def State.hostAccess (s : State) : HostAction → State
  | .csrRead k => { s with hostReads := .csr k (s.csr k) :: s.hostReads }
  | .csrWrite k v => s.writeCsr k v
  | .memRead a => s.withMemAccess a fun t => t.hostReadMem a
  | .memWrite a v => s.withMemAccess a fun t => t.hostWriteMem a v

/-- The interrupt line IRQ = STATUS.DONE AND IRQCTL.IE (60_exceptions.md R412). -/
def State.irq (s : State) : Bool := s.done && s.ie

/-- The reset input (70_reset_and_hazards.md R440): the whole block goes to its reset state; the model-fault record is
unchanged, and so are the configuration and what belongs to the host's side (log 11). -/
def State.resetBlock (s : State) : State :=
  { State.resetWith s.params with
    modelFaults := s.modelFaults
    turns := s.turns
    hostReads := s.hostReads
    draws := s.draws }

end Sys2Proof.Machine
end

