-- ==== Sys2Proof/Machine/Engine.lean ====
section
/-!
DEFINITION. Who moves in a step: the engine with the latched command (30_encoding.md R130), the host, or the reset
input (10_state.md R32; 70_reset_and_hazards.md R440).
-/

namespace Sys2Proof.Machine

/-- The engine performs a latched command word: a word that is no MMB command is rejected (30_encoding.md R130 steps 1
and 2), any other runs its command. -/
def performWord (s : State) (cmd : BitVec 32) : Host.Outcome State Fault Refusal :=
  match decode cmd with
  | .ok i => exec i s
  | .error _ => .next s.rejectIllegal

/-- The engine's turn: it performs the latched command, and with BUSY = 0 it is idle and all state is retained
(30_encoding.md R130; 60_exceptions.md R421). -/
def engineTurn (s : State) : Host.Outcome State Fault Refusal :=
  match s.pendingCommand with
  | some cmd => performWord s cmd
  | none => .next s

/-- A turn of the host or of the engine. After a model fault no agent takes a further step (60_exceptions.md R411). -/
def agentTurn (s : State) (turn : Host.Outcome State Fault Refusal) : Host.Outcome State Fault Refusal :=
  if s.modelFaults = [] then turn else .fault (.modelFault s.modelFaults)

/-- One step: the first of the turns to come; with none left, the engine's (log 5). The reset input acts whatever the
block was doing (70_reset_and_hazards.md R440). -/
def nextTurn (s : State) : Host.Outcome State Fault Refusal :=
  match s.turns with
  | [] => agentTurn s (engineTurn s)
  | .engine :: rest => agentTurn s (engineTurn { s with turns := rest })
  | .host a :: rest => agentTurn s (.next (State.hostAccess { s with turns := rest } a))
  | .reset :: rest => .next (State.resetBlock { s with turns := rest })

/-- Put the command word `cmd` where the engine takes its next command, and the engine's turn first (log 13). -/
def State.withCommand (s : State) (cmd : BitVec 32) : State :=
  { s.issue cmd with turns := .engine :: s.turns }

end Sys2Proof.Machine
end

