-- ==== Sys2Proof/Machine/Step.lean ====
section
/-!
DEFINITION. The step of the machine, and the command word the next step runs. Both only call Machine/Engine.lean.
-/

namespace Sys2Proof.Machine

/-- One step of the MMB: one atomic step of the host, the engine or the reset input. -/
def step (s : State) : Host.Outcome State Fault Refusal := nextTurn s

/-- `s` with the command word whose `nbits` bits are `w` latched, as a CMD write latches it (30_encoding.md R110), and
the engine to move next (log 13). -/
def State.withFetchWord (s : State) (nbits w : Nat) : State := s.withCommand (tableWord nbits w)

end Sys2Proof.Machine
end

