-- ==== Sys2Proof/Machine/HostProgram.lean ====
section
/-!
DEFINITION. The host program syntax and its command pseudo-instructions (30_encoding.md R120, R121), expanded to the
turns of State (log 22). Nothing in the machine depends on this file.
-/

namespace Sys2Proof.Machine

/-- The CSR names of 10_state.md §2 that a host program writes or reads. -/
inductive CsrName where
  | id | param0 | param1 | status | result | cmd
  | dst0 | dst1 | srcA | srcB | srcC | srcD | lenA | lenB | imm | irqctl
deriving DecidableEq, Repr

/-- The number of a named CSR (10_state.md §2). -/
def CsrName.number : CsrName → BitVec 8
  | .id => 0x00
  | .param0 => 0x01
  | .param1 => 0x02
  | .status => 0x03
  | .result => 0x04
  | .cmd => 0x05
  | .dst0 => 0x06
  | .dst1 => 0x07
  | .srcA => 0x08
  | .srcB => 0x09
  | .srcC => 0x0A
  | .srcD => 0x0B
  | .lenA => 0x0C
  | .lenB => 0x0D
  | .imm => 0x0E
  | .irqctl => 0x0F

/-- The keys of a command pseudo-instruction (R121). -/
inductive Key where
  | d0 | d1 | a | b | c | d | la | lb | imm
deriving DecidableEq, Repr

/-- The descriptor register a key writes (R121). -/
def Key.register : Key → CsrName
  | .d0 => .dst0
  | .d1 => .dst1
  | .a => .srcA
  | .b => .srcB
  | .c => .srcC
  | .d => .srcD
  | .la => .lenA
  | .lb => .lenB
  | .imm => .imm

/-- `WR <csr>, <v>` (R120). -/
def hostWR (r : CsrName) (v : BitVec 32) : Turn := .host (.csrWrite r.number v)

/-- `RD <csr>` (R120). -/
def hostRD (r : CsrName) : Turn := .host (.csrRead r.number)

/-- `MW <addr>, <v>` (R120). -/
def hostMW (a v : Nat) : Turn := .host (.memWrite a v)

/-- `MR <addr>` (R120). -/
def hostMR (a : Nat) : Turn := .host (.memRead a)

/-- `WAIT` (R120): the read of STATUS that finds BUSY = 0, after the engine's turn (log 22). -/
def hostWAIT : List Turn := [.engine, hostRD .status]

/-- `MWN <addr>, <v>, <n>` (R121): n word writes of the limbs of v, little-endian. -/
def hostMWN (w : Nat) : Nat → Nat → Nat → List Turn
  | _, _, 0 => []
  | a, v, n + 1 => hostMW a (v % 2 ^ w) :: hostMWN w (a + 1) (v / 2 ^ w) n

/-- `CLRDONE` = `WR STATUS, 0x200` (R121). -/
def hostCLRDONE : Turn := hostWR .status 0x200

/-- A command pseudo-instruction (R121): one WR per key in the order written, WR CMD, WAIT. -/
def hostCommand (i : Instr) (keys : List (Key × BitVec 32)) : List Turn :=
  keys.map (fun kv => hostWR kv.1.register kv.2) ++ hostWR .cmd (encode i) :: hostWAIT

end Sys2Proof.Machine
end

