-- ==== Sys2Proof/Safety.lean ====
section
/-!
DEFINITION. What counts as a safe state and a safe run, and the terms the claims use: the invariant of the machine, the
conditions under which a command executes normally, spelled out from 30_encoding.md R130 and R131, and the states a
command's completion leads to.
-/

namespace Sys2Proof.Machine

/-! ## Illegal command words -/

/-- The words 30_encoding.md R117 calls illegal: a bit of [31:13] set, or OPC in one of the listed ranges. -/
def IllegalCommandWord (cmd : BitVec 32) : Prop :=
  cmd.toNat / 2 ^ 13 ≠ 0 ∨
    (cmd.toNat % 2 ^ 8 = 0x00 ∨ (0x0E ≤ cmd.toNat % 2 ^ 8 ∧ cmd.toNat % 2 ^ 8 ≤ 0x0F) ∨
      (0x12 ≤ cmd.toNat % 2 ^ 8 ∧ cmd.toNat % 2 ^ 8 ≤ 0x1F) ∨ cmd.toNat % 2 ^ 8 = 0x2F ∨
      (0x39 ≤ cmd.toNat % 2 ^ 8 ∧ cmd.toNat % 2 ^ 8 ≤ 0x3F) ∨ 0x43 ≤ cmd.toNat % 2 ^ 8)

/-! ## The invariant -/

/-- The fields of a valid slot (10_state.md R40, R41). -/
abbrev Slot.wellBuilt (p : Params) (c : Slot) : Prop :=
  (1 ≤ c.n ∧ c.n ≤ p.nMax) ∧
  (2 ≤ c.modulus ∧ 2 ^ (p.w * (c.n - 1)) ≤ c.modulus ∧ c.modulus < 2 ^ (p.w * c.n)) ∧
  (2 ^ (c.bitlen - 1) ≤ c.modulus ∧ c.modulus < 2 ^ c.bitlen) ∧
  c.recip = 2 ^ (2 * c.bitlen) / c.modulus ∧
  (c.strat = .montgomery →
    c.modulus % 2 = 1 ∧ 3 ≤ c.modulus ∧ c.n0inv < 2 ^ p.w ∧ (c.n0inv * c.modulus + 1) % 2 ^ p.w = 0 ∧
      c.rone = 2 ^ (p.w * c.n) % c.modulus ∧ c.rr = (2 ^ (p.w * c.n)) ^ 2 % c.modulus) ∧
  (c.strat = .plain → c.n0inv = 0 ∧ c.rone = 0 ∧ c.rr = 0)

/-- Every listed word lies in operand memory and is below 2^W (10_state.md R43). -/
abbrev Memory.fits (p : Params) (m : Memory) : Prop := ∀ x ∈ m, x.1 < p.memWords ∧ x.2 < 2 ^ p.w

/-- The invariant of the machine: legal parameters (00_scope.md R6–R9), a canonical memory of W-bit words inside
MEM_WORDS, CTX_SLOTS slots, each valid one as R41 says, and a model-fault record without repeats (10_state.md R48). -/
abbrev State.Inv (s : State) : Prop :=
  s.params.wf ∧ s.mem.wf ∧ Memory.fits s.params s.mem ∧ s.slots.length = s.params.ctxSlots ∧
    (∀ c ∈ s.slots, c.valid = true → c.wellBuilt s.params) ∧ s.modelFaults.Nodup

/-- A state of a safe run: the invariant holds and no model fault is recorded (60_exceptions.md R411, "every claim
assumes no model fault recorded"). -/
abbrev State.Safe (s : State) : Prop := s.Inv ∧ s.modelFaults = []

/-! ## Operands of the command in progress -/

/-- The limb width W. -/
abbrev State.w (s : State) : Nat := s.params.w

/-- LENA of the command in progress. -/
abbrev State.lenA (s : State) : Nat := s.operandDesc.lenA.toNat

/-- LENB of the command in progress. -/
abbrev State.lenB (s : State) : Nat := s.operandDesc.lenB.toNat

/-- IMM of the command in progress. -/
abbrev State.imm (s : State) : Nat := s.operandDesc.imm.toNat

/-- The range SRCA:len. -/
abbrev State.atA (s : State) (len : Nat) : Range := ⟨s.operandDesc.srcA.toNat, len⟩

/-- The range SRCB:len. -/
abbrev State.atB (s : State) (len : Nat) : Range := ⟨s.operandDesc.srcB.toNat, len⟩

/-- The range SRCC:len. -/
abbrev State.atC (s : State) (len : Nat) : Range := ⟨s.operandDesc.srcC.toNat, len⟩

/-- The range SRCD:len. -/
abbrev State.atD (s : State) (len : Nat) : Range := ⟨s.operandDesc.srcD.toNat, len⟩

/-- The range DST0:len. -/
abbrev State.atDst0 (s : State) (len : Nat) : Range := ⟨s.operandDesc.dst0.toNat, len⟩

/-- The range DST1:len. -/
abbrev State.atDst1 (s : State) (len : Nat) : Range := ⟨s.operandDesc.dst1.toNat, len⟩

/-! ## When a command executes normally (30_encoding.md R130) -/

/-- Two ranges share no word. -/
abbrev Range.Apart (r q : Range) : Prop := r.base + r.len ≤ q.base ∨ q.base + q.len ≤ r.base

/-- The range is legal (20_memory.md R83). -/
abbrev Range.InMemory (r : Range) (s : State) : Prop := 1 ≤ r.len ∧ r.base + r.len ≤ s.params.memWords

/-- 1 ≤ len ≤ N_MAX (30_encoding.md R112). -/
abbrev State.LenOk (s : State) (len : Nat) : Prop := 1 ≤ len ∧ len ≤ s.params.nMax

/-- Command i meets no check of 30_encoding.md R130 but those of its lengths, slot, selector and values: the block is
not FAULTED (step 1), the ranges are legal (step 5), each destination is identical to or apart from each source
(step 6, R131), every source is initialised and has the value given (step 8), and SCRATCH_OK holds (step 9). -/
abbrev Ready (i : Instr) (s : State) (srcs : List (Range × Nat)) (dsts : List Range) : Prop :=
  s.faulted = false ∧ scratchOk i s = true ∧
    (∀ x ∈ srcs, x.1.InMemory s ∧ s.readRange x.1 = some x.2) ∧ (∀ d ∈ dsts, d.InMemory s) ∧
    ∀ d ∈ dsts, ∀ x ∈ srcs, d = x.1 ∨ d.Apart x.1

/-- Slot c exists and is valid (30_encoding.md R130 step 3), and is as RING_INIT builds it (10_state.md R41). -/
abbrev State.SlotReady (s : State) (c : Nat) : Prop :=
  c < s.params.ctxSlots ∧ (s.slot c).valid = true ∧ (s.slot c).wellBuilt s.params

/-! ## Where a command's completion leads -/

/-- MemWrite of the value v to the range (00_scope.md R15). -/
abbrev State.put (s : State) (r : Range) (v : Nat) : Memory := Memory.writeLimbs s.params.w s.mem r.base r.len v

/-- Completion with OK, RESULT `result` and memory `m` (60_exceptions.md R405). -/
def State.okWith (s : State) (result : BitVec 32) (m : Memory) : State :=
  { s with err := .ok, done := true, latch := none, result := result, mem := m }

/-- Completion with another code and nothing else changed (60_exceptions.md R406, R407). -/
def State.endedWith (s : State) (code : StatusCode) : State :=
  { s with err := code, done := true, latch := none, result := 0#32 }

/-- Completion with a code that spoils the destination ranges (60_exceptions.md R407). -/
def State.spoiledWith (s : State) (code : StatusCode) (dsts : List Range) : State :=
  { s.endedWith code with mem := eraseRanges s.mem dsts }

/-- The fields no command touches: configuration, CMD, the live descriptors, IRQCTL, and the model's own fields. -/
abbrev SameOutside (s t : State) : Prop :=
  t.params = s.params ∧ t.cmd = s.cmd ∧ t.desc = s.desc ∧ t.ie = s.ie ∧ t.turns = s.turns ∧
    t.hostReads = s.hostReads ∧ t.draws = s.draws

/-- The values 70_reset_and_hazards.md R440 gives the block after reset: the read-write and status registers 0, the latch
empty, FAULTED and the IRQ line 0, every slot invalid, no word initialised. -/
abbrev State.AtReset (t : State) : Prop :=
  (t.csr 0x00 = idWord t.params ∧ t.csr 0x01 = param0Word t.params ∧ t.csr 0x02 = param1Word t.params) ∧
    (∀ k ∈ [0x03, 0x04, 0x05, 0x06, 0x07, 0x08, 0x09, 0x0A, 0x0B, 0x0C, 0x0D, 0x0E, (0x0F : BitVec 8)], t.csr k = 0#32) ∧
    t.latch = none ∧ t.faulted = false ∧ t.irq = false ∧
    (t.slots.length = t.params.ctxSlots ∧ ∀ c ∈ t.slots, c.valid = false) ∧ ∀ a, t.mem.read a = none

/-- Address a belongs to none of the ranges. -/
abbrev Outside (rs : List Range) (a : Nat) : Prop := ∀ r ∈ rs, a < r.base ∨ r.base + r.len ≤ a

end Sys2Proof.Machine
end

