-- ==== Sys2Proof/Certificates/Slice0/Obligations.lean ====
section
/-!
DEFINITION. The statements about the MMB. Each cites the rules of spec/ it formalises. Throughout, `s.w`, `s.lenA`,
`s.lenB`, `s.imm` and `s.atA` … `s.atDst1` are the limb width and the latched descriptor values of the command in
progress (Safety.lean), and `.next` is a step that goes on.
-/

open Sys2Proof Sys2Proof.Machine

/-! ## Encoding -/

/-- Encoding a well-formed command and decoding the word gives the command back, with CTX and SEL at every value their
fields admit (30_encoding.md R111, R116). -/
def Obligations.EncodedCommandsDecodeBack : Prop :=
  ∀ i : Instr, i.wellFormed = true → decode (encode i) = .ok i

/-- A word that decodes is the encoding of what it decodes to, and that command is well formed: no bit of a command word
is dropped (30_encoding.md R111, R116). -/
def Obligations.DecodedWordsEncodeBack : Prop :=
  ∀ (cmd : BitVec 32) (i : Instr), decode cmd = .ok i → encode i = cmd ∧ i.wellFormed = true

/-- Some command words of 95_test_vectors.md decode to the commands they stand for. -/
def Obligations.WrittenWordsDecode : Prop :=
  decode 0x00000001#32 = .ok (.cmp 0 0) ∧ decode 0x00000120#32 = .ok (.ringInit 1 0) ∧
    decode 0x00000834#32 = .ok (.cswap 0 1) ∧ decode 0x00001838#32 = .ok (.mux4 0 3) ∧
    decode 0x00000142#32 = .ok (.expSsma 1 0) ∧ decode 0x00000011#32 = .ok (.divmod 0 0) ∧
    decode 0x00002001#32 = .error .reservedBits ∧ decode 0x00000000#32 = .error .unassignedOpcode

/-- R117: an illegal word ends with ILLEGAL, writes no memory and no slot, and sets RESULT to 0 (in a block that is not
FAULTED); every other word is a command. -/
def Obligations.IllegalWordsEndWithIllegal : Prop :=
  (∀ (s : State) (l : Latch) (rest : List Turn), s.modelFaults = [] → s.faulted = false → s.latch = some l →
      s.turns = .engine :: rest → IllegalCommandWord l.cmd →
      step s = .next (State.endedWith { s with turns := rest } .illegal)) ∧
    ∀ cmd : BitVec 32, ¬IllegalCommandWord cmd → ∃ i, decode cmd = .ok i

/-! ## The step -/

/-- When no model fault is recorded and it is the engine's turn (or no turn is left), a latched word that decodes to i
is performed as exec i, the turn being spent (30_encoding.md R130; the turns are the model's own, log 5). -/
def Obligations.StepRunsTheLatchedCommand : Prop :=
  ∀ (s : State) (l : Latch) (i : Instr), s.modelFaults = [] → s.latch = some l → decode l.cmd = .ok i →
    (∀ rest, s.turns = .engine :: rest → step s = exec i { s with turns := rest }) ∧
    (s.turns = [] → step s = exec i s)

/-- R110: a CMD write while BUSY = 0 stores the value, takes the snapshot and sets BUSY, and changes nothing else; the
engine then performs the command as one later step; while BUSY = 1 the write is model fault HOST_HAZARD. -/
def Obligations.CmdWriteLatchesACommand : Prop :=
  ∀ (s : State) (v : BitVec 32) (rest : List Turn), s.modelFaults = [] → s.turns = .host (.csrWrite 0x05 v) :: rest →
    (s.busy = false →
      step s = .next { s with turns := rest, cmd := v, latch := some { cmd := v, desc := s.desc } } ∧
      ∀ rest' i, rest = .engine :: rest' → decode v = .ok i →
        step { s with turns := rest, cmd := v, latch := some { cmd := v, desc := s.desc } } =
          exec i { s with turns := rest', cmd := v, latch := some { cmd := v, desc := s.desc } }) ∧
    (s.busy = true → ∃ t, step s = .next t ∧ .hostHazard ∈ t.modelFaults)

/-- The engine executes the snapshot (10_state.md R45): with a command latched, the live descriptor registers neither matter to it nor
change by it. -/
def Obligations.LatchedCommandIgnoresDescriptorWrites : Prop :=
  ∀ (i : Instr) (s t : State) (d : Descriptors), s.busy = true → exec i s = .next t →
    exec i { s with desc := d } = .next { t with desc := d }

/-- With BUSY = 0 the block is idle and all state is retained; no host access but a CMD write wakes it (60_exceptions.md
§5). That the engine moves when no turn is left, and that a turn is spent, is the model's choice (log 5). -/
def Obligations.IdleBlockRetainsItsState : Prop :=
  ∀ s : State, s.modelFaults = [] → s.busy = false →
    (s.turns = [] → step s = .next s) ∧
    (∀ rest, s.turns = .engine :: rest → step s = .next { s with turns := rest }) ∧
    ∀ a : HostAction, (∀ v, a ≠ .csrWrite 0x05 v) → (s.hostAccess a).busy = false

/-- A command pseudo-instruction (30_encoding.md R121; WAIT as log 22 reads it) on an idle block: after its descriptor writes, its CMD write and
one engine turn, the block is where exec of that command leads from the state those writes make. -/
def Obligations.CommandProgramPerformsItsCommand : Prop :=
  ∀ (i : Instr) (keys : List (Key × BitVec 32)) (s : State) (rest : List Turn), i.wellFormed = true →
    s.modelFaults = [] → s.busy = false → s.turns = hostCommand i keys ++ rest →
    Host.Core.run Sys2Proof.core (keys.length + 2) s =
      exec i (State.issue
        (keys.foldl (fun t kv => t.writeCsr kv.1.register.number kv.2) { s with turns := hostRD .status :: rest })
        (encode i))

/-! ## Host accesses, registers, interrupt -/

/-- STATUS as the host reads and writes it (10_state.md R36): its fields, its reserved bits, the one effect of a write,
and that only a write of bit 9 or reset clears DONE. -/
def Obligations.StatusRegister : Prop :=
  (∀ s : State, ((s.csr 0x03).extractLsb' 0 4 = BitVec.ofNat 4 s.err.code ∧ s.err.code ≤ 6) ∧
      (s.csr 0x03).extractLsb' 4 4 = 0 ∧ (s.csr 0x03).getLsbD 8 = s.busy ∧ (s.csr 0x03).getLsbD 9 = s.done ∧
      (s.csr 0x03).getLsbD 10 = s.faulted ∧ (s.csr 0x03).extractLsb' 11 21 = 0) ∧
    (∀ (s : State) (v : BitVec 32), s.writeCsr 0x03 v = if v.getLsbD 9 then { s with done := false } else s) ∧
    ∀ s t : State, step s = .next t → s.done = true → t.done = false →
      ∃ rest, s.turns = .reset :: rest ∨ ∃ v, s.turns = .host (.csrWrite 0x03 v) :: rest ∧ v.getLsbD 9 = true

/-- R33, R34, R35: ID, PARAM0 and PARAM1 hold the parameters and ignore writes. -/
def Obligations.IdentityRegisters : Prop :=
  ∀ s : State, s.params.wf →
    ((s.csr 0x00).extractLsb' 16 16 = 0x4D4D#16 ∧ ((s.csr 0x00).extractLsb' 8 8).toNat = s.w ∧
      (s.csr 0x00).extractLsb' 0 8 = 0x01#8) ∧
    (((s.csr 0x01).extractLsb' 0 16).toNat = s.params.nMax ∧
      ((s.csr 0x01).extractLsb' 16 3).toNat + 1 = s.params.ctxSlots ∧ (s.csr 0x01).extractLsb' 19 13 = 0) ∧
    (s.csr 0x02).toNat = s.params.memWords % 2 ^ 32 ∧
    ∀ v : BitVec 32, s.writeCsr 0x00 v = s ∧ s.writeCsr 0x01 v = s ∧ s.writeCsr 0x02 v = s

/-- What CSR reads return and CSR writes do (10_state.md R37–R39, R46, R49, R50). A read of RESULT, CMD, a descriptor
register or IRQCTL is that register; a written register reads back what it keeps: all 32 bits of the address registers
and IMM, 16 of LENA and LENB, one of IRQCTL; RESULT and the reserved numbers ignore writes, the reserved ones read 0; and
a write to any register but STATUS and CMD changes the reading of no other register, nothing else of the block, and no
model fault. A step of the host that reads or writes a CSR, whether BUSY is 0 or 1, does exactly that (the turns and the
record of reads are the model's own, logs 5 and 6). -/
def Obligations.RegistersReadBackWhatTheyKeep : Prop :=
  (∀ s : State, s.csr 0x04 = s.result ∧ s.csr 0x05 = s.cmd ∧ s.csr 0x06 = s.desc.dst0 ∧ s.csr 0x07 = s.desc.dst1 ∧
    s.csr 0x08 = s.desc.srcA ∧ s.csr 0x09 = s.desc.srcB ∧ s.csr 0x0A = s.desc.srcC ∧ s.csr 0x0B = s.desc.srcD ∧
    (s.csr 0x0C).toNat = s.desc.lenA.toNat ∧ (s.csr 0x0D).toNat = s.desc.lenB.toNat ∧ s.csr 0x0E = s.desc.imm ∧
    s.csr 0x0F = if s.ie then 1#32 else 0#32) ∧
  (∀ (s : State) (v : BitVec 32),
    (∀ k ∈ [0x06, 0x07, 0x08, 0x09, 0x0A, 0x0B, (0x0E : BitVec 8)], (s.writeCsr k v).csr k = v) ∧
    (∀ k ∈ [0x0C, (0x0D : BitVec 8)], (s.writeCsr k v).csr k = v &&& 0x0000FFFF#32) ∧
    (s.writeCsr 0x0F v).csr 0x0F = v &&& 1#32 ∧
    s.writeCsr 0x04 v = s ∧
    (∀ k : BitVec 8, 0x10 ≤ k.toNat → s.writeCsr k v = s ∧ s.csr k = 0) ∧
    ∀ k : BitVec 8, k ≠ 0x03 → k ≠ 0x05 → (∀ j : BitVec 8, j ≠ k → (s.writeCsr k v).csr j = s.csr j) ∧
      { s.writeCsr k v with desc := s.desc, ie := s.ie } = s) ∧
  ∀ (s : State) (k : BitVec 8) (v : BitVec 32) (rest : List Turn), s.modelFaults = [] →
    (s.turns = .host (.csrRead k) :: rest →
      step s = .next { s with turns := rest, hostReads := .csr k (s.csr k) :: s.hostReads }) ∧
    (s.turns = .host (.csrWrite k v) :: rest → step s = .next (State.writeCsr { s with turns := rest } k v))

/-- Host accesses to operand memory while BUSY = 0 (10_state.md R50; the record of reads and the draws are the model's own,
logs 6 and 7; a BUS access changes nothing else, log 8): a write makes the word readable and touches no
other; a read returns an initialised word, and some W-bit value, whatever it is, of an uninitialised one; an access at
or above MEM_WORDS is model fault BUS. -/
def Obligations.HostAccessesOperandMemory : Prop :=
  ∀ (s : State) (a v : Nat) (rest : List Turn), s.modelFaults = [] → s.busy = false →
    (s.turns = .host (.memWrite a v) :: rest →
      (a < s.params.memWords → v < 2 ^ s.w → ∃ m : Memory, step s = .next { s with turns := rest, mem := m } ∧
        m.read a = some v ∧ ∀ b, b ≠ a → m.read b = s.mem.read b) ∧
      (s.params.memWords ≤ a → step s = .next { s with turns := rest, modelFaults := [.bus] })) ∧
    (s.turns = .host (.memRead a) :: rest →
      (a < s.params.memWords → ∀ x, s.mem.read a = some x →
        step s = .next { s with turns := rest, hostReads := .mem a x :: s.hostReads }) ∧
      (a < s.params.memWords → s.mem.read a = none → ∃ x n, x < 2 ^ s.w ∧
        step s = .next { s with turns := rest, hostReads := .mem a x :: s.hostReads, draws := n }) ∧
      (s.params.memWords ≤ a → step s = .next { s with turns := rest, modelFaults := [.bus] }))

/-- R450: while BUSY = 1 a CMD write and an operand-memory access are model fault HOST_HAZARD (that nothing else changes
then, and that BUS may join it, is the model's reading, logs 8 and 9). CSR reads return the registers, RESULT and ERR still
the previous command's. A write of any CSR but CMD takes the effect it has on an idle block: a descriptor register and
IRQCTL read back what they keep, STATUS bit 9 clears DONE; it meets no model fault and changes neither the command the
engine will perform, nor RESULT, ERR, CMD, memory or a slot. (The turns and the record of reads are the model's own, logs
5 and 6.) -/
def Obligations.BusyHazard : Prop :=
  ∀ (s : State) (act : HostAction) (rest : List Turn), s.modelFaults = [] → s.busy = true →
    s.turns = .host act :: rest →
    (∀ v, act = .csrWrite 0x05 v → step s = .next { s with turns := rest, modelFaults := [.hostHazard] }) ∧
    (∀ a v, act = .memRead a ∨ act = .memWrite a v → ∃ ks, step s = .next { s with turns := rest, modelFaults := ks } ∧
      .hostHazard ∈ ks ∧ (a < s.params.memWords → ks = [.hostHazard])) ∧
    (∀ k, act = .csrRead k → step s = .next { s with turns := rest, hostReads := .csr k (s.csr k) :: s.hostReads }) ∧
    ∀ k v, k ≠ 0x05 → act = .csrWrite k v →
      let t := State.writeCsr { s with turns := rest } k v
      step s = .next t ∧ t.modelFaults = [] ∧ t.latch = s.latch ∧ t.operandDesc = s.operandDesc ∧
        t.result = s.result ∧ t.err = s.err ∧ t.cmd = s.cmd ∧ t.mem = s.mem ∧ t.slots = s.slots ∧
        (k ∈ [0x06, 0x07, 0x08, 0x09, 0x0A, 0x0B, (0x0E : BitVec 8)] → t.csr k = v) ∧
        (k ∈ [0x0C, (0x0D : BitVec 8)] → t.csr k = v &&& 0x0000FFFF#32) ∧
        (k = 0x0F → t.csr k = v &&& 1#32) ∧
        (k = 0x03 → t.done = (s.done && !v.getLsbD 9))

/-- R412: IRQ = DONE AND IE; every completion, ABORTED and ILLEGAL included, sets DONE; writing 1 to STATUS bit 9
clears the line, and IE = 0 masks it. -/
def Obligations.InterruptLine : Prop :=
  (∀ s : State, s.irq = (s.done && s.ie)) ∧
    (∀ (i : Instr) (s t : State), s.busy = true → exec i s = .next t → t.busy = false → t.done = true ∧ t.irq = s.ie) ∧
    (∀ s : State, s.rejectIllegal.done = true ∧ s.rejectIllegal.irq = s.ie) ∧
    (∀ (s : State) (v : BitVec 32), v.getLsbD 9 = true → (s.writeCsr 0x03 v).irq = false) ∧
    ∀ (s : State) (v : BitVec 32), v.getLsbD 0 = false → (s.writeCsr 0x0F v).irq = false

/-! ## How commands end -/

/-- (With log 8 on model faults.) Every command, from every state, either completes (BUSY 0, DONE 1, RESULT 0 unless OK, R405, R406) or records one
model fault and changes nothing else; the engine never stops in another way (30_encoding.md R130). -/
def Obligations.EveryCommandCompletesOrRecordsAFault : Prop :=
  ∀ (i : Instr) (s : State), ∃ t, exec i s = .next t ∧
    ((t.busy = false ∧ t.done = true ∧ t.modelFaults = s.modelFaults ∧ (t.err ≠ .ok → t.result = 0#32)) ∨
      ∃ k ∈ [ModelFault.uninit, .aliasing, .selector], t = s.recordFault k)

/-- R407: what a failed command leaves. PARAM and ABORTED (and ILLEGAL) change no word and no slot; NO_INVERSE, RESOURCE
and INVARIANT make every destination word uninitialised and change no other word; a RING_INIT ending with RESOURCE
leaves its slot with VALID = 0 (whatever its other fields: log 25), and no other slot changes. -/
def Obligations.FailedCommandsSpoilTheirDestinations : Prop :=
  (∀ (i : Instr) (s t : State), s.busy = true → exec i s = .next t → t.busy = false →
    (t.err = .param ∨ t.err = .aborted → t.mem = s.mem ∧ t.slots = s.slots) ∧
    (t.err = .noInverse ∨ t.err = .resource ∨ t.err = .invariant →
      ∀ a, t.mem.read a = if (∃ r ∈ destsOf i s, r.base ≤ a ∧ a < r.base + r.len) then none else s.mem.read a) ∧
    (t.err ≠ .ok → (∀ ctx sel, i ≠ .ringInit ctx sel) → t.slots = s.slots) ∧
    ∀ ctx sel, i = .ringInit ctx sel → t.err = .resource →
      ∃ c : Slot, c.valid = false ∧ t.slots = s.slots.set ctx c) ∧
  ∀ s : State, s.rejectIllegal.mem = s.mem ∧ s.rejectIllegal.slots = s.slots

/-- R408: a command that ends with INVARIANT sets FAULTED; while FAULTED = 1 every command and every illegal word
completes with ABORTED and no other effect, host accesses act as otherwise, and only reset clears FAULTED. -/
def Obligations.FaultedBlockAborts : Prop :=
  (∀ (i : Instr) (s t : State), s.busy = true → exec i s = .next t → t.busy = false → t.err = .invariant →
      t.faulted = true) ∧
    (∀ (i : Instr) (s : State), s.faulted = true → exec i s = .next (s.endedWith .aborted)) ∧
    (∀ s : State, s.faulted = true → s.rejectIllegal = s.endedWith .aborted) ∧
    (∀ (s : State) (a : HostAction), a ≠ .csrRead 0x03 →
      State.hostAccess { s with faulted := true } a = { s.hostAccess a with faulted := true }) ∧
    (∀ s t : State, step s = .next t → s.faulted = true → (∀ rest, s.turns ≠ .reset :: rest) → t.faulted = true) ∧
    ∀ (s : State) (rest : List Turn), s.turns = .reset :: rest → ∃ t, step s = .next t ∧ t.faulted = false

/-- R404: no command ends with ILLEGAL, one ends with ABORTED exactly when the block is FAULTED, and INVARIANT is reached
only through RREDUCE on a Montgomery slot (in states that meet the invariant). -/
def Obligations.OnlyRreduceRaisesInvariant : Prop :=
  ∀ (i : Instr) (s t : State), s.Inv → s.busy = true → exec i s = .next t → t.busy = false →
    t.err ≠ .illegal ∧ (t.err = .aborted ↔ s.faulted = true) ∧
      (t.err = .invariant → ∃ ctx sel, i = .rreduce ctx sel ∧ (s.slot ctx).strat = .montgomery)

/-- R403: a command whose scratch does not suffice ends with RESOURCE exactly when it would have passed all its PARAM
checks with enough scratch; with enough scratch (the default parameter) RESOURCE never occurs. -/
def Obligations.ScratchShortageEndsInResource : Prop :=
  State.reset.params.scratchFails = [] ∧
    ∀ (i : Instr) (s t' : State), s.busy = true →
      exec i { s with params := { s.params with scratchFails := [] } } = .next t' → t'.busy = false →
      t'.err ≠ .resource ∧ ∃ t, exec i s = .next t ∧ t.busy = false ∧
        (scratchOk i s = true → t.err = t'.err) ∧
        (scratchOk i s = false → t.err = if t'.err = .aborted ∨ t'.err = .param then t'.err else .resource)

/-- R402: NO_INVERSE is raised only by MODINV_CT, MODINV_VT and RINV, when the element is 0 or shares a factor with p,
and does not set FAULTED. -/
def Obligations.NoInverseOnlyFromInverters : Prop :=
  ∀ (i : Instr) (s t : State), s.Inv → s.busy = true → exec i s = .next t → t.busy = false → t.err = .noInverse →
    t.faulted = false ∧ ∃ ctx sel a, (i = .modinvCt ctx sel ∨ i = .modinvVt ctx sel ∨ i = .rinv ctx sel) ∧
      s.readRange (s.atA (s.slot ctx).n) = some a ∧ Nat.gcd a (s.slot ctx).modulus ≠ 1

/-- Steps 3, 4 and 5 of 30_encoding.md R130: a missing or invalid slot, a length outside its format's limits (R112), or
a range outside memory (20_memory.md R83) ends the command with PARAM and nothing written. -/
def Obligations.StructuralChecksEndInParam : Prop :=
  ∀ (i : Instr) (s : State), s.faulted = false →
    ((formatOf i ∈ [.init, .crd, .r1, .r1r, .r2, .rw, .exp] ∧
        (s.params.ctxSlots ≤ ctxOf i ∨ (formatOf i ≠ .init ∧ (s.slot (ctxOf i)).valid = false))) ∨
      (formatOf i ∈ [.n2r, .n2, .mul, .sqr, .n1, .n1r, .rcp, .div, .init, .swp, .shc, .mx2, .mx4] ∧ ¬s.LenOk s.lenA) ∨
      (formatOf i ∈ [.mul, .div, .exp] ∧ ¬s.LenOk s.lenB) ∨
      (formatOf i = .rw ∧ ¬(1 ≤ s.lenA ∧ s.lenA ≤ 2 * (s.slot (ctxOf i)).n)) ∨
      (formatOf i = .crd ∧ 7 < s.imm) ∨
      ∃ r ∈ sourcesOf i s ++ destsOf i s, ¬r.InMemory s) →
    exec i s = .next (s.endedWith .param)

/-- R131 (with log 8: nothing else changes): with steps 1 to 5 passed, MUL and SQR with DST0 overlapping a source, any other command with a destination
that overlaps a source without being identical to it, and DIVMOD with overlapping destinations, take model fault ALIAS;
no other command does (two sources may overlap freely). -/
def Obligations.ForbiddenOverlapsAreAliasFaults : Prop :=
  ∀ (i : Instr) (s : State), s.faulted = false → slotOk i s = true → lengthsOk i s = true → rangesOk i s = true →
    let forbidden :=
      (formatOf i ∈ [.mul, .sqr] ∧ ∃ d ∈ destsOf i s, ∃ r ∈ sourcesOf i s, ¬d.Apart r) ∨
      (formatOf i ∉ [.mul, .sqr] ∧ ∃ d ∈ destsOf i s, ∃ r ∈ sourcesOf i s, d ≠ r ∧ ¬d.Apart r) ∨
      (formatOf i = .div ∧ ¬(s.atDst0 s.lenA).Apart (s.atDst1 s.lenB))
    (forbidden → exec i s = .next (s.recordFault .aliasing)) ∧
    (¬forbidden → .aliasing ∉ s.modelFaults → exec i s ≠ .next (s.recordFault .aliasing))

/-- R452 (with log 8: nothing else changes): with steps 1 to 6 passed, a selector of 2 or 3 on BITSET, CT_SEL, CSWAP, CNEG, CSHR or MUX2 is model fault
SELECTOR. -/
def Obligations.BadSelectorsAreSelectorFaults : Prop :=
  ∀ (ctx sel : Nat) (s : State) (i : Instr), sel = 2 ∨ sel = 3 →
    i ∈ [.bitset ctx sel, .ctSel ctx sel, .cswap ctx sel, .cneg ctx sel, .cshr ctx sel, .mux2 ctx sel] →
    s.faulted = false → slotOk i s = true → lengthsOk i s = true → rangesOk i s = true → aliasOk i s = true →
    exec i s = .next (s.recordFault .selector)

/-- R84 (with log 8: nothing else changes): with steps 1 to 7 passed, one uninitialised word in any source range is model fault UNINIT, whatever the
command and its other operands. -/
def Obligations.UninitialisedSourcesAreUninitFaults : Prop :=
  ∀ (i : Instr) (s : State) (r : Range) (a : Nat), s.faulted = false → slotOk i s = true → lengthsOk i s = true →
    rangesOk i s = true → aliasOk i s = true → selectorOk i = true →
    r ∈ sourcesOf i s → r.base ≤ a → a < r.base + r.len → s.mem.read a = none →
    exec i s = .next (s.recordFault .uninit)

/-- R48: the model-fault record is empty at reset and never loses a kind, the host cannot read it; and once it holds a
kind no agent takes a further step (R411). -/
def Obligations.ModelFaultsAreStickyAndStop : Prop :=
  State.reset.modelFaults = [] ∧
    (∀ s t : State, step s = .next t → ∀ k ∈ s.modelFaults, k ∈ t.modelFaults) ∧
    (∀ (s : State) (ks : List ModelFault) (k : BitVec 8), State.csr { s with modelFaults := ks } k = s.csr k) ∧
    ∀ s : State, s.modelFaults ≠ [] → (∀ rest, s.turns ≠ .reset :: rest) →
      step s = .fault (.modelFault s.modelFaults)

/-- The whole procedure of 30_encoding.md R130 for ADD (model faults as log 8), in the order of R413: ABORTED, PARAM, ALIAS, UNINIT, RESOURCE, OK. -/
def Obligations.AddFollowsTheCommonProcedure : Prop :=
  ∀ (ctx sel : Nat) (s : State),
    let A := s.atA s.lenA
    let B := s.atB s.lenA
    let D := s.atDst0 s.lenA
    exec (.add ctx sel) s = .next (
      if s.faulted = true then s.endedWith .aborted
      else if ¬s.LenOk s.lenA ∨ ¬A.InMemory s ∨ ¬B.InMemory s ∨ ¬D.InMemory s then s.endedWith .param
      else if ¬(D = A ∨ D.Apart A) ∨ ¬(D = B ∨ D.Apart B) then s.recordFault .aliasing
      else
        match s.readRange A, s.readRange B with
        | some a, some b =>
          if scratchOk (.add ctx sel) s = true then
            s.okWith (BitVec.ofNat 32 ((a + b) / 2 ^ (s.w * s.lenA))) (s.put D ((a + b) % 2 ^ (s.w * s.lenA)))
          else s.spoiledWith .resource [D]
        | _, _ => s.recordFault .uninit)

/-! ## What commands leave unchanged -/

/-- The commands that return a flag or a count (30_encoding.md R112, formats N2R, N1R, R1R) change no word, no slot,
no descriptor and not FAULTED, however they end. -/
def Obligations.ResultCommandsWriteNoMemory : Prop :=
  ∀ (i : Instr) (s t : State) (ctx sel : Nat),
    i ∈ [.cmp ctx sel, .bittest ctx sel, .iszero ctx sel, .clz ctx sel, .ctz ctx sel, .risone ctx sel] →
    exec i s = .next t →
    (∀ a, t.mem.read a = s.mem.read a) ∧ t.slots = s.slots ∧ t.faulted = s.faulted ∧ SameOutside s t

/-- Every storing command writes no word outside the destination ranges of its format, computed as the command computes
them (R85), no slot, no descriptor, and no FAULTED bit but RREDUCE's; however it ends. -/
def Obligations.StoringCommandsWriteOnlyTheirDestinations : Prop :=
  ∀ (i : Instr) (s t : State) (ctx sel : Nat),
    i ∈ [.add ctx sel, .sub ctx sel, .absdiff ctx sel, .mul ctx sel, .sqr ctx sel, .shl ctx sel, .shr ctx sel,
      .bitset ctx sel, .recip ctx sel, .divmod ctx sel, .ctxRd ctx sel, .modred ctx sel, .modadd ctx sel,
      .modsub ctx sel, .modhalf ctx sel, .modinvCt ctx sel, .modinvVt ctx sel, .rmul ctx sel, .rsqr ctx sel,
      .rreduce ctx sel, .rinv ctx sel, .rto ctx sel, .rfrom ctx sel, .ctEq ctx sel, .ctLt ctx sel, .ctGt ctx sel,
      .ctSel ctx sel, .cswap ctx sel, .cneg ctx sel, .cshr ctx sel, .mux2 ctx sel, .mux4 ctx sel, .expLadder ctx sel,
      .expFast ctx sel, .expSsma ctx sel] →
    exec i s = .next t →
    (∀ a, Outside (destsOf i s) a → t.mem.read a = s.mem.read a) ∧ t.slots = s.slots ∧ SameOutside s t ∧
      (t.faulted = s.faulted ∨ t.err = .invariant)

/-- RING_INIT changes no word of memory, no slot but its own, no descriptor and not FAULTED, however it ends. -/
def Obligations.RingInitWritesOnlyItsSlot : Prop :=
  ∀ (ctx sel : Nat) (s t : State), exec (.ringInit ctx sel) s = .next t →
    (∀ a, t.mem.read a = s.mem.read a) ∧ t.slots.length = s.slots.length ∧
      (∀ c, c ≠ ctx → t.slots[c]? = s.slots[c]?) ∧ t.faulted = s.faulted ∧ SameOutside s t

/-- A command reads its source ranges and no other word (R85): a memory that agrees with the state's on the source words
gives the same completion, and the same destination words when that is OK. -/
def Obligations.CommandsReadOnlyTheirSources : Prop :=
  ∀ (i : Instr) (s t : State) (m : Memory), s.busy = true →
    (∀ r ∈ sourcesOf i s, ∀ a, r.base ≤ a → a < r.base + r.len → m.read a = s.mem.read a) → exec i s = .next t →
    ∃ t', exec i { s with mem := m } = .next t' ∧ { t' with mem := t.mem } = t ∧
      (t.busy = false → t.err = .ok →
        ∀ r ∈ destsOf i s, ∀ a, r.base ≤ a → a < r.base + r.len → t'.mem.read a = t.mem.read a) ∧
      ∀ a, m.read a = s.mem.read a → t'.mem.read a = t.mem.read a

/-- Ring-context slots change only by RING_INIT (10_state.md R40; 20_memory.md R94) and by reset: a step that changes them
is the reset input's, or the engine's turn (first, or none left, log 5) with a RING_INIT latched, and it is exec of that
RING_INIT. -/
def Obligations.SlotsChangeOnlyByRingInit : Prop :=
  ∀ s t : State, step s = .next t → t.slots ≠ s.slots →
    (∃ rest, s.turns = .reset :: rest) ∨
      ∃ rest l ctx sel, (s.turns = .engine :: rest ∨ (s.turns = [] ∧ rest = [])) ∧ s.latch = some l ∧
        decode l.cmd = .ok (.ringInit ctx sel) ∧ exec (.ringInit ctx sel) { s with turns := rest } = .next t

/-- MemWrite and MemRead (00_scope.md R15; 20_memory.md R80): limb i of the value goes to word base + i, words outside
the range keep their values, reading the range back gives the value, and the value of a range is the sum of its words
times 2^(W·i). -/
def Obligations.MemoryIsLittleEndian : Prop :=
  ∀ (s : State) (r : Range) (v : Nat),
    (v < 2 ^ (s.w * r.len) →
      (∀ i, i < r.len → (s.put r v).read (r.base + i) = some (v / 2 ^ (s.w * i) % 2 ^ s.w)) ∧
      (∀ a, a < r.base ∨ r.base + r.len ≤ a → (s.put r v).read a = s.mem.read a) ∧
      State.readRange { s with mem := s.put r v } r = some v) ∧
    (s.readRange r = some v →
      v = ((List.range r.len).map fun i => (s.mem.read (r.base + i)).getD 0 * 2 ^ (s.w * i)).sum ∧
        ∀ i, i < r.len → (s.mem.read (r.base + i)).isSome = true)

/-! ## Reset and the invariant -/

/-- R440: the reset input puts the block into the reset state whatever it was doing, the model-fault record unchanged;
the same state holds at power-up. -/
def Obligations.ResetState : Prop :=
  (∀ (s : State) (rest : List Turn), s.turns = .reset :: rest → ∃ t, step s = .next t ∧ t.AtReset ∧
      t.modelFaults = s.modelFaults ∧ t.params = s.params) ∧
    State.reset.AtReset

/-- The invariant (slots as 10_state.md R41 says, a canonical memory of W-bit words) holds right after reset, for every
legal configuration. -/
def Obligations.ResetMeetsTheInvariant : Prop :=
  State.reset.Inv ∧ ∀ p : Params, p.wf → (State.resetWith p).Inv

/-- Every step keeps the invariant: RING_INIT establishes R41 on its slot and no other step breaks it, memory keeps its
canonical form and its words stay inside MEM_WORDS and below 2^W (10_state.md R41, R43). -/
def Obligations.StepKeepsTheInvariant : Prop :=
  ∀ s t : State, s.Inv → step s = .next t → t.Inv

/-! ## Results: big-integer kernel -/

/-- R200, R211, R212, R213: three-way compare, zero test, leading and trailing zero counts. -/
def Obligations.CompareAndCountResults : Prop :=
  ∀ (ctx sel : Nat) (s : State) (a b : Nat), s.Inv → s.LenOk s.lenA →
    (Ready (.cmp ctx sel) s [(s.atA s.lenA, a), (s.atB s.lenA, b)] [] →
      exec (.cmp ctx sel) s =
        .next (s.okWith (if a > b then 0x00000001#32 else if a < b then 0xFFFFFFFF#32 else 0x00000000#32) s.mem)) ∧
    (Ready (.iszero ctx sel) s [(s.atA s.lenA, a)] [] →
      exec (.iszero ctx sel) s = .next (s.okWith (if a = 0 then 1#32 else 0#32) s.mem)) ∧
    (Ready (.clz ctx sel) s [(s.atA s.lenA, a)] [] → ∃ n, (a = 0 → n = s.w * s.lenA) ∧
      (a ≠ 0 → n < s.w * s.lenA ∧ 2 ^ (s.w * s.lenA - 1 - n) ≤ a ∧ a < 2 ^ (s.w * s.lenA - n)) ∧ n < 2 ^ 32 ∧
      exec (.clz ctx sel) s = .next (s.okWith (BitVec.ofNat 32 n) s.mem)) ∧
    (Ready (.ctz ctx sel) s [(s.atA s.lenA, a)] [] → ∃ n, (a = 0 → n = s.w * s.lenA) ∧
      (a ≠ 0 → 2 ^ n ∣ a ∧ ¬2 ^ (n + 1) ∣ a) ∧ n < 2 ^ 32 ∧
      exec (.ctz ctx sel) s = .next (s.okWith (BitVec.ofNat 32 n) s.mem))

/-- R201, R202, R203: sum with carry-out, difference with borrow-out, absolute difference with which operand was
larger. -/
def Obligations.AddAndSubtractResults : Prop :=
  ∀ (ctx sel : Nat) (s : State) (a b : Nat), s.Inv → s.LenOk s.lenA →
    (Ready (.add ctx sel) s [(s.atA s.lenA, a), (s.atB s.lenA, b)] [s.atDst0 s.lenA] →
      exec (.add ctx sel) s =
        .next (s.okWith (BitVec.ofNat 32 ((a + b) / 2 ^ (s.w * s.lenA)))
          (s.put (s.atDst0 s.lenA) ((a + b) % 2 ^ (s.w * s.lenA)))) ∧
      ((a + b) / 2 ^ (s.w * s.lenA) = 0 ∨ (a + b) / 2 ^ (s.w * s.lenA) = 1)) ∧
    (Ready (.sub ctx sel) s [(s.atA s.lenA, a), (s.atB s.lenA, b)] [s.atDst0 s.lenA] →
      exec (.sub ctx sel) s =
        .next (s.okWith (if a < b then 1#32 else 0#32)
          (s.put (s.atDst0 s.lenA) (((a : Int) - (b : Int)) % (2 ^ (s.w * s.lenA) : Int)).toNat))) ∧
    (Ready (.absdiff ctx sel) s [(s.atA s.lenA, a), (s.atB s.lenA, b)] [s.atDst0 s.lenA] →
      exec (.absdiff ctx sel) s =
        .next (s.okWith (if a < b then 1#32 else 0#32)
          (s.put (s.atDst0 s.lenA) ((a : Int) - (b : Int)).natAbs)))

/-- R204, R205: the exact product in LENA+LENB limbs and the exact square in 2·LENA limbs, DST0 apart from the sources;
SRCA and SRCB may overlap. -/
def Obligations.MultiplyAndSquareResults : Prop :=
  ∀ (ctx sel : Nat) (s : State) (a b : Nat), s.LenOk s.lenA →
    (s.LenOk s.lenB → (s.atDst0 (s.lenA + s.lenB)).Apart (s.atA s.lenA) →
      (s.atDst0 (s.lenA + s.lenB)).Apart (s.atB s.lenB) →
      Ready (.mul ctx sel) s [(s.atA s.lenA, a), (s.atB s.lenB, b)] [s.atDst0 (s.lenA + s.lenB)] →
      exec (.mul ctx sel) s = .next (s.okWith 0#32 (s.put (s.atDst0 (s.lenA + s.lenB)) (a * b)))) ∧
    ((s.atDst0 (2 * s.lenA)).Apart (s.atA s.lenA) →
      Ready (.sqr ctx sel) s [(s.atA s.lenA, a)] [s.atDst0 (2 * s.lenA)] →
      exec (.sqr ctx sel) s = .next (s.okWith 0#32 (s.put (s.atDst0 (2 * s.lenA)) (a ^ 2))))

/-- R206, R207: logical shifts by any 32-bit count; bits moved past either end are discarded. -/
def Obligations.ShiftResults : Prop :=
  ∀ (ctx sel : Nat) (s : State) (a : Nat), s.Inv → s.LenOk s.lenA →
    (Ready (.shl ctx sel) s [(s.atA s.lenA, a)] [s.atDst0 s.lenA] →
      exec (.shl ctx sel) s =
        .next (s.okWith 0#32 (s.put (s.atDst0 s.lenA) (a * 2 ^ s.imm % 2 ^ (s.w * s.lenA))))) ∧
    (Ready (.shr ctx sel) s [(s.atA s.lenA, a)] [s.atDst0 s.lenA] →
      exec (.shr ctx sel) s = .next (s.okWith 0#32 (s.put (s.atDst0 s.lenA) (a / 2 ^ s.imm))))

/-- R208, R209: reading and writing one bit; PARAM for an index outside the operand, nothing written. -/
def Obligations.BitResults : Prop :=
  ∀ (ctx sel : Nat) (s : State) (a : Nat), s.LenOk s.lenA →
    (Ready (.bittest ctx sel) s [(s.atA s.lenA, a)] [] →
      (s.imm < s.w * s.lenA →
        exec (.bittest ctx sel) s = .next (s.okWith (if a.testBit s.imm then 1#32 else 0#32) s.mem)) ∧
      (s.w * s.lenA ≤ s.imm → exec (.bittest ctx sel) s = .next (s.endedWith .param))) ∧
    (sel = 0 ∨ sel = 1 → Ready (.bitset ctx sel) s [(s.atA s.lenA, a)] [s.atDst0 s.lenA] →
      (s.imm < s.w * s.lenA → ∃ r, (∀ j, r.testBit j = if j = s.imm then decide (sel = 1) else a.testBit j) ∧
        exec (.bitset ctx sel) s = .next (s.okWith 0#32 (s.put (s.atDst0 s.lenA) r))) ∧
      (s.w * s.lenA ≤ s.imm → exec (.bitset ctx sel) s = .next (s.endedWith .param)))

/-! ## Results: reciprocal and divider -/

/-- R251 (with R250), R252: the reciprocal ⌊2^(2b)/d⌋, b = bitlen(d), and Euclidean division; PARAM for a zero divisor. -/
def Obligations.ReciprocalAndDivisionResults : Prop :=
  ∀ (ctx sel : Nat) (s : State) (a d : Nat), s.LenOk s.lenA →
    (Ready (.recip ctx sel) s [(s.atA s.lenA, d)] [s.atDst0 (s.lenA + 1)] →
      (d ≠ 0 → ∃ b, 2 ^ (b - 1) ≤ d ∧ d < 2 ^ b ∧
        exec (.recip ctx sel) s = .next (s.okWith 0#32 (s.put (s.atDst0 (s.lenA + 1)) (2 ^ (2 * b) / d)))) ∧
      (d = 0 → exec (.recip ctx sel) s = .next (s.endedWith .param))) ∧
    (s.LenOk s.lenB → (s.atDst0 s.lenA).Apart (s.atDst1 s.lenB) →
      Ready (.divmod ctx sel) s [(s.atA s.lenA, a), (s.atB s.lenB, d)] [s.atDst0 s.lenA, s.atDst1 s.lenB] →
      (d ≠ 0 → ∃ q r, a = q * d + r ∧ r < d ∧ exec (.divmod ctx sel) s =
        .next (s.okWith 0#32
          (Memory.writeLimbs s.w (s.put (s.atDst0 s.lenA) q) (s.atDst1 s.lenB).base s.lenB r))) ∧
      (d = 0 → exec (.divmod ctx sel) s = .next (s.endedWith .param)))

/-! ## Results: ring contexts -/

/-- R270: RING_INIT builds the slot as R41 describes it, for a strategy of 0 or 1, a nonzero top limb, p ≥ 2, and an odd
p for Montgomery; otherwise PARAM, the slot exactly as it was. -/
def Obligations.RingInitResults : Prop :=
  ∀ (ctx sel : Nat) (s : State) (p : Nat), s.Inv → ctx < s.params.ctxSlots → s.LenOk s.lenA →
    Ready (.ringInit ctx sel) s [(s.atA s.lenA, p)] [] →
    let accepted :=
      (s.imm = 0 ∨ s.imm = 1) ∧ 2 ^ (s.w * (s.lenA - 1)) ≤ p ∧ 2 ≤ p ∧ (s.imm = 1 → p % 2 = 1)
    (accepted → ∃ c : Slot, c.valid = true ∧ c.strat = (if s.imm = 1 then .montgomery else .plain) ∧ c.n = s.lenA ∧
      c.modulus = p ∧ c.wellBuilt s.params ∧
      exec (.ringInit ctx sel) s = .next { s.okWith 0#32 s.mem with slots := s.slots.set ctx c }) ∧
    (¬accepted → exec (.ringInit ctx sel) s = .next (s.endedWith .param))

/-- R271: CTX_RD exports the field IMM names, in its length; PARAM for a Montgomery field of a plain slot and for a
field number above 7. -/
def Obligations.CtxRdResults : Prop :=
  ∀ (ctx sel : Nat) (s : State), s.SlotReady ctx →
    (∀ f len v,
      (f, len, v) ∈ [(0, (s.slot ctx).n, (s.slot ctx).modulus), (1, (s.slot ctx).n + 1, (s.slot ctx).recip),
        (2, 1, (s.slot ctx).n0inv), (3, (s.slot ctx).n, (s.slot ctx).rone), (4, (s.slot ctx).n, (s.slot ctx).rr),
        (5, 1, (s.slot ctx).n), (6, 1, (s.slot ctx).bitlen),
        (7, 1, if (s.slot ctx).strat = .montgomery then 1 else 0)] →
      s.imm = f → Ready (.ctxRd ctx sel) s [] [s.atDst0 len] →
      exec (.ctxRd ctx sel) s =
        .next (if f ∈ [2, 3, 4] ∧ (s.slot ctx).strat = .plain then s.endedWith .param
          else s.okWith 0#32 (s.put (s.atDst0 len) v))) ∧
    (s.faulted = false → 7 < s.imm → exec (.ctxRd ctx sel) s = .next (s.endedWith .param))

/-- R273: MODRED writes t mod p for any t of 1 to 2n limbs, on a slot of either strategy. -/
def Obligations.ModredResults : Prop :=
  ∀ (ctx sel : Nat) (s : State) (t : Nat), s.SlotReady ctx → 1 ≤ s.lenA → s.lenA ≤ 2 * (s.slot ctx).n →
    Ready (.modred ctx sel) s [(s.atA s.lenA, t)] [s.atDst0 (s.slot ctx).n] →
    exec (.modred ctx sel) s =
      .next (s.okWith 0#32 (s.put (s.atDst0 (s.slot ctx).n) (t % (s.slot ctx).modulus)))

/-- R274, R275, R276: modular sum, difference and half of reduced inputs; PARAM for an input ≥ p, and for the half of an
even modulus. -/
def Obligations.ModularAddSubtractHalveResults : Prop :=
  ∀ (ctx sel : Nat) (s : State) (a b : Nat), s.SlotReady ctx →
    let n := (s.slot ctx).n
    let p := (s.slot ctx).modulus
    (Ready (.modadd ctx sel) s [(s.atA n, a), (s.atB n, b)] [s.atDst0 n] →
      exec (.modadd ctx sel) s =
        .next (if a < p ∧ b < p then s.okWith 0#32 (s.put (s.atDst0 n) ((a + b) % p)) else s.endedWith .param)) ∧
    (Ready (.modsub ctx sel) s [(s.atA n, a), (s.atB n, b)] [s.atDst0 n] →
      exec (.modsub ctx sel) s =
        .next (if a < p ∧ b < p then s.okWith 0#32 (s.put (s.atDst0 n) (((a : Int) - (b : Int)) % (p : Int)).toNat)
          else s.endedWith .param)) ∧
    (Ready (.modhalf ctx sel) s [(s.atA n, a)] [s.atDst0 n] →
      (p % 2 = 1 → a < p → ∃ v, v < p ∧ 2 * v % p = a ∧
        exec (.modhalf ctx sel) s = .next (s.okWith 0#32 (s.put (s.atDst0 n) v))) ∧
      (p % 2 = 0 ∨ p ≤ a → exec (.modhalf ctx sel) s = .next (s.endedWith .param)))

/-- R277, R278: both inverters write the v < p with a·v ≡ 1 (mod p) of the plain integer a, whatever the strategy;
NO_INVERSE, the destination spoilt, when a and p share a factor; PARAM for an even modulus or a ≥ p. -/
def Obligations.InverterResults : Prop :=
  ∀ (ctx sel : Nat) (s : State) (a : Nat) (i : Instr), s.SlotReady ctx →
    i ∈ [.modinvCt ctx sel, .modinvVt ctx sel] →
    Ready i s [(s.atA (s.slot ctx).n, a)] [s.atDst0 (s.slot ctx).n] →
    let p := (s.slot ctx).modulus
    (p % 2 = 1 → a < p → Nat.gcd a p = 1 → ∃ v, v < p ∧ a * v % p = 1 ∧
      exec i s = .next (s.okWith 0#32 (s.put (s.atDst0 (s.slot ctx).n) v))) ∧
    (p % 2 = 1 → a < p → Nat.gcd a p ≠ 1 →
      exec i s = .next (s.spoiledWith .noInverse [s.atDst0 (s.slot ctx).n])) ∧
    (p % 2 = 0 ∨ p ≤ a → exec i s = .next (s.endedWith .param))

/-- R291, R292: the ring product and square: a·b mod p on a plain slot, the v < p with v·R ≡ a·b (mod p) on a Montgomery
slot; PARAM for an input ≥ p. -/
def Obligations.RingMultiplyAndSquareResults : Prop :=
  ∀ (ctx sel : Nat) (s : State) (a b : Nat), s.SlotReady ctx →
    let n := (s.slot ctx).n
    let p := (s.slot ctx).modulus
    (Ready (.rmul ctx sel) s [(s.atA n, a), (s.atB n, b)] [s.atDst0 n] →
      (a < p → b < p → ∃ v, v < p ∧ ((s.slot ctx).strat = .plain → v = a * b % p) ∧
        ((s.slot ctx).strat = .montgomery → v * 2 ^ (s.w * n) % p = a * b % p) ∧
        exec (.rmul ctx sel) s = .next (s.okWith 0#32 (s.put (s.atDst0 n) v))) ∧
      (p ≤ a ∨ p ≤ b → exec (.rmul ctx sel) s = .next (s.endedWith .param))) ∧
    (Ready (.rsqr ctx sel) s [(s.atA n, a)] [s.atDst0 n] →
      (a < p → ∃ v, v < p ∧ ((s.slot ctx).strat = .plain → v = a * a % p) ∧
        ((s.slot ctx).strat = .montgomery → v * 2 ^ (s.w * n) % p = a * a % p) ∧
        exec (.rsqr ctx sel) s = .next (s.okWith 0#32 (s.put (s.atDst0 n) v))) ∧
      (p ≤ a → exec (.rsqr ctx sel) s = .next (s.endedWith .param)))

/-- R293 (with R325): RREDUCE writes t mod p on a plain slot; on a Montgomery slot, m < R being REDC's multiplier
(R divides t + m·p), it writes ((t + m·p)/R) reduced by at most one subtraction of p when (t + m·p)/R < 2p, and otherwise
ends with INVARIANT, the destination spoilt and FAULTED set; t < p·R never does. -/
def Obligations.RreduceResults : Prop :=
  ∀ (ctx sel : Nat) (s : State) (t : Nat), s.Inv → s.SlotReady ctx → 1 ≤ s.lenA → s.lenA ≤ 2 * (s.slot ctx).n →
    Ready (.rreduce ctx sel) s [(s.atA s.lenA, t)] [s.atDst0 (s.slot ctx).n] →
    let n := (s.slot ctx).n
    let p := (s.slot ctx).modulus
    let R := 2 ^ (s.w * n)
    ((s.slot ctx).strat = .plain →
      exec (.rreduce ctx sel) s = .next (s.okWith 0#32 (s.put (s.atDst0 n) (t % p)))) ∧
    ((s.slot ctx).strat = .montgomery → ∃ m, m < R ∧ (t + m * p) % R = 0 ∧ (t < p * R → (t + m * p) / R < 2 * p) ∧
      ((t + m * p) / R < p →
        exec (.rreduce ctx sel) s = .next (s.okWith 0#32 (s.put (s.atDst0 n) ((t + m * p) / R)))) ∧
      (p ≤ (t + m * p) / R → (t + m * p) / R < 2 * p →
        exec (.rreduce ctx sel) s = .next (s.okWith 0#32 (s.put (s.atDst0 n) ((t + m * p) / R - p)))) ∧
      (2 * p ≤ (t + m * p) / R →
        exec (.rreduce ctx sel) s = .next { s.spoiledWith .invariant [s.atDst0 n] with faulted := true }))

/-- R294 (with R329): the ring inverse: a·v ≡ 1 on a plain slot, a·v ≡ R² (mod p) on a Montgomery slot; NO_INVERSE when
a and p share a factor; PARAM for an even modulus or a ≥ p. -/
def Obligations.RingInverseResults : Prop :=
  ∀ (ctx sel : Nat) (s : State) (a : Nat), s.SlotReady ctx →
    Ready (.rinv ctx sel) s [(s.atA (s.slot ctx).n, a)] [s.atDst0 (s.slot ctx).n] →
    let n := (s.slot ctx).n
    let p := (s.slot ctx).modulus
    (p % 2 = 1 → a < p → Nat.gcd a p = 1 → ∃ v, v < p ∧ ((s.slot ctx).strat = .plain → a * v % p = 1) ∧
      ((s.slot ctx).strat = .montgomery → a * v % p = (2 ^ (s.w * n)) ^ 2 % p) ∧
      exec (.rinv ctx sel) s = .next (s.okWith 0#32 (s.put (s.atDst0 n) v))) ∧
    (p % 2 = 1 → a < p → Nat.gcd a p ≠ 1 → exec (.rinv ctx sel) s = .next (s.spoiledWith .noInverse [s.atDst0 n])) ∧
    (p % 2 = 0 ∨ p ≤ a → exec (.rinv ctx sel) s = .next (s.endedWith .param))

/-- R295, R296 (with R327, R328): conversion into the ring is x·R mod p and out of it the v < p with v·R ≡ y (mod p) on a
Montgomery slot, and a copy on a plain slot; PARAM for an input ≥ p. -/
def Obligations.RingConversionResults : Prop :=
  ∀ (ctx sel : Nat) (s : State) (x : Nat), s.SlotReady ctx →
    let n := (s.slot ctx).n
    let p := (s.slot ctx).modulus
    (Ready (.rto ctx sel) s [(s.atA n, x)] [s.atDst0 n] →
      exec (.rto ctx sel) s =
        .next (if x < p then
            s.okWith 0#32
              (s.put (s.atDst0 n) (if (s.slot ctx).strat = .plain then x else x * 2 ^ (s.w * n) % p))
          else s.endedWith .param)) ∧
    (Ready (.rfrom ctx sel) s [(s.atA n, x)] [s.atDst0 n] →
      (x < p → ∃ v, v < p ∧ ((s.slot ctx).strat = .plain → v = x) ∧
        ((s.slot ctx).strat = .montgomery → v * 2 ^ (s.w * n) % p = x) ∧
        exec (.rfrom ctx sel) s = .next (s.okWith 0#32 (s.put (s.atDst0 n) v))) ∧
      (p ≤ x → exec (.rfrom ctx sel) s = .next (s.endedWith .param)))

/-- R297: RISONE tests for the ring identity, 1 on a plain slot and R mod p on a Montgomery slot; PARAM for a ≥ p. -/
def Obligations.RingIdentityTest : Prop :=
  ∀ (ctx sel : Nat) (s : State) (a : Nat), s.SlotReady ctx →
    Ready (.risone ctx sel) s [(s.atA (s.slot ctx).n, a)] [] →
    let p := (s.slot ctx).modulus
    let one := if (s.slot ctx).strat = .plain then 1 else 2 ^ (s.w * (s.slot ctx).n) % p
    exec (.risone ctx sel) s =
      .next (if a < p then s.okWith (if a = one then 1#32 else 0#32) s.mem else s.endedWith .param)

/-- R280: every ring element input must be below p: a command of format R1, R1R, R2, or an exponentiation's base, given
one ≥ p ends with PARAM; and a ring command that completes with OK writes a value below p. -/
def Obligations.RingElementsStayBelowTheModulus : Prop :=
  ∀ (i : Instr) (s : State), s.SlotReady (ctxOf i) → s.faulted = false → lengthsOk i s = true → rangesOk i s = true → aliasOk i s = true →
    let n := (s.slot (ctxOf i)).n
    let p := (s.slot (ctxOf i)).modulus
    (formatOf i ∈ [.r1, .r1r, .r2, .exp] → ∀ vs, s.readRanges (sourcesOf i s) = some vs →
      (p ≤ vs.getD 0 0 ∨ (formatOf i = .r2 ∧ p ≤ vs.getD 1 0)) → exec i s = .next (s.endedWith .param)) ∧
    (formatOf i ∈ [.r1, .r2, .rw, .exp] → s.busy = true → ∀ t, exec i s = .next t → t.busy = false → t.err = .ok →
      ∃ v, v < p ∧ t.readRange (s.atDst0 n) = some v)

/-! ## Results: branch-free conditional primitives -/

/-- R350, R351, R352: the word comparisons write the all-ones or all-zero mask and return 1 exactly for all ones. -/
def Obligations.MaskResults : Prop :=
  ∀ (ctx sel : Nat) (s : State) (a b : Nat) (i : Instr) (holds : Prop),
    ((i = .ctEq ctx sel ∧ (holds ↔ a = b)) ∨ (i = .ctLt ctx sel ∧ (holds ↔ a < b)) ∨
      (i = .ctGt ctx sel ∧ (holds ↔ a > b))) →
    Ready i s [(s.atA 1, a), (s.atB 1, b)] [s.atDst0 1] →
    (holds → exec i s = .next (s.okWith 1#32 (s.put (s.atDst0 1) (2 ^ s.w - 1)))) ∧
    (¬holds → exec i s = .next (s.okWith 0#32 (s.put (s.atDst0 1) 0)))

/-- R353, R357, R358: word select, two-way and four-way multiplex; s = 1 takes the first operand. -/
def Obligations.SelectResults : Prop :=
  ∀ (ctx sel : Nat) (s : State) (v0 v1 v2 v3 : Nat),
    (sel = 0 ∨ sel = 1 → Ready (.ctSel ctx sel) s [(s.atA 1, v0), (s.atB 1, v1)] [s.atDst0 1] →
      exec (.ctSel ctx sel) s = .next (s.okWith 0#32 (s.put (s.atDst0 1) (if sel = 1 then v0 else v1)))) ∧
    (s.LenOk s.lenA →
      (sel = 0 ∨ sel = 1 →
        Ready (.mux2 ctx sel) s [(s.atA s.lenA, v0), (s.atB s.lenA, v1)] [s.atDst0 s.lenA] →
        exec (.mux2 ctx sel) s =
          .next (s.okWith 0#32 (s.put (s.atDst0 s.lenA) (if sel = 1 then v0 else v1)))) ∧
      (∀ v, [v0, v1, v2, v3][sel]? = some v →
        Ready (.mux4 ctx sel) s
          [(s.atA s.lenA, v0), (s.atB s.lenA, v1), (s.atC s.lenA, v2), (s.atD s.lenA, v3)] [s.atDst0 s.lenA] →
        exec (.mux4 ctx sel) s = .next (s.okWith 0#32 (s.put (s.atDst0 s.lenA) v))))

/-- R354: both ranges are rewritten in place, swapped when s = 1. The ranges are apart or identical; after the swap each
reads as the other did. -/
def Obligations.ConditionalSwapResults : Prop :=
  ∀ (ctx sel : Nat) (s : State) (x y : Nat), s.Inv → s.LenOk s.lenA → sel = 0 ∨ sel = 1 →
    Ready (.cswap ctx sel) s [(s.atA s.lenA, x), (s.atB s.lenA, y)] [s.atA s.lenA, s.atB s.lenA] →
    ∃ t, exec (.cswap ctx sel) s = .next t ∧ t.err = .ok ∧ t.result = 0#32 ∧ t.busy = false ∧ t.done = true ∧
      t.readRange (s.atA s.lenA) = some (if sel = 1 then y else x) ∧
      t.readRange (s.atB s.lenA) = some (if sel = 1 then x else y) ∧
      ∀ a, Outside [s.atA s.lenA, s.atB s.lenA] a → t.mem.read a = s.mem.read a

/-- R355, R356: two's-complement negation over the operand width, and the shift right whose top bits are the low k bits
of the carry word; a copy when s = 0; PARAM for a shift count ≥ W. -/
def Obligations.NegateAndShiftResults : Prop :=
  ∀ (ctx sel : Nat) (s : State) (a c : Nat), s.LenOk s.lenA → sel = 0 ∨ sel = 1 →
    (Ready (.cneg ctx sel) s [(s.atA s.lenA, a)] [s.atDst0 s.lenA] →
      exec (.cneg ctx sel) s =
        .next (s.okWith 0#32 (s.put (s.atDst0 s.lenA)
          (if sel = 1 then (2 ^ (s.w * s.lenA) - a) % 2 ^ (s.w * s.lenA) else a)))) ∧
    (Ready (.cshr ctx sel) s [(s.atA s.lenA, a), (s.atB 1, c)] [s.atDst0 s.lenA] →
      (s.imm < s.w →
        exec (.cshr ctx sel) s =
          .next (s.okWith 0#32 (s.put (s.atDst0 s.lenA)
            (if sel = 1 then a / 2 ^ s.imm + c % 2 ^ s.imm * 2 ^ (s.w * s.lenA - s.imm) else a)))) ∧
      (s.w ≤ s.imm → exec (.cshr ctx sel) s = .next (s.endedWith .param)))

/-- R360: a conditional primitive touches the same words whatever the selector and the operand values: from two states
that differ in word values only, with any two legal selectors, it ends with the same status, initialises the same
words, and changes no word outside its destinations. -/
def Obligations.ConditionalPrimitivesTouchTheSameWords : Prop :=
  ∀ mk ∈ [Instr.ctEq, .ctLt, .ctGt, .ctSel, .cswap, .cneg, .cshr, .mux2, .mux4], ∀ (ctx sel sel' : Nat) (s : State)
    (m : Memory), selectorOk (mk ctx sel) = true → selectorOk (mk ctx sel') = true →
    (∀ a, (m.read a).isSome = (s.mem.read a).isSome) →
    ∃ t t', exec (mk ctx sel) s = .next t ∧ exec (mk ctx sel') { s with mem := m } = .next t' ∧
      t'.err = t.err ∧ t'.latch = t.latch ∧ t'.modelFaults = t.modelFaults ∧
      (∀ a, (t'.mem.read a).isSome = (t.mem.read a).isSome) ∧
      ∀ a, Outside (destsOf (mk ctx sel) s) a → t.mem.read a = s.mem.read a ∧ t'.mem.read a = m.read a

/-! ## Results: exponentiation -/

/-- R384, for all three variants: b^e mod p on a plain slot; on a Montgomery slot (x^e mod p)·R mod p for the x < p with
x·R ≡ b; so e = 0 gives the identity; PARAM for a base ≥ p. -/
def Obligations.ExponentiationResults : Prop :=
  ∀ (ctx sel : Nat) (s : State) (b e : Nat) (i : Instr), s.SlotReady ctx → s.LenOk s.lenB →
    i ∈ [.expLadder ctx sel, .expFast ctx sel, .expSsma ctx sel] →
    Ready i s [(s.atA (s.slot ctx).n, b), (s.atB s.lenB, e)] [s.atDst0 (s.slot ctx).n] →
    let n := (s.slot ctx).n
    let p := (s.slot ctx).modulus
    (b < p → ∃ v, v < p ∧ ((s.slot ctx).strat = .plain → v = b ^ e % p) ∧
      ((s.slot ctx).strat = .montgomery →
        ∃ x, x < p ∧ x * 2 ^ (s.w * n) % p = b ∧ v = x ^ e % p * 2 ^ (s.w * n) % p) ∧
      (e = 0 → v = if (s.slot ctx).strat = .plain then 1 else (s.slot ctx).rone) ∧ (e = 1 → v = b) ∧
      exec i s = .next (s.okWith 0#32 (s.put (s.atDst0 n) v))) ∧
    (p ≤ b → exec i s = .next (s.endedWith .param))

/-- The listings of R385, R386 and R383 return the value of R384, on any slot as R41 describes it, for every base below
p and every exponent of W·LENB bits. -/
def Obligations.ExponentiationListingsAgree : Prop :=
  ∀ (p : Params) (c : Slot) (lenB b e : Nat), c.wellBuilt p → b < c.modulus → e < 2 ^ (p.w * lenB) →
    ladder p.w c (p.w * lenB) b e = some (expValue p.w c b e) ∧
    fastWindow p.w c (p.w * lenB / 2) b e = some (expValue p.w c b e) ∧
    (1 ≤ lenB → ssma p.w c (p.w * lenB / 2) b e = some (expValue p.w c b e))
end

