-- ==== Sys2Proof/Laws/Arith.lean ====
section
/-!
SUPPORT. The number functions meet their definitions: bit length, trailing zeros, inverse, power, and the Montgomery
functions (00_scope.md R13, 42_division.md R250, 44_montgomery.md R320–R330).
-/

namespace Sys2Proof.Machine

/-! ## Bit length, reciprocal, trailing zeros -/

theorem bitlen_zero : bitlen 0 = 0 := rfl

theorem bitlen_pos {x : Nat} (h : x ≠ 0) : 1 ≤ bitlen x := by simp [bitlen, h]

theorem lt_two_pow_bitlen (x : Nat) : x < 2 ^ bitlen x := by
  unfold bitlen
  split
  · simp_all
  · exact Nat.lt_log2_self

theorem two_pow_bitlen_le {x : Nat} (h : x ≠ 0) : 2 ^ (bitlen x - 1) ≤ x := by
  simp only [bitlen, if_neg h, Nat.add_sub_cancel]
  exact Nat.log2_self_le h

/-- The bit length is the only exponent with 2^(b−1) ≤ x < 2^b. -/
theorem bitlen_unique {x b : Nat} (h1 : 2 ^ (b - 1) ≤ x) (h2 : x < 2 ^ b) : bitlen x = b := by
  have hx : x ≠ 0 := by have := Nat.two_pow_pos (b - 1); omega
  have h3 := lt_two_pow_bitlen x
  have h4 := two_pow_bitlen_le hx
  have h5 : b - 1 < bitlen x := (Nat.pow_lt_pow_iff_right (by norm_num)).mp (lt_of_le_of_lt h1 h3)
  have h6 : bitlen x - 1 < b := (Nat.pow_lt_pow_iff_right (by norm_num)).mp (lt_of_le_of_lt h4 h2)
  omega

theorem bitlen_le {x b : Nat} (h : x < 2 ^ b) : bitlen x ≤ b := by
  by_cases hx : x = 0
  · simp [hx, bitlen]
  · have h6 := (Nat.pow_lt_pow_iff_right (by norm_num)).mp (lt_of_le_of_lt (two_pow_bitlen_le hx) h)
    omega

/-- The greatest common divisor with a power of two is a power of two. -/
theorem gcd_two_pow (bits a : Nat) : ∃ t, t ≤ bits ∧ Nat.gcd a (2 ^ bits) = 2 ^ t := by
  obtain ⟨t, ht, h⟩ := (Nat.dvd_prime_pow Nat.prime_two).mp (Nat.gcd_dvd_right a (2 ^ bits))
  exact ⟨t, ht, h⟩

theorem trailingZeros_spec (bits a : Nat) : Nat.gcd a (2 ^ bits) = 2 ^ trailingZeros bits a := by
  obtain ⟨t, -, h⟩ := gcd_two_pow bits a
  simp [trailingZeros, h, Nat.log2_two_pow]

theorem trailingZeros_zero (bits : Nat) : trailingZeros bits 0 = bits := by
  simp [trailingZeros, Nat.log2_two_pow]

theorem trailingZeros_dvd (bits a : Nat) : 2 ^ trailingZeros bits a ∣ a :=
  trailingZeros_spec bits a ▸ Nat.gcd_dvd_left a (2 ^ bits)

/-- No greater power of two divides a nonzero a below 2^bits (41_bigint.md R213). -/
theorem trailingZeros_max {bits a : Nat} (h0 : a ≠ 0) (h : a < 2 ^ bits) : ¬2 ^ (trailingZeros bits a + 1) ∣ a := by
  intro hd
  have hb : trailingZeros bits a + 1 ≤ bits := by
    have h1 := Nat.le_of_dvd (Nat.pos_of_ne_zero h0) hd
    exact Nat.le_of_lt ((Nat.pow_lt_pow_iff_right (by norm_num)).mp (lt_of_le_of_lt h1 h))
  have h2 := Nat.dvd_gcd hd (pow_dvd_pow 2 hb)
  rw [trailingZeros_spec] at h2
  have := (Nat.pow_dvd_pow_iff_le_right (by norm_num)).mp h2
  omega

/-! ## The inverse -/

/-- With enough fuel the extended Euclid of m answers t with t·x ≡ gcd(r₀, r₁) (mod m). -/
theorem euclid_modEq {m x : Nat} (hm : 0 < m) :
    ∀ (fuel r0 r1 t0 t1 : Nat), r1 ≤ r0 → r0 * r1 < 2 ^ fuel → r0 ≡ t0 * x [MOD m] → r1 ≡ t1 * x [MOD m] →
      euclid m fuel r0 r1 t0 t1 * x ≡ Nat.gcd r0 r1 [MOD m] := by
  intro fuel
  induction fuel with
  | zero =>
    intro r0 r1 t0 t1 hle hlt h0 h1
    have : r1 = 0 := by
      by_contra h
      have : 1 ≤ r0 * r1 := Nat.mul_pos (by omega) (by omega)
      simp at hlt; omega
    subst this
    simpa [euclid] using h0.symm
  | succ fuel ih =>
    intro r0 r1 t0 t1 hle hlt h0 h1
    rw [euclid]
    split
    · rename_i h; subst h; simpa using h0.symm
    · rename_i h
      have hpos : 0 < r1 := Nat.pos_of_ne_zero h
      have hdm := Nat.div_add_mod r0 r1
      have hq : 1 ≤ r0 / r1 := Nat.div_pos hle hpos
      have hmod : r0 % r1 < r1 := Nat.mod_lt _ hpos
      have := ih r1 (r0 % r1) t1 ((t0 + (m - r0 / r1 * t1 % m)) % m) (by omega) ?_ h1 ?_
      · rw [Nat.gcd_comm r0 r1, Nat.gcd_rec r1 r0, Nat.gcd_comm]; exact this
      · have h2 : r1 + r0 % r1 ≤ r0 := by
          have := Nat.mul_le_mul_left r1 hq; omega
        have h3 : r0 % r1 * r1 < 2 ^ fuel := by
          rw [Nat.pow_succ] at hlt
          nlinarith
        rwa [Nat.mul_comm]
      · have hs : (r0 / r1 * t1) % m ≤ m := (Nat.mod_lt _ hm).le
        have e1 : (t0 + (m - r0 / r1 * t1 % m)) % m * x + r0 / r1 * t1 * x ≡ t0 * x [MOD m] := by
          have a1 : (t0 + (m - r0 / r1 * t1 % m)) % m + r0 / r1 * t1 ≡ t0 [MOD m] := by
            calc (t0 + (m - r0 / r1 * t1 % m)) % m + r0 / r1 * t1
                ≡ (t0 + (m - r0 / r1 * t1 % m)) + r0 / r1 * t1 % m [MOD m] :=
                  (Nat.mod_modEq _ _).add (Nat.mod_modEq _ _).symm
              _ = t0 + m := by omega
              _ ≡ t0 [MOD m] := by simp [Nat.ModEq]
          have := a1.mul_right x
          rwa [Nat.add_mul] at this
        have e2 : r0 % r1 + r0 / r1 * t1 * x ≡ t0 * x [MOD m] := by
          calc r0 % r1 + r0 / r1 * t1 * x ≡ r0 % r1 + r0 / r1 * r1 [MOD m] := by
                rw [Nat.mul_assoc]; exact (Nat.ModEq.refl _).add ((h1.symm).mul_left _)
            _ = r0 := by rw [Nat.mul_comm]; omega
            _ ≡ t0 * x [MOD m] := h0
        exact (Nat.ModEq.add_right_cancel' _ (e2.trans e1.symm))

/-- The inverse is in [0, m) (00_scope.md R13). -/
theorem euclid_lt {m : Nat} (hm : 0 < m) :
    ∀ (fuel r0 r1 t0 t1 : Nat), t0 < m → t1 < m → euclid m fuel r0 r1 t0 t1 < m := by
  intro fuel
  induction fuel with
  | zero => intro r0 r1 t0 t1 h0 _; exact h0
  | succ fuel ih =>
    intro r0 r1 t0 t1 h0 h1
    rw [euclid]
    split
    · exact h0
    · exact ih _ _ _ _ h1 (Nat.mod_lt _ hm)

theorem invMod_lt (x : Nat) {m : Nat} (hm : 1 < m) : invMod x m < m :=
  euclid_lt (by omega) _ _ _ _ _ (by omega) hm

/-- x · x^{-1} ≡ gcd(x, m) (mod m); 1 where x and m have no common factor. -/
theorem invMod_modEq (x : Nat) {m : Nat} (hm : 1 < m) : invMod x m * x ≡ Nat.gcd x m [MOD m] := by
  have hx : x % m < m := Nat.mod_lt _ (by omega)
  have hb := lt_two_pow_bitlen m
  have hfuel : m * (x % m) < 2 ^ (2 * bitlen m) := by
    rw [two_mul, Nat.pow_add]
    exact Nat.mul_lt_mul_of_lt_of_le hb (by omega) (Nat.two_pow_pos _)
  have h := euclid_modEq (m := m) (x := x % m) (by omega) (2 * bitlen m) m (x % m) 0 1 hx.le hfuel
    (by simp [Nat.ModEq]) (by simp [Nat.ModEq])
  have hg : Nat.gcd m (x % m) = Nat.gcd x m := by rw [Nat.gcd_comm, Nat.gcd_comm x m, ← Nat.gcd_rec, Nat.gcd_comm]
  rw [hg] at h
  exact ((Nat.mod_modEq x m).symm.mul_left _).trans h

theorem invMod_spec {x m : Nat} (hm : 1 < m) (h : Nat.gcd x m = 1) : x * invMod x m % m = 1 := by
  have := invMod_modEq x hm
  rw [h, Nat.mul_comm] at this
  rw [this, Nat.mod_eq_of_lt hm]

/-! ## The power -/

theorem powModFuel_spec (p : Nat) : ∀ (fuel x e : Nat), e < 2 ^ fuel → powModFuel p fuel x e = x ^ e % p := by
  intro fuel
  induction fuel with
  | zero => intro x e h; simp at h; subst h; simp [powModFuel]
  | succ fuel ih =>
    intro x e h
    have he : e / 2 < 2 ^ fuel := by rw [Nat.pow_succ] at h; omega
    have hh : powModFuel p fuel (x * x % p) (e / 2) = x ^ (2 * (e / 2)) % p := by
      rw [ih _ _ he, ← Nat.pow_mod, ← Nat.pow_two, ← Nat.pow_mul]
    simp only [powModFuel, hh]
    have hdm := Nat.div_add_mod e 2
    split
    · rename_i h1
      conv_rhs => rw [← hdm, h1, Nat.pow_succ, Nat.mul_comm, Nat.mul_mod]
      rw [Nat.mul_mod, Nat.mod_mod]
    · rename_i h1
      have : e % 2 = 0 := by omega
      conv_rhs => rw [← hdm, this, Nat.add_zero]

theorem powMod_spec (x e p : Nat) : powMod x e p = x ^ e % p := powModFuel_spec p _ _ _ (lt_two_pow_bitlen e)

/-! ## Montgomery -/

/-- N0INV·p ≡ −1 (mod 2^W) for an odd p (44_montgomery.md R320). -/
theorem n0invOf_spec {w p : Nat} (hw : 1 ≤ w) (hp : p % 2 = 1) : (n0invOf w p * p + 1) % 2 ^ w = 0 := by
  have hM : 1 < 2 ^ w := Nat.one_lt_two_pow (by omega)
  have hodd : (p % 2 ^ w) % 2 = 1 := by
    rw [Nat.mod_mod_of_dvd _ (dvd_pow_self 2 (by omega))]; exact hp
  have hg : Nat.gcd (p % 2 ^ w) (2 ^ w) = 1 := by
    refine Nat.Coprime.pow_right _ ?_
    exact (Nat.coprime_two_right.mpr (Nat.odd_iff.mpr hodd))
  have hinv := invMod_spec hM hg
  have hlt := invMod_lt (p % 2 ^ w) hM
  have h1 : n0invOf w p * p + invMod (p % 2 ^ w) (2 ^ w) * p ≡ 0 [MOD 2 ^ w] := by
    rw [← Nat.add_mul]
    have : n0invOf w p + invMod (p % 2 ^ w) (2 ^ w) ≡ 0 [MOD 2 ^ w] := by
      calc n0invOf w p + invMod (p % 2 ^ w) (2 ^ w)
          ≡ (2 ^ w - invMod (p % 2 ^ w) (2 ^ w)) + invMod (p % 2 ^ w) (2 ^ w) [MOD 2 ^ w] :=
            (Nat.mod_modEq _ _).add_right _
        _ = 2 ^ w := by omega
        _ ≡ 0 [MOD 2 ^ w] := by simp [Nat.ModEq]
    simpa using this.mul_right p
  have h2 : invMod (p % 2 ^ w) (2 ^ w) * p ≡ 1 [MOD 2 ^ w] := by
    calc invMod (p % 2 ^ w) (2 ^ w) * p ≡ invMod (p % 2 ^ w) (2 ^ w) * (p % 2 ^ w) [MOD 2 ^ w] :=
          (Nat.mod_modEq p _).symm.mul_left _
      _ ≡ 1 [MOD 2 ^ w] := by
          rw [Nat.mul_comm]; unfold Nat.ModEq; rw [hinv, Nat.mod_eq_of_lt hM]
  have := ((Nat.ModEq.refl (n0invOf w p * p)).add h2).symm.trans h1
  simpa [Nat.ModEq] using this

theorem n0invOf_lt (w p : Nat) : n0invOf w p < 2 ^ w := Nat.mod_lt _ (Nat.two_pow_pos w)

/-- Each pass of REDC adds a multiple of p and clears one limb. -/
theorem cancelLimbs_spec {w p n0inv : Nat} (hn : (n0inv * p + 1) % 2 ^ w = 0) :
    ∀ (count i u : Nat), 2 ^ (w * i) ∣ u →
      ∃ q, q < 2 ^ (w * count) ∧ cancelLimbs w p n0inv count i u = u + q * p * 2 ^ (w * i) ∧
        2 ^ (w * (i + count)) ∣ cancelLimbs w p n0inv count i u := by
  intro count
  induction count with
  | zero => intro i u hu; exact ⟨0, by simp, by simp [cancelLimbs], by simpa [cancelLimbs] using hu⟩
  | succ count ih =>
    intro i u hu
    obtain ⟨v, rfl⟩ := hu
    have hpos : 0 < 2 ^ (w * i) := Nat.two_pow_pos _
    set m := v % 2 ^ w * n0inv % 2 ^ w with hm
    have hmdef : 2 ^ (w * i) * v / 2 ^ (w * i) % 2 ^ w * n0inv % 2 ^ w = m := by
      rw [Nat.mul_div_cancel_left _ hpos]
    have hzero : v + m * p ≡ 0 [MOD 2 ^ w] := by
      have e : m * p ≡ v * (n0inv * p) [MOD 2 ^ w] := by
        calc m * p ≡ v % 2 ^ w * n0inv * p [MOD 2 ^ w] := (Nat.mod_modEq _ _).mul_right _
          _ ≡ v * n0inv * p [MOD 2 ^ w] := ((Nat.mod_modEq v _).mul_right _).mul_right _
          _ = v * (n0inv * p) := Nat.mul_assoc _ _ _
      calc v + m * p ≡ v + v * (n0inv * p) [MOD 2 ^ w] := (Nat.ModEq.refl v).add e
        _ = v * (n0inv * p + 1) := by ring
        _ ≡ v * 0 [MOD 2 ^ w] := Nat.ModEq.mul_left _ (by simpa [Nat.ModEq] using hn)
        _ = 0 := by simp
    have hdvd : 2 ^ w ∣ v + m * p := (Nat.modEq_zero_iff_dvd.mp hzero)
    have hnext : 2 ^ (w * (i + 1)) ∣ 2 ^ (w * i) * v + m * p * 2 ^ (w * i) := by
      have : 2 ^ (w * i) * v + m * p * 2 ^ (w * i) = 2 ^ (w * i) * (v + m * p) := by ring
      rw [this, show w * (i + 1) = w * i + w from by ring, Nat.pow_add]
      exact Nat.mul_dvd_mul_left _ hdvd
    obtain ⟨q, hq, heq, hd⟩ := ih (i + 1) _ hnext
    refine ⟨m + q * 2 ^ w, ?_, ?_, ?_⟩
    · have hml : m < 2 ^ w := Nat.mod_lt _ (Nat.two_pow_pos w)
      rw [show w * (count + 1) = w * count + w from by ring, Nat.pow_add]
      nlinarith [Nat.two_pow_pos w]
    · simp only [cancelLimbs, hmdef, heq]
      rw [show w * (i + 1) = w * i + w from by ring, Nat.pow_add]; ring
    · simp only [cancelLimbs, hmdef]
      rwa [show i + (count + 1) = i + 1 + count from by ring]

/-- REDC's u before the conditional subtraction: an exact quotient with u·R = t + q·p, q < R (44_montgomery.md R325). -/
theorem redc_quotient {w : Nat} {c : Slot} (hn : (c.n0inv * c.modulus + 1) % 2 ^ w = 0) (t : Nat) :
    ∃ q, q < radix w c.n ∧
      cancelLimbs w c.modulus c.n0inv c.n 0 t / radix w c.n * radix w c.n = t + q * c.modulus := by
  obtain ⟨q, hq, heq, hd⟩ := cancelLimbs_spec hn c.n 0 t (by simp)
  refine ⟨q, hq, ?_⟩
  simp only [Nat.mul_zero, pow_zero, Nat.mul_one, Nat.zero_add] at heq hd
  rw [radix, Nat.div_mul_cancel hd, heq]

/-- For t < p·R, REDC never raises INVARIANT and answers v < p with v·R ≡ t (mod p) (44_montgomery.md R324, R325). -/
theorem redc_spec {w : Nat} {c : Slot} (hn : (c.n0inv * c.modulus + 1) % 2 ^ w = 0) {t : Nat}
    (ht : t < c.modulus * radix w c.n) :
    ∃ v, redc w c t = some v ∧ v < c.modulus ∧ v * radix w c.n % c.modulus = t % c.modulus := by
  obtain ⟨q, hq, he⟩ := redc_quotient hn t
  have hR : 0 < radix w c.n := Nat.two_pow_pos _
  set u := cancelLimbs w c.modulus c.n0inv c.n 0 t / radix w c.n with hu
  have hlt : u < 2 * c.modulus := by
    by_contra h
    have h2 : 2 * c.modulus * radix w c.n ≤ u * radix w c.n := Nat.mul_le_mul_right _ (by omega)
    have h3 : q * c.modulus ≤ radix w c.n * c.modulus := Nat.mul_le_mul_right _ hq.le
    nlinarith
  have hval : redcValue w c t = if c.modulus ≤ u then u - c.modulus else u := rfl
  refine ⟨redcValue w c t, ?_, ?_, ?_⟩
  · rw [redc, if_neg]; rw [hval]; split <;> omega
  · rw [hval]; split <;> omega
  · have hmodu : u * radix w c.n % c.modulus = t % c.modulus := by rw [he]; simp
    rw [hval]
    split
    · rename_i h
      have : (u - c.modulus) * radix w c.n + radix w c.n * c.modulus = u * radix w c.n := by
        rw [Nat.sub_mul, Nat.mul_comm (radix w c.n) c.modulus]
        exact Nat.sub_add_cancel (Nat.mul_le_mul_right _ h)
      rw [← hmodu, ← this]; simp
    · exact hmodu

/-- R and an odd modulus have no common factor (44_montgomery.md R323). -/
theorem radix_coprime {p : Nat} (hp : p % 2 = 1) (w n : Nat) : Nat.Coprime (radix w n) p :=
  Nat.Coprime.pow_left _ (Nat.coprime_two_left.mpr (Nat.odd_iff.mpr hp))

end Sys2Proof.Machine
end

