-- ==== Sys2Proof/Laws/Memory.lean ====
section
/-!
SUPPORT. The laws of operand memory: read after write and erase, the canonical form, and the ranges.
-/

namespace Sys2Proof.Machine

/-! ## One word -/

theorem Memory.read_write (m : Memory) (a b : Nat) (v : Nat) :
    (m.write a v).read b = if a = b then some v else m.read b := by
  induction m with
  | nil => simp [Memory.write, Memory.read]
  | cons x m ih =>
    obtain ⟨k, y⟩ := x
    simp only [Memory.write]
    split
    · simp [Memory.read]
    · split
      · rename_i h; subst h; by_cases hb : a = b <;> simp [Memory.read, hb]
      · rename_i h; simp only [Memory.read, ih]
        by_cases hk : k = b
        · subst hk; simp [h]
        · simp [hk]

@[simp] theorem Memory.read_write_same (m : Memory) (a : Nat) (v : Nat) : (m.write a v).read a = some v := by
  simp [Memory.read_write]

theorem Memory.read_write_ne (m : Memory) (v : Nat) {a b : Nat} (h : a ≠ b) : (m.write a v).read b = m.read b := by
  simp [Memory.read_write, h]

theorem Memory.read_erase (m : Memory) (a b : Nat) : (m.erase a).read b = if a = b then none else m.read b := by
  induction m with
  | nil => simp [Memory.erase, Memory.read]
  | cons x m ih =>
    obtain ⟨k, y⟩ := x
    simp only [Memory.erase]
    split
    · rename_i h; subst h; rw [ih]; by_cases hb : k = b <;> simp [Memory.read, hb]
    · rename_i h; simp only [Memory.read, ih]
      by_cases hk : k = b
      · subst hk; simp [Ne.symm h]
      · simp [hk]

theorem Memory.mem_write {m : Memory} {a : Nat} {v : Nat} {x : Nat × Nat} (h : x ∈ m.write a v) :
    x = (a, v) ∨ x ∈ m := by
  induction m with
  | nil => simpa [Memory.write] using h
  | cons y m ih =>
    obtain ⟨k, z⟩ := y
    simp only [Memory.write] at h
    split at h
    · simpa using h
    · split at h
      · simp only [List.mem_cons] at h ⊢; tauto
      · simp only [List.mem_cons] at h ⊢
        rcases h with h | h
        · tauto
        · have := ih h; tauto

theorem Memory.mem_erase {m : Memory} {a : Nat} {x : Nat × Nat} (h : x ∈ m.erase a) : x ∈ m := by
  induction m with
  | nil => simp [Memory.erase] at h
  | cons y m ih =>
    obtain ⟨k, z⟩ := y
    simp only [Memory.erase] at h
    split at h
    · exact List.mem_cons_of_mem _ (ih h)
    · simp only [List.mem_cons] at h ⊢
      rcases h with h | h
      · exact .inl h
      · exact .inr (ih h)

theorem Memory.write_wf {m : Memory} (h : m.wf) (a : Nat) (v : Nat) : (m.write a v).wf := by
  induction m with
  | nil => simp [Memory.write, Memory.wf]
  | cons y m ih =>
    obtain ⟨k, z⟩ := y
    have hm := (List.pairwise_cons.mp h)
    simp only [Memory.write]
    split
    · rename_i hk
      refine List.pairwise_cons.mpr ⟨?_, h⟩
      intro x hx
      rcases List.mem_cons.mp hx with rfl | hx
      · exact hk
      · exact Nat.lt_trans hk (hm.1 x hx)
    · split
      · rename_i hk; subst hk; exact List.pairwise_cons.mpr ⟨hm.1, hm.2⟩
      · refine List.pairwise_cons.mpr ⟨?_, ih hm.2⟩
        intro x hx
        rcases Memory.mem_write hx with rfl | hx
        · simp only; omega
        · exact hm.1 x hx

theorem Memory.erase_wf {m : Memory} (h : m.wf) (a : Nat) : (m.erase a).wf := by
  induction m with
  | nil => simp [Memory.erase, Memory.wf]
  | cons y m ih =>
    obtain ⟨k, z⟩ := y
    have hm := (List.pairwise_cons.mp h)
    simp only [Memory.erase]
    split
    · exact ih hm.2
    · exact List.pairwise_cons.mpr ⟨fun x hx => hm.1 x (Memory.mem_erase hx), ih hm.2⟩

/-- In canonical form the list of cells and the reading of addresses say the same. -/
theorem Memory.mem_of_read {m : Memory} {a : Nat} {v : Nat} (h : m.read a = some v) : (a, v) ∈ m := by
  induction m with
  | nil => simp [Memory.read] at h
  | cons y m ih =>
    obtain ⟨k, z⟩ := y
    simp only [Memory.read] at h
    split at h
    · rename_i hk; subst hk; simp at h; simp [h]
    · exact List.mem_cons_of_mem _ (ih h)

/-! ## Ranges of words -/

theorem Memory.writeLimbs_wf (w : Nat) {m : Memory} (h : m.wf) (base n v : Nat) :
    (Memory.writeLimbs w m base n v).wf := by
  induction n generalizing m base v with
  | zero => exact h
  | succ n ih => exact ih (Memory.write_wf h _ _) _ _

theorem Memory.eraseLimbs_wf {m : Memory} (h : m.wf) (base n : Nat) : (Memory.eraseLimbs m base n).wf := by
  induction n generalizing m base with
  | zero => exact h
  | succ n ih => exact ih (Memory.erase_wf h _) _

/-- A written word is a limb of the value inside the range, and what was there outside it. -/
theorem Memory.read_writeLimbs (w : Nat) (m : Memory) (base n v a : Nat) :
    (Memory.writeLimbs w m base n v).read a =
      if base ≤ a ∧ a < base + n then some (v / 2 ^ (w * (a - base)) % 2 ^ w) else m.read a := by
  induction n generalizing m base v with
  | zero => simp [Memory.writeLimbs]
  | succ n ih =>
    rw [Memory.writeLimbs, ih, Memory.read_write]
    by_cases h1 : base + 1 ≤ a ∧ a < base + 1 + n
    · have h2 : base ≤ a ∧ a < base + (n + 1) := by omega
      rw [if_pos h1, if_pos h2, Nat.div_div_eq_div_mul, ← Nat.pow_add,
        show w + w * (a - (base + 1)) = w * (a - base) from by
          rw [show a - base = (a - (base + 1)) + 1 from by omega]; ring]
    · rw [if_neg h1]
      by_cases h3 : base = a
      · subst h3; simp
      · have h2 : ¬(base ≤ a ∧ a < base + (n + 1)) := by omega
        rw [if_neg h2, if_neg h3]

/-- An erased word is uninitialised inside the range, and what was there outside it. -/
theorem Memory.read_eraseLimbs (m : Memory) (base n a : Nat) :
    (Memory.eraseLimbs m base n).read a = if base ≤ a ∧ a < base + n then none else m.read a := by
  induction n generalizing m base with
  | zero => simp [Memory.eraseLimbs]
  | succ n ih =>
    rw [Memory.eraseLimbs, ih, Memory.read_erase]
    by_cases h1 : base + 1 ≤ a ∧ a < base + 1 + n
    · have h2 : base ≤ a ∧ a < base + (n + 1) := by omega
      rw [if_pos h1, if_pos h2]
    · rw [if_neg h1]
      by_cases h3 : base = a
      · subst h3; simp
      · have h2 : ¬(base ≤ a ∧ a < base + (n + 1)) := by omega
        rw [if_neg h2, if_neg h3]

theorem Memory.readLimbs_succ (w : Nat) (m : Memory) (base n : Nat) :
    Memory.readLimbs w m base (n + 1) =
      (m.read base).bind fun lo => (Memory.readLimbs w m (base + 1) n).map fun hi => lo + 2 ^ w * hi := by
  simp only [Memory.readLimbs]
  cases m.read base <;> cases Memory.readLimbs w m (base + 1) n <;> rfl

/-- MemRead depends on the words of the range only. -/
theorem Memory.readLimbs_congr (w : Nat) {m m' : Memory} {base n : Nat}
    (h : ∀ a, base ≤ a → a < base + n → m'.read a = m.read a) :
    Memory.readLimbs w m' base n = Memory.readLimbs w m base n := by
  induction n generalizing base with
  | zero => rfl
  | succ n ih =>
    rw [Memory.readLimbs_succ, Memory.readLimbs_succ, h base (by omega) (by omega),
      ih fun a h1 h2 => h a (by omega) (by omega)]

/-- MemRead gives no value exactly when a word of the range is uninitialised. -/
theorem Memory.readLimbs_eq_none (w : Nat) (m : Memory) (base n : Nat) :
    Memory.readLimbs w m base n = none ↔ ∃ a, base ≤ a ∧ a < base + n ∧ m.read a = none := by
  induction n generalizing base with
  | zero => simp [Memory.readLimbs]; omega
  | succ n ih =>
    rw [Memory.readLimbs_succ]
    constructor
    · intro h
      rcases hb : m.read base with _ | lo
      · exact ⟨base, by omega, by omega, hb⟩
      · have : Memory.readLimbs w m (base + 1) n = none := by simpa [hb] using h
        obtain ⟨a, h1, h2, h3⟩ := (ih _).mp this
        exact ⟨a, by omega, by omega, h3⟩
    · rintro ⟨a, h1, h2, h3⟩
      by_cases ha : a = base
      · subst ha; simp [h3]
      · have := (ih (base + 1)).mpr ⟨a, by omega, by omega, h3⟩
        simp [this]

/-- n words of w bits hold a value below 2^(w·n). -/
theorem Memory.readLimbs_lt (w : Nat) {m : Memory} {base n v : Nat}
    (hm : ∀ x ∈ m, x.2 < 2 ^ w) (h : Memory.readLimbs w m base n = some v) : v < 2 ^ (w * n) := by
  induction n generalizing base v with
  | zero => simp [Memory.readLimbs] at h; subst h; simp
  | succ n ih =>
    rw [Memory.readLimbs_succ] at h
    obtain ⟨lo, hlo, h⟩ := Option.bind_eq_some_iff.mp h
    obtain ⟨hi, hhi, rfl⟩ := Option.map_eq_some_iff.mp h
    have h1 : lo < 2 ^ w := hm _ (Memory.mem_of_read hlo)
    have h2 := ih hhi
    calc lo + 2 ^ w * hi < 2 ^ w * (hi + 1) := by linarith
      _ ≤ 2 ^ w * 2 ^ (w * n) := Nat.mul_le_mul_left _ h2
      _ = 2 ^ (w * (n + 1)) := by rw [← Nat.pow_add]; ring_nf

/-- MemRead after MemWrite to the same range gives the value back, when it fits. -/
theorem Memory.readLimbs_writeLimbs_same (w : Nat) (m : Memory) (base n : Nat) {v : Nat} (hv : v < 2 ^ (w * n)) :
    Memory.readLimbs w (Memory.writeLimbs w m base n v) base n = some v := by
  induction n generalizing m base v with
  | zero => simp at hv; subst hv; rfl
  | succ n ih =>
    have hlow : (Memory.writeLimbs w m base (n + 1) v).read base = some (v % 2 ^ w) := by
      rw [Memory.read_writeLimbs, if_pos (by omega)]; simp
    have hdiv : v / 2 ^ w < 2 ^ (w * n) := by
      rw [Nat.div_lt_iff_lt_mul (Nat.two_pow_pos w), ← Nat.pow_add]
      rwa [show w * n + w = w * (n + 1) from by ring]
    rw [Memory.readLimbs_succ, hlow, Memory.writeLimbs, ih (m.write base (v % 2 ^ w)) (base + 1) hdiv]
    simp [Nat.mod_add_div]

/-- MemRead after MemWrite to a range apart from it. -/
theorem Memory.readLimbs_writeLimbs_apart (w : Nat) (m : Memory) (v : Nat) {b n base len : Nat}
    (h : b + n ≤ base ∨ base + len ≤ b) :
    Memory.readLimbs w (Memory.writeLimbs w m base len v) b n = Memory.readLimbs w m b n :=
  Memory.readLimbs_congr w fun a h1 h2 => by rw [Memory.read_writeLimbs, if_neg (by omega)]

/-! ## Several ranges -/

theorem writeRanges_wf (w : Nat) {m : Memory} (h : m.wf) (rs : List Range) (vs : List Nat) :
    (writeRanges w m rs vs).wf := by
  induction rs generalizing m vs with
  | nil => exact h
  | cons r rs ih =>
    cases vs with
    | nil => exact h
    | cons v vs => exact ih (Memory.writeLimbs_wf w h _ _ _) vs

theorem eraseRanges_wf {m : Memory} (h : m.wf) (rs : List Range) : (eraseRanges m rs).wf := by
  induction rs generalizing m with
  | nil => exact h
  | cons r rs ih => exact ih (Memory.eraseLimbs_wf h _ _)

theorem Range.covers_iff (r : Range) (a : Nat) : r.covers a = true ↔ r.base ≤ a ∧ a < r.base + r.len := by
  simp [Range.covers]

theorem read_eraseRanges (m : Memory) (rs : List Range) (a : Nat) :
    (eraseRanges m rs).read a = if rs.any (·.covers a) then none else m.read a := by
  induction rs generalizing m with
  | nil => simp [eraseRanges]
  | cons r rs ih =>
    rw [eraseRanges, ih, Memory.read_eraseLimbs]
    by_cases h : r.covers a = true
    · simp [h, (Range.covers_iff r a).mp h]
    · have h' : ¬(r.base ≤ a ∧ a < r.base + r.len) := fun x => h ((Range.covers_iff r a).mpr x)
      simp [h, h']

/-- A word outside every range written keeps its value and INIT bit (20_memory.md R85). -/
theorem read_writeRanges_outside (w : Nat) (m : Memory) {rs : List Range} (vs : List Nat) {a : Nat}
    (h : ∀ r ∈ rs, a < r.base ∨ r.base + r.len ≤ a) : (writeRanges w m rs vs).read a = m.read a := by
  induction rs generalizing m vs with
  | nil => rfl
  | cons r rs ih =>
    cases vs with
    | nil => rfl
    | cons v vs =>
      rw [writeRanges, ih _ vs fun q hq => h q (List.mem_cons_of_mem _ hq), Memory.read_writeLimbs, if_neg]
      have := h r (by simp)
      omega

theorem mem_eraseLimbs {m : Memory} {base n : Nat} {x : Nat × Nat} (h : x ∈ Memory.eraseLimbs m base n) : x ∈ m := by
  induction n generalizing m base with
  | zero => exact h
  | succ n ih => exact Memory.mem_erase (ih h)

theorem mem_eraseRanges {m : Memory} {rs : List Range} {x : Nat × Nat} (h : x ∈ eraseRanges m rs) : x ∈ m := by
  induction rs generalizing m with
  | nil => exact h
  | cons r rs ih => exact mem_eraseLimbs (ih h)

/-- A cell of a written memory is an old one, or a word below 2^w inside the range. -/
theorem mem_writeLimbs (w : Nat) {m : Memory} {base n v : Nat} {x : Nat × Nat}
    (h : x ∈ Memory.writeLimbs w m base n v) : x ∈ m ∨ (base ≤ x.1 ∧ x.1 < base + n ∧ x.2 < 2 ^ w) := by
  induction n generalizing m base v with
  | zero => exact .inl h
  | succ n ih =>
    rcases ih h with h | h
    · rcases Memory.mem_write h with rfl | h
      · exact .inr ⟨by simp, by simp, Nat.mod_lt _ (Nat.two_pow_pos w)⟩
      · exact .inl h
    · exact .inr ⟨by omega, by omega, h.2.2⟩

theorem mem_writeRanges (w : Nat) {m : Memory} {rs : List Range} {vs : List Nat} {x : Nat × Nat}
    (h : x ∈ writeRanges w m rs vs) :
    x ∈ m ∨ ∃ r ∈ rs, r.base ≤ x.1 ∧ x.1 < r.base + r.len ∧ x.2 < 2 ^ w := by
  induction rs generalizing m vs with
  | nil => exact .inl h
  | cons r rs ih =>
    cases vs with
    | nil => exact .inl h
    | cons v vs =>
      rcases ih h with h | ⟨q, hq, h⟩
      · rcases mem_writeLimbs w h with h | h
        · exact .inl h
        · exact .inr ⟨r, by simp, h⟩
      · exact .inr ⟨q, List.mem_cons_of_mem _ hq, h⟩

end Sys2Proof.Machine
end

