-- ==== Sys2Proof/Laws/State.lean ====
section
/-!
SUPPORT. One lemma per field per update of the state, and the plain equalities between the ways a command ends.
-/

namespace Sys2Proof.Machine

/-! ## complete -/

@[simp] theorem State.complete_params (s : State) (code : StatusCode) (r : BitVec 32) : (s.complete code r).params = s.params := rfl
@[simp] theorem State.complete_err (s : State) (code : StatusCode) (r : BitVec 32) : (s.complete code r).err = code := rfl
@[simp] theorem State.complete_done (s : State) (code : StatusCode) (r : BitVec 32) : (s.complete code r).done = true := rfl
@[simp] theorem State.complete_faulted (s : State) (code : StatusCode) (r : BitVec 32) : (s.complete code r).faulted = s.faulted := rfl
@[simp] theorem State.complete_result (s : State) (code : StatusCode) (r : BitVec 32) : (s.complete code r).result = if code = .ok then r else 0 := rfl
@[simp] theorem State.complete_cmd (s : State) (code : StatusCode) (r : BitVec 32) : (s.complete code r).cmd = s.cmd := rfl
@[simp] theorem State.complete_desc (s : State) (code : StatusCode) (r : BitVec 32) : (s.complete code r).desc = s.desc := rfl
@[simp] theorem State.complete_ie (s : State) (code : StatusCode) (r : BitVec 32) : (s.complete code r).ie = s.ie := rfl
@[simp] theorem State.complete_slots (s : State) (code : StatusCode) (r : BitVec 32) : (s.complete code r).slots = s.slots := rfl
@[simp] theorem State.complete_mem (s : State) (code : StatusCode) (r : BitVec 32) : (s.complete code r).mem = s.mem := rfl
@[simp] theorem State.complete_latch (s : State) (code : StatusCode) (r : BitVec 32) : (s.complete code r).latch = none := rfl
@[simp] theorem State.complete_modelFaults (s : State) (code : StatusCode) (r : BitVec 32) : (s.complete code r).modelFaults = s.modelFaults := rfl
@[simp] theorem State.complete_turns (s : State) (code : StatusCode) (r : BitVec 32) : (s.complete code r).turns = s.turns := rfl
@[simp] theorem State.complete_hostReads (s : State) (code : StatusCode) (r : BitVec 32) : (s.complete code r).hostReads = s.hostReads := rfl
@[simp] theorem State.complete_draws (s : State) (code : StatusCode) (r : BitVec 32) : (s.complete code r).draws = s.draws := rfl

/-! ## failWith -/

@[simp] theorem State.failWith_params (s : State) (code : StatusCode) (ds : List Range) : (s.failWith code ds).params = s.params := rfl
@[simp] theorem State.failWith_err (s : State) (code : StatusCode) (ds : List Range) : (s.failWith code ds).err = code := rfl
@[simp] theorem State.failWith_done (s : State) (code : StatusCode) (ds : List Range) : (s.failWith code ds).done = true := rfl
@[simp] theorem State.failWith_faulted (s : State) (code : StatusCode) (ds : List Range) : (s.failWith code ds).faulted = s.faulted := rfl
@[simp] theorem State.failWith_result (s : State) (code : StatusCode) (ds : List Range) : (s.failWith code ds).result = if code = .ok then 0 else 0 := rfl
@[simp] theorem State.failWith_cmd (s : State) (code : StatusCode) (ds : List Range) : (s.failWith code ds).cmd = s.cmd := rfl
@[simp] theorem State.failWith_desc (s : State) (code : StatusCode) (ds : List Range) : (s.failWith code ds).desc = s.desc := rfl
@[simp] theorem State.failWith_ie (s : State) (code : StatusCode) (ds : List Range) : (s.failWith code ds).ie = s.ie := rfl
@[simp] theorem State.failWith_slots (s : State) (code : StatusCode) (ds : List Range) : (s.failWith code ds).slots = s.slots := rfl
@[simp] theorem State.failWith_mem (s : State) (code : StatusCode) (ds : List Range) : (s.failWith code ds).mem = eraseRanges s.mem ds := rfl
@[simp] theorem State.failWith_latch (s : State) (code : StatusCode) (ds : List Range) : (s.failWith code ds).latch = none := rfl
@[simp] theorem State.failWith_modelFaults (s : State) (code : StatusCode) (ds : List Range) : (s.failWith code ds).modelFaults = s.modelFaults := rfl
@[simp] theorem State.failWith_turns (s : State) (code : StatusCode) (ds : List Range) : (s.failWith code ds).turns = s.turns := rfl
@[simp] theorem State.failWith_hostReads (s : State) (code : StatusCode) (ds : List Range) : (s.failWith code ds).hostReads = s.hostReads := rfl
@[simp] theorem State.failWith_draws (s : State) (code : StatusCode) (ds : List Range) : (s.failWith code ds).draws = s.draws := rfl

/-! ## failInvariant -/

@[simp] theorem State.failInvariant_params (s : State) (ds : List Range) : (s.failInvariant ds).params = s.params := rfl
@[simp] theorem State.failInvariant_err (s : State) (ds : List Range) : (s.failInvariant ds).err = .invariant := rfl
@[simp] theorem State.failInvariant_done (s : State) (ds : List Range) : (s.failInvariant ds).done = true := rfl
@[simp] theorem State.failInvariant_faulted (s : State) (ds : List Range) : (s.failInvariant ds).faulted = true := rfl
@[simp] theorem State.failInvariant_result (s : State) (ds : List Range) : (s.failInvariant ds).result = 0 := rfl
@[simp] theorem State.failInvariant_cmd (s : State) (ds : List Range) : (s.failInvariant ds).cmd = s.cmd := rfl
@[simp] theorem State.failInvariant_desc (s : State) (ds : List Range) : (s.failInvariant ds).desc = s.desc := rfl
@[simp] theorem State.failInvariant_ie (s : State) (ds : List Range) : (s.failInvariant ds).ie = s.ie := rfl
@[simp] theorem State.failInvariant_slots (s : State) (ds : List Range) : (s.failInvariant ds).slots = s.slots := rfl
@[simp] theorem State.failInvariant_mem (s : State) (ds : List Range) : (s.failInvariant ds).mem = eraseRanges s.mem ds := rfl
@[simp] theorem State.failInvariant_latch (s : State) (ds : List Range) : (s.failInvariant ds).latch = none := rfl
@[simp] theorem State.failInvariant_modelFaults (s : State) (ds : List Range) : (s.failInvariant ds).modelFaults = s.modelFaults := rfl
@[simp] theorem State.failInvariant_turns (s : State) (ds : List Range) : (s.failInvariant ds).turns = s.turns := rfl
@[simp] theorem State.failInvariant_hostReads (s : State) (ds : List Range) : (s.failInvariant ds).hostReads = s.hostReads := rfl
@[simp] theorem State.failInvariant_draws (s : State) (ds : List Range) : (s.failInvariant ds).draws = s.draws := rfl

/-! ## finish -/

@[simp] theorem State.finish_params (s : State) (r : BitVec 32) (ds : List Range) (vs : List Nat) : (s.finish r ds vs).params = s.params := rfl
@[simp] theorem State.finish_err (s : State) (r : BitVec 32) (ds : List Range) (vs : List Nat) : (s.finish r ds vs).err = .ok := rfl
@[simp] theorem State.finish_done (s : State) (r : BitVec 32) (ds : List Range) (vs : List Nat) : (s.finish r ds vs).done = true := rfl
@[simp] theorem State.finish_faulted (s : State) (r : BitVec 32) (ds : List Range) (vs : List Nat) : (s.finish r ds vs).faulted = s.faulted := rfl
@[simp] theorem State.finish_result (s : State) (r : BitVec 32) (ds : List Range) (vs : List Nat) : (s.finish r ds vs).result = r := rfl
@[simp] theorem State.finish_cmd (s : State) (r : BitVec 32) (ds : List Range) (vs : List Nat) : (s.finish r ds vs).cmd = s.cmd := rfl
@[simp] theorem State.finish_desc (s : State) (r : BitVec 32) (ds : List Range) (vs : List Nat) : (s.finish r ds vs).desc = s.desc := rfl
@[simp] theorem State.finish_ie (s : State) (r : BitVec 32) (ds : List Range) (vs : List Nat) : (s.finish r ds vs).ie = s.ie := rfl
@[simp] theorem State.finish_slots (s : State) (r : BitVec 32) (ds : List Range) (vs : List Nat) : (s.finish r ds vs).slots = s.slots := rfl
@[simp] theorem State.finish_mem (s : State) (r : BitVec 32) (ds : List Range) (vs : List Nat) : (s.finish r ds vs).mem = writeRanges s.params.w s.mem ds vs := rfl
@[simp] theorem State.finish_latch (s : State) (r : BitVec 32) (ds : List Range) (vs : List Nat) : (s.finish r ds vs).latch = none := rfl
@[simp] theorem State.finish_modelFaults (s : State) (r : BitVec 32) (ds : List Range) (vs : List Nat) : (s.finish r ds vs).modelFaults = s.modelFaults := rfl
@[simp] theorem State.finish_turns (s : State) (r : BitVec 32) (ds : List Range) (vs : List Nat) : (s.finish r ds vs).turns = s.turns := rfl
@[simp] theorem State.finish_hostReads (s : State) (r : BitVec 32) (ds : List Range) (vs : List Nat) : (s.finish r ds vs).hostReads = s.hostReads := rfl
@[simp] theorem State.finish_draws (s : State) (r : BitVec 32) (ds : List Range) (vs : List Nat) : (s.finish r ds vs).draws = s.draws := rfl

/-! ## setSlot -/

@[simp] theorem State.setSlot_params (s : State) (c : Nat) (x : Slot) : (s.setSlot c x).params = s.params := rfl
@[simp] theorem State.setSlot_err (s : State) (c : Nat) (x : Slot) : (s.setSlot c x).err = s.err := rfl
@[simp] theorem State.setSlot_done (s : State) (c : Nat) (x : Slot) : (s.setSlot c x).done = s.done := rfl
@[simp] theorem State.setSlot_faulted (s : State) (c : Nat) (x : Slot) : (s.setSlot c x).faulted = s.faulted := rfl
@[simp] theorem State.setSlot_result (s : State) (c : Nat) (x : Slot) : (s.setSlot c x).result = s.result := rfl
@[simp] theorem State.setSlot_cmd (s : State) (c : Nat) (x : Slot) : (s.setSlot c x).cmd = s.cmd := rfl
@[simp] theorem State.setSlot_desc (s : State) (c : Nat) (x : Slot) : (s.setSlot c x).desc = s.desc := rfl
@[simp] theorem State.setSlot_ie (s : State) (c : Nat) (x : Slot) : (s.setSlot c x).ie = s.ie := rfl
@[simp] theorem State.setSlot_slots (s : State) (c : Nat) (x : Slot) : (s.setSlot c x).slots = s.slots.set c x := rfl
@[simp] theorem State.setSlot_mem (s : State) (c : Nat) (x : Slot) : (s.setSlot c x).mem = s.mem := rfl
@[simp] theorem State.setSlot_latch (s : State) (c : Nat) (x : Slot) : (s.setSlot c x).latch = s.latch := rfl
@[simp] theorem State.setSlot_modelFaults (s : State) (c : Nat) (x : Slot) : (s.setSlot c x).modelFaults = s.modelFaults := rfl
@[simp] theorem State.setSlot_turns (s : State) (c : Nat) (x : Slot) : (s.setSlot c x).turns = s.turns := rfl
@[simp] theorem State.setSlot_hostReads (s : State) (c : Nat) (x : Slot) : (s.setSlot c x).hostReads = s.hostReads := rfl
@[simp] theorem State.setSlot_draws (s : State) (c : Nat) (x : Slot) : (s.setSlot c x).draws = s.draws := rfl

/-! ## issue -/

@[simp] theorem State.issue_params (s : State) (v : BitVec 32) : (s.issue v).params = s.params := rfl
@[simp] theorem State.issue_err (s : State) (v : BitVec 32) : (s.issue v).err = s.err := rfl
@[simp] theorem State.issue_done (s : State) (v : BitVec 32) : (s.issue v).done = s.done := rfl
@[simp] theorem State.issue_faulted (s : State) (v : BitVec 32) : (s.issue v).faulted = s.faulted := rfl
@[simp] theorem State.issue_result (s : State) (v : BitVec 32) : (s.issue v).result = s.result := rfl
@[simp] theorem State.issue_cmd (s : State) (v : BitVec 32) : (s.issue v).cmd = v := rfl
@[simp] theorem State.issue_desc (s : State) (v : BitVec 32) : (s.issue v).desc = s.desc := rfl
@[simp] theorem State.issue_ie (s : State) (v : BitVec 32) : (s.issue v).ie = s.ie := rfl
@[simp] theorem State.issue_slots (s : State) (v : BitVec 32) : (s.issue v).slots = s.slots := rfl
@[simp] theorem State.issue_mem (s : State) (v : BitVec 32) : (s.issue v).mem = s.mem := rfl
@[simp] theorem State.issue_latch (s : State) (v : BitVec 32) : (s.issue v).latch = some { cmd := v, desc := s.desc } := rfl
@[simp] theorem State.issue_modelFaults (s : State) (v : BitVec 32) : (s.issue v).modelFaults = s.modelFaults := rfl
@[simp] theorem State.issue_turns (s : State) (v : BitVec 32) : (s.issue v).turns = s.turns := rfl
@[simp] theorem State.issue_hostReads (s : State) (v : BitVec 32) : (s.issue v).hostReads = s.hostReads := rfl
@[simp] theorem State.issue_draws (s : State) (v : BitVec 32) : (s.issue v).draws = s.draws := rfl

/-! ## withCommand -/

@[simp] theorem State.withCommand_params (s : State) (v : BitVec 32) : (s.withCommand v).params = s.params := rfl
@[simp] theorem State.withCommand_err (s : State) (v : BitVec 32) : (s.withCommand v).err = s.err := rfl
@[simp] theorem State.withCommand_done (s : State) (v : BitVec 32) : (s.withCommand v).done = s.done := rfl
@[simp] theorem State.withCommand_faulted (s : State) (v : BitVec 32) : (s.withCommand v).faulted = s.faulted := rfl
@[simp] theorem State.withCommand_result (s : State) (v : BitVec 32) : (s.withCommand v).result = s.result := rfl
@[simp] theorem State.withCommand_cmd (s : State) (v : BitVec 32) : (s.withCommand v).cmd = v := rfl
@[simp] theorem State.withCommand_desc (s : State) (v : BitVec 32) : (s.withCommand v).desc = s.desc := rfl
@[simp] theorem State.withCommand_ie (s : State) (v : BitVec 32) : (s.withCommand v).ie = s.ie := rfl
@[simp] theorem State.withCommand_slots (s : State) (v : BitVec 32) : (s.withCommand v).slots = s.slots := rfl
@[simp] theorem State.withCommand_mem (s : State) (v : BitVec 32) : (s.withCommand v).mem = s.mem := rfl
@[simp] theorem State.withCommand_latch (s : State) (v : BitVec 32) : (s.withCommand v).latch = some { cmd := v, desc := s.desc } := rfl
@[simp] theorem State.withCommand_modelFaults (s : State) (v : BitVec 32) : (s.withCommand v).modelFaults = s.modelFaults := rfl
@[simp] theorem State.withCommand_turns (s : State) (v : BitVec 32) : (s.withCommand v).turns = .engine :: s.turns := rfl
@[simp] theorem State.withCommand_hostReads (s : State) (v : BitVec 32) : (s.withCommand v).hostReads = s.hostReads := rfl
@[simp] theorem State.withCommand_draws (s : State) (v : BitVec 32) : (s.withCommand v).draws = s.draws := rfl

/-! ## rejectIllegal -/

@[simp] theorem State.rejectIllegal_params (s : State) : s.rejectIllegal.params = s.params := rfl
@[simp] theorem State.rejectIllegal_err (s : State) : s.rejectIllegal.err = if s.faulted then .aborted else .illegal := rfl
@[simp] theorem State.rejectIllegal_done (s : State) : s.rejectIllegal.done = true := rfl
@[simp] theorem State.rejectIllegal_faulted (s : State) : s.rejectIllegal.faulted = s.faulted := rfl
@[simp] theorem State.rejectIllegal_cmd (s : State) : s.rejectIllegal.cmd = s.cmd := rfl
@[simp] theorem State.rejectIllegal_desc (s : State) : s.rejectIllegal.desc = s.desc := rfl
@[simp] theorem State.rejectIllegal_ie (s : State) : s.rejectIllegal.ie = s.ie := rfl
@[simp] theorem State.rejectIllegal_slots (s : State) : s.rejectIllegal.slots = s.slots := rfl
@[simp] theorem State.rejectIllegal_mem (s : State) : s.rejectIllegal.mem = s.mem := rfl
@[simp] theorem State.rejectIllegal_latch (s : State) : s.rejectIllegal.latch = none := rfl
@[simp] theorem State.rejectIllegal_modelFaults (s : State) : s.rejectIllegal.modelFaults = s.modelFaults := rfl
@[simp] theorem State.rejectIllegal_turns (s : State) : s.rejectIllegal.turns = s.turns := rfl
@[simp] theorem State.rejectIllegal_hostReads (s : State) : s.rejectIllegal.hostReads = s.hostReads := rfl
@[simp] theorem State.rejectIllegal_draws (s : State) : s.rejectIllegal.draws = s.draws := rfl

/-! ## okWith -/

@[simp] theorem State.okWith_params (s : State) (r : BitVec 32) (m : Memory) : (s.okWith r m).params = s.params := rfl
@[simp] theorem State.okWith_err (s : State) (r : BitVec 32) (m : Memory) : (s.okWith r m).err = .ok := rfl
@[simp] theorem State.okWith_done (s : State) (r : BitVec 32) (m : Memory) : (s.okWith r m).done = true := rfl
@[simp] theorem State.okWith_faulted (s : State) (r : BitVec 32) (m : Memory) : (s.okWith r m).faulted = s.faulted := rfl
@[simp] theorem State.okWith_result (s : State) (r : BitVec 32) (m : Memory) : (s.okWith r m).result = r := rfl
@[simp] theorem State.okWith_cmd (s : State) (r : BitVec 32) (m : Memory) : (s.okWith r m).cmd = s.cmd := rfl
@[simp] theorem State.okWith_desc (s : State) (r : BitVec 32) (m : Memory) : (s.okWith r m).desc = s.desc := rfl
@[simp] theorem State.okWith_ie (s : State) (r : BitVec 32) (m : Memory) : (s.okWith r m).ie = s.ie := rfl
@[simp] theorem State.okWith_slots (s : State) (r : BitVec 32) (m : Memory) : (s.okWith r m).slots = s.slots := rfl
@[simp] theorem State.okWith_mem (s : State) (r : BitVec 32) (m : Memory) : (s.okWith r m).mem = m := rfl
@[simp] theorem State.okWith_latch (s : State) (r : BitVec 32) (m : Memory) : (s.okWith r m).latch = none := rfl
@[simp] theorem State.okWith_modelFaults (s : State) (r : BitVec 32) (m : Memory) : (s.okWith r m).modelFaults = s.modelFaults := rfl
@[simp] theorem State.okWith_turns (s : State) (r : BitVec 32) (m : Memory) : (s.okWith r m).turns = s.turns := rfl
@[simp] theorem State.okWith_hostReads (s : State) (r : BitVec 32) (m : Memory) : (s.okWith r m).hostReads = s.hostReads := rfl
@[simp] theorem State.okWith_draws (s : State) (r : BitVec 32) (m : Memory) : (s.okWith r m).draws = s.draws := rfl

/-! ## endedWith -/

@[simp] theorem State.endedWith_params (s : State) (code : StatusCode) : (s.endedWith code).params = s.params := rfl
@[simp] theorem State.endedWith_err (s : State) (code : StatusCode) : (s.endedWith code).err = code := rfl
@[simp] theorem State.endedWith_done (s : State) (code : StatusCode) : (s.endedWith code).done = true := rfl
@[simp] theorem State.endedWith_faulted (s : State) (code : StatusCode) : (s.endedWith code).faulted = s.faulted := rfl
@[simp] theorem State.endedWith_result (s : State) (code : StatusCode) : (s.endedWith code).result = 0 := rfl
@[simp] theorem State.endedWith_cmd (s : State) (code : StatusCode) : (s.endedWith code).cmd = s.cmd := rfl
@[simp] theorem State.endedWith_desc (s : State) (code : StatusCode) : (s.endedWith code).desc = s.desc := rfl
@[simp] theorem State.endedWith_ie (s : State) (code : StatusCode) : (s.endedWith code).ie = s.ie := rfl
@[simp] theorem State.endedWith_slots (s : State) (code : StatusCode) : (s.endedWith code).slots = s.slots := rfl
@[simp] theorem State.endedWith_mem (s : State) (code : StatusCode) : (s.endedWith code).mem = s.mem := rfl
@[simp] theorem State.endedWith_latch (s : State) (code : StatusCode) : (s.endedWith code).latch = none := rfl
@[simp] theorem State.endedWith_modelFaults (s : State) (code : StatusCode) : (s.endedWith code).modelFaults = s.modelFaults := rfl
@[simp] theorem State.endedWith_turns (s : State) (code : StatusCode) : (s.endedWith code).turns = s.turns := rfl
@[simp] theorem State.endedWith_hostReads (s : State) (code : StatusCode) : (s.endedWith code).hostReads = s.hostReads := rfl
@[simp] theorem State.endedWith_draws (s : State) (code : StatusCode) : (s.endedWith code).draws = s.draws := rfl

/-! ## spoiledWith -/

@[simp] theorem State.spoiledWith_params (s : State) (code : StatusCode) (ds : List Range) : (s.spoiledWith code ds).params = s.params := rfl
@[simp] theorem State.spoiledWith_err (s : State) (code : StatusCode) (ds : List Range) : (s.spoiledWith code ds).err = code := rfl
@[simp] theorem State.spoiledWith_done (s : State) (code : StatusCode) (ds : List Range) : (s.spoiledWith code ds).done = true := rfl
@[simp] theorem State.spoiledWith_faulted (s : State) (code : StatusCode) (ds : List Range) : (s.spoiledWith code ds).faulted = s.faulted := rfl
@[simp] theorem State.spoiledWith_result (s : State) (code : StatusCode) (ds : List Range) : (s.spoiledWith code ds).result = 0 := rfl
@[simp] theorem State.spoiledWith_cmd (s : State) (code : StatusCode) (ds : List Range) : (s.spoiledWith code ds).cmd = s.cmd := rfl
@[simp] theorem State.spoiledWith_desc (s : State) (code : StatusCode) (ds : List Range) : (s.spoiledWith code ds).desc = s.desc := rfl
@[simp] theorem State.spoiledWith_ie (s : State) (code : StatusCode) (ds : List Range) : (s.spoiledWith code ds).ie = s.ie := rfl
@[simp] theorem State.spoiledWith_slots (s : State) (code : StatusCode) (ds : List Range) : (s.spoiledWith code ds).slots = s.slots := rfl
@[simp] theorem State.spoiledWith_mem (s : State) (code : StatusCode) (ds : List Range) : (s.spoiledWith code ds).mem = eraseRanges s.mem ds := rfl
@[simp] theorem State.spoiledWith_latch (s : State) (code : StatusCode) (ds : List Range) : (s.spoiledWith code ds).latch = none := rfl
@[simp] theorem State.spoiledWith_modelFaults (s : State) (code : StatusCode) (ds : List Range) : (s.spoiledWith code ds).modelFaults = s.modelFaults := rfl
@[simp] theorem State.spoiledWith_turns (s : State) (code : StatusCode) (ds : List Range) : (s.spoiledWith code ds).turns = s.turns := rfl
@[simp] theorem State.spoiledWith_hostReads (s : State) (code : StatusCode) (ds : List Range) : (s.spoiledWith code ds).hostReads = s.hostReads := rfl
@[simp] theorem State.spoiledWith_draws (s : State) (code : StatusCode) (ds : List Range) : (s.spoiledWith code ds).draws = s.draws := rfl

/-! ## recordFault -/

@[simp] theorem State.recordFault_params (s : State) (k : ModelFault) : (s.recordFault k).params = s.params := by
  unfold State.recordFault; split <;> rfl
@[simp] theorem State.recordFault_err (s : State) (k : ModelFault) : (s.recordFault k).err = s.err := by
  unfold State.recordFault; split <;> rfl
@[simp] theorem State.recordFault_done (s : State) (k : ModelFault) : (s.recordFault k).done = s.done := by
  unfold State.recordFault; split <;> rfl
@[simp] theorem State.recordFault_faulted (s : State) (k : ModelFault) : (s.recordFault k).faulted = s.faulted := by
  unfold State.recordFault; split <;> rfl
@[simp] theorem State.recordFault_result (s : State) (k : ModelFault) : (s.recordFault k).result = s.result := by
  unfold State.recordFault; split <;> rfl
@[simp] theorem State.recordFault_cmd (s : State) (k : ModelFault) : (s.recordFault k).cmd = s.cmd := by
  unfold State.recordFault; split <;> rfl
@[simp] theorem State.recordFault_desc (s : State) (k : ModelFault) : (s.recordFault k).desc = s.desc := by
  unfold State.recordFault; split <;> rfl
@[simp] theorem State.recordFault_ie (s : State) (k : ModelFault) : (s.recordFault k).ie = s.ie := by
  unfold State.recordFault; split <;> rfl
@[simp] theorem State.recordFault_slots (s : State) (k : ModelFault) : (s.recordFault k).slots = s.slots := by
  unfold State.recordFault; split <;> rfl
@[simp] theorem State.recordFault_mem (s : State) (k : ModelFault) : (s.recordFault k).mem = s.mem := by
  unfold State.recordFault; split <;> rfl
@[simp] theorem State.recordFault_latch (s : State) (k : ModelFault) : (s.recordFault k).latch = s.latch := by
  unfold State.recordFault; split <;> rfl
@[simp] theorem State.recordFault_turns (s : State) (k : ModelFault) : (s.recordFault k).turns = s.turns := by
  unfold State.recordFault; split <;> rfl
@[simp] theorem State.recordFault_hostReads (s : State) (k : ModelFault) : (s.recordFault k).hostReads = s.hostReads := by
  unfold State.recordFault; split <;> rfl
@[simp] theorem State.recordFault_draws (s : State) (k : ModelFault) : (s.recordFault k).draws = s.draws := by
  unfold State.recordFault; split <;> rfl

theorem State.mem_recordFault (s : State) (k j : ModelFault) :
    j ∈ (s.recordFault k).modelFaults ↔ j ∈ s.modelFaults ∨ j = k := by
  unfold State.recordFault
  split
  · rename_i h; constructor
    · exact .inl
    · rintro (h' | rfl) <;> assumption
  · simp

theorem State.recordFault_nodup {s : State} (h : s.modelFaults.Nodup) (k : ModelFault) :
    (s.recordFault k).modelFaults.Nodup := by
  unfold State.recordFault
  split
  · exact h
  · rename_i hk
    simp only [List.nodup_append, h, List.nodup_singleton, List.mem_singleton, true_and]
    rintro a ha b rfl rfl
    exact hk ha

/-- The record after the first fault holds that kind alone. -/
theorem State.recordFault_of_nil {s : State} (h : s.modelFaults = []) (k : ModelFault) :
    s.recordFault k = { s with modelFaults := [k] } := by
  simp [State.recordFault, h]

/-! ## The ways a command ends -/

theorem State.complete_eq_endedWith (s : State) {code : StatusCode} (h : code ≠ .ok) (r : BitVec 32) :
    s.complete code r = s.endedWith code := by
  simp [State.complete, State.endedWith, h]

theorem State.finish_eq_okWith (s : State) (r : BitVec 32) (ds : List Range) (vs : List Nat) :
    s.finish r ds vs = s.okWith r (writeRanges s.params.w s.mem ds vs) := rfl

theorem State.failWith_eq_spoiledWith (s : State) (code : StatusCode) (ds : List Range) :
    s.failWith code ds = s.spoiledWith code ds := by
  simp [State.failWith, State.spoiledWith, State.endedWith, State.complete]

theorem State.rejectIllegal_eq (s : State) :
    s.rejectIllegal = s.endedWith (if s.faulted then .aborted else .illegal) := by
  unfold State.rejectIllegal
  cases s.faulted <;> rfl

theorem State.busy_iff (s : State) : s.busy = true ↔ ∃ l, s.latch = some l := by
  simp [State.busy, Option.isSome_iff_exists]

end Sys2Proof.Machine
end

