-- ==== Sys2Proof/Laws/Perform.lean ====
section
/-!
SUPPORT. What the common execution procedure can do (30_encoding.md R130), said once: `performed_cases` for every
command, `conclude_cases` for its end, and `performed_of_ready` for a command that executes normally.
-/

namespace Sys2Proof.Machine

/-! ## The ranges -/

theorem Range.legal_iff (p : Params) (r : Range) : r.legal p = true ↔ 1 ≤ r.len ∧ r.base + r.len ≤ p.memWords := by
  simp [Range.legal]

theorem Range.overlaps_eq_false {r q : Range} : r.overlaps q = false ↔ r.Apart q := by
  simp only [Range.overlaps, Range.Apart, Bool.and_eq_false_iff, decide_eq_false_iff_not]
  omega

theorem Range.apartOrSame_iff {r q : Range} : r.apartOrSame q = true ↔ r = q ∨ r.Apart q := by
  simp only [Range.apartOrSame, Bool.or_eq_true, Bool.not_eq_true', Range.overlaps_eq_false, decide_eq_true_eq]
  tauto

theorem State.readRanges_eq_some {s : State} {srcs : List (Range × Nat)}
    (h : ∀ x ∈ srcs, s.readRange x.1 = some x.2) : s.readRanges (srcs.map Prod.fst) = some (srcs.map Prod.snd) := by
  induction srcs with
  | nil => rfl
  | cons x xs ih =>
    simp only [List.map_cons, State.readRanges, h x (by simp), ih fun y hy => h y (List.mem_cons_of_mem _ hy)]

/-- Step 8 fails exactly when a word of a source range is uninitialised (20_memory.md R84). -/
theorem State.readRanges_eq_none {s : State} {rs : List Range} :
    s.readRanges rs = none ↔ ∃ r ∈ rs, ∃ a, r.covers a = true ∧ s.mem.read a = none := by
  induction rs with
  | nil => simp [State.readRanges]
  | cons r rs ih =>
    have hr : s.readRange r = none ↔ ∃ a, r.covers a = true ∧ s.mem.read a = none := by
      simp only [State.readRange, Memory.readLimbs_eq_none, Range.covers_iff, and_assoc]
    rcases h1 : s.readRange r with _ | v <;> rcases h2 : s.readRanges rs with _ | vs
    · simp only [State.readRanges, h1, true_iff]
      obtain ⟨a, ha⟩ := hr.mp h1; exact ⟨r, by simp, a, ha⟩
    · simp only [State.readRanges, h1, true_iff]
      obtain ⟨a, ha⟩ := hr.mp h1; exact ⟨r, by simp, a, ha⟩
    · simp only [State.readRanges, h1, h2, true_iff]
      obtain ⟨q, hq, ha⟩ := ih.mp h2; exact ⟨q, List.mem_cons_of_mem _ hq, ha⟩
    · simp only [State.readRanges, h1, h2, reduceCtorEq, false_iff]
      rintro ⟨q, hq, a, ha⟩
      rcases List.mem_cons.mp hq with rfl | hq
      · exact absurd (hr.mpr ⟨a, ha⟩) (by simp [h1])
      · exact absurd (ih.mpr ⟨q, hq, a, ha⟩) (by simp [h2])

/-! ## The procedure -/

/-- Steps 1 to 7 of 30_encoding.md R130 pass. -/
abbrev PassesChecks (i : Instr) (s : State) : Prop :=
  s.faulted = false ∧ slotOk i s = true ∧ lengthsOk i s = true ∧ rangesOk i s = true ∧ aliasOk i s = true ∧
    selectorOk i = true

/-- Everything the engine's step for a command can do: ABORTED, PARAM from steps 3 to 5, one of the three model faults,
or the body's conclusion. -/
theorem performed_cases (i : Instr) (s : State) (body : Operands → Effect) :
    (s.faulted = true ∧ performed i s body = s.endedWith .aborted) ∨
    (s.faulted = false ∧ (slotOk i s = false ∨ lengthsOk i s = false ∨ rangesOk i s = false) ∧
      performed i s body = s.endedWith .param) ∨
    (s.faulted = false ∧ slotOk i s = true ∧ lengthsOk i s = true ∧ rangesOk i s = true ∧ aliasOk i s = false ∧
      performed i s body = s.recordFault .aliasing) ∨
    (s.faulted = false ∧ slotOk i s = true ∧ lengthsOk i s = true ∧ rangesOk i s = true ∧ aliasOk i s = true ∧
      selectorOk i = false ∧ performed i s body = s.recordFault .selector) ∨
    (PassesChecks i s ∧ s.readRanges (sourcesOf i s) = none ∧ performed i s body = s.recordFault .uninit) ∨
    (PassesChecks i s ∧ ∃ vs, s.readRanges (sourcesOf i s) = some vs ∧
      performed i s body = s.conclude i (body (operandsOf i s vs))) := by
  have ha := State.complete_eq_endedWith s (code := .aborted) (by decide)
  have hp := State.complete_eq_endedWith s (code := .param) (by decide)
  unfold performed PassesChecks
  rcases h1 : s.faulted <;> rcases h2 : slotOk i s <;> rcases h3 : lengthsOk i s <;> rcases h4 : rangesOk i s <;>
    rcases h5 : aliasOk i s <;> rcases h6 : selectorOk i <;> rcases h7 : s.readRanges (sourcesOf i s) <;>
    simp [ha, hp]

theorem performed_of_passes {i : Instr} {s : State} (h : PassesChecks i s) {vs : List Nat}
    (hv : s.readRanges (sourcesOf i s) = some vs) (body : Operands → Effect) :
    performed i s body = s.conclude i (body (operandsOf i s vs)) := by
  obtain ⟨h1, h2, h3, h4, h5, h6⟩ := h
  simp [performed, h1, h2, h3, h4, h5, h6, hv]

/-- SCRATCH_OK fails at the listed arguments, and only there (00_scope.md R10). -/
theorem scratchOk_iff (i : Instr) (s : State) : scratchOk i s = true ↔ scratchQuery i s ∉ s.params.scratchFails := by
  simp [scratchOk]

/-- SCRATCH_OK does not depend on a length register the format does not name (10_state.md R39). -/
theorem scratchQuery_congr {i : Instr} {s t : State} (hn : limbCount i t = limbCount i s)
    (ha : (formatOf i).namesLenA = true → t.operandDesc.lenA = s.operandDesc.lenA)
    (hb : (formatOf i).namesLenB = true → t.operandDesc.lenB = s.operandDesc.lenB) :
    scratchQuery i t = scratchQuery i s := by
  unfold scratchQuery
  rcases h1 : (formatOf i).namesLenA <;> rcases h2 : (formatOf i).namesLenB <;> simp_all

/-- Everything the end of a command can do (60_exceptions.md R405–R408, R413). -/
theorem conclude_cases (s : State) (i : Instr) (e : Effect) :
    (e = .param ∧ s.conclude i e = s.endedWith .param) ∨
    (e ≠ .param ∧ scratchOk i s = false ∧ s.conclude i e = s.failResource i) ∨
    (scratchOk i s = true ∧
      ((e = .noInverse ∧ s.conclude i e = s.spoiledWith .noInverse (destsOf i s)) ∨
       (e = .invariant ∧ s.conclude i e = { s.spoiledWith .invariant (destsOf i s) with faulted := true }) ∨
       (∃ r vs, e = .write r vs ∧ s.conclude i e = s.okWith r (writeRanges s.params.w s.mem (destsOf i s) vs)) ∨
       ∃ c, e = .build c ∧ s.conclude i e = { s.okWith 0 s.mem with slots := s.slots.set (ctxOf i) c })) := by
  have hp := State.complete_eq_endedWith s (code := .param) (by decide)
  have hi : s.failInvariant (destsOf i s) = { s.spoiledWith .invariant (destsOf i s) with faulted := true } := by
    unfold State.failInvariant; rw [State.failWith_eq_spoiledWith]
  have hb : ∀ c, (s.setSlot (ctxOf i) c).complete .ok 0#32 =
      { s.okWith 0 s.mem with slots := s.slots.set (ctxOf i) c } := fun c => rfl
  rcases h : scratchOk i s <;> cases e <;>
    simp [State.conclude, h, hp, hi, hb, State.failWith_eq_spoiledWith, State.finish_eq_okWith]

/-- RESOURCE (60_exceptions.md R403, R407): the destinations are spoilt; RING_INIT's slot becomes invalid. -/
theorem failResource_cases (s : State) (i : Instr) :
    (formatOf i ≠ .init ∧ s.failResource i = s.spoiledWith .resource (destsOf i s)) ∨
    (formatOf i = .init ∧ s.failResource i =
      { s.spoiledWith .resource (destsOf i s) with
        slots := s.slots.set (ctxOf i) { s.slot (ctxOf i) with valid := false } }) := by
  unfold State.failResource
  rw [State.failWith_eq_spoiledWith]
  by_cases h : formatOf i = .init
  · refine .inr ⟨h, ?_⟩; simp only [if_pos h]; rfl
  · refine .inl ⟨h, ?_⟩; simp only [if_neg h]

/-! ## A command that executes normally -/

theorem rangesOk_of_ready {i : Instr} {s : State} {srcs : List (Range × Nat)} {dsts : List Range}
    (h : Ready i s srcs dsts) (hs : sourcesOf i s = srcs.map Prod.fst) (hd : destsOf i s = dsts) :
    rangesOk i s = true := by
  obtain ⟨-, -, h1, h2, -⟩ := h
  simp only [rangesOk, hs, hd, Bool.and_eq_true, List.all_eq_true, Range.legal_iff]
  refine ⟨?_, fun d hd => h2 d hd⟩
  intro r hr
  obtain ⟨x, hx, rfl⟩ := List.mem_map.mp hr
  exact (h1 x hx).1

/-- The alias rule for a format whose destinations may equal a source (30_encoding.md R131). -/
theorem aliasFree_of_ready {i : Instr} {s : State} {srcs : List (Range × Nat)} {dsts : List Range}
    (h : Ready i s srcs dsts) {f : Format} (hf : f ≠ .mul ∧ f ≠ .sqr) (hd : f.destsApart dsts = true) :
    f.aliasFree (srcs.map Prod.fst) dsts = true := by
  obtain ⟨-, -, -, -, h3⟩ := h
  have key : ∀ d ∈ dsts, f.destAgainstSources d (srcs.map Prod.fst) = true := by
    intro d hd
    have : (srcs.map Prod.fst).all (fun src => d.apartOrSame src) = true := by
      simp only [List.all_eq_true, Range.apartOrSame_iff]
      intro r hr
      obtain ⟨x, hx, rfl⟩ := List.mem_map.mp hr
      exact h3 d hd x hx
    unfold Format.destAgainstSources
    split
    · exact absurd rfl hf.1
    · exact absurd rfl hf.2
    · exact this
  simp only [Format.aliasFree, Bool.and_eq_true, List.all_eq_true]
  exact ⟨key, hd⟩

/-- A ready command runs its body on the values of its sources. -/
theorem performed_of_ready {i : Instr} {s : State} {srcs : List (Range × Nat)} {dsts : List Range}
    (h : Ready i s srcs dsts) (hs : sourcesOf i s = srcs.map Prod.fst) (hd : destsOf i s = dsts)
    (hslot : slotOk i s = true) (hlen : lengthsOk i s = true) (hsel : selectorOk i = true)
    (ha : (formatOf i).aliasFree (srcs.map Prod.fst) dsts = true) (body : Operands → Effect) :
    performed i s body = s.conclude i (body (operandsOf i s (srcs.map Prod.snd))) := by
  refine performed_of_passes ⟨h.1, hslot, hlen, rangesOk_of_ready h hs hd, ?_, hsel⟩ ?_ body
  · rw [aliasOk, hs, hd]; exact ha
  · rw [hs]; exact State.readRanges_eq_some fun x hx => (h.2.2.1 x hx).2

/-- The end of a ready command that writes: OK with its result and its destinations. -/
theorem conclude_write_of_ready {i : Instr} {s : State} {srcs : List (Range × Nat)} {dsts : List Range}
    (h : Ready i s srcs dsts) (hd : destsOf i s = dsts) (r : BitVec 32) (vs : List Nat) :
    s.conclude i (.write r vs) = s.okWith r (writeRanges s.params.w s.mem dsts vs) := by
  simp [State.conclude, h.2.1, hd, State.finish_eq_okWith]

/-- The end of a command whose value precondition fails: PARAM, nothing written. -/
theorem conclude_param (s : State) (i : Instr) : s.conclude i .param = s.endedWith .param :=
  State.complete_eq_endedWith s (by decide) 0#32

end Sys2Proof.Machine
end

