-- ==== Sys2Proof/Laws/Slot.lean ====
section
/-!
SUPPORT. What a well-built slot computes (10_state.md R41; 43_ring.md R290–R296; 44_montgomery.md R320–R329).
-/

namespace Sys2Proof.Machine

theorem Slot.reset_valid : Slot.reset.valid = false := rfl

/-- W is 32 or 64. -/
theorem bits_cases (x : WordSize) : x.bits = 32 ∨ x.bits = 64 := by cases x <;> simp [WordSize.bits]

theorem one_le_w (p : Params) : 1 ≤ p.w := by
  rcases bits_cases p.width with h | h <;> simp [Params.w, h]

/-- RING_INIT builds its slot as R41 describes it. -/
theorem builtSlot_wellBuilt {p : Params} {st : Strategy} {n m : Nat} (hn : 1 ≤ n ∧ n ≤ p.nMax) (h2 : 2 ≤ m)
    (hlo : 2 ^ (p.w * (n - 1)) ≤ m) (hhi : m < 2 ^ (p.w * n)) (hodd : st = .montgomery → m % 2 = 1) :
    (builtSlot p.w st n m).wellBuilt p := by
  have hm0 : m ≠ 0 := by omega
  refine ⟨hn, ⟨h2, hlo, hhi⟩, ⟨two_pow_bitlen_le hm0, lt_two_pow_bitlen m⟩, rfl, ?_, ?_⟩
  · rintro rfl
    have ho := hodd rfl
    refine ⟨ho, ?_, n0invOf_lt _ _, n0invOf_spec (one_le_w p) ho, rfl, ?_⟩
    · show 3 ≤ m; omega
    · show rrOf p.w n m = _; rw [rrOf, radix, Nat.pow_two]; rfl
  · rintro rfl; exact ⟨rfl, rfl, rfl⟩

variable {p : Params} {c : Slot}

theorem Slot.modulus_lt_radix (h : c.wellBuilt p) : c.modulus < radix p.w c.n := h.2.1.2.2

/-- The ring multiply of two elements: a·b mod p, or the v < p with v·R ≡ a·b (43_ring.md R291). -/
theorem Slot.mul_spec (h : c.wellBuilt p) {a b : Nat} (ha : a < c.modulus) (hb : b < c.modulus) :
    ∃ v, c.mul p.w a b = some v ∧ v < c.modulus ∧ (c.strat = .plain → v = a * b % c.modulus) ∧
      (c.strat = .montgomery → v * radix p.w c.n % c.modulus = a * b % c.modulus) := by
  have hp : 0 < c.modulus := by have := h.2.1.1; omega
  unfold Slot.mul
  cases hs : c.strat with
  | plain => exact ⟨_, rfl, Nat.mod_lt _ hp, fun _ => rfl, by simp⟩
  | montgomery =>
    obtain ⟨-, -, -, hn0, -, -⟩ := h.2.2.2.2.1 hs
    have ht : a * b < c.modulus * radix p.w c.n :=
      Nat.mul_lt_mul_of_lt_of_lt ha (hb.trans (Slot.modulus_lt_radix h))
    obtain ⟨v, h1, h2, h3⟩ := redc_spec hn0 ht
    exact ⟨v, h1, h2, by simp, fun _ => h3⟩

/-- The wide reduction of t < p·R never raises INVARIANT (43_ring.md R293; 44_montgomery.md R324). -/
theorem Slot.reduce_spec (h : c.wellBuilt p) {t : Nat} (ht : t < c.modulus * radix p.w c.n) :
    ∃ v, c.reduce p.w t = some v ∧ v < c.modulus ∧ (c.strat = .plain → v = t % c.modulus) ∧
      (c.strat = .montgomery → v * radix p.w c.n % c.modulus = t % c.modulus) := by
  have hp : 0 < c.modulus := by have := h.2.1.1; omega
  unfold Slot.reduce
  cases hs : c.strat with
  | plain => exact ⟨_, rfl, Nat.mod_lt _ hp, fun _ => rfl, by simp⟩
  | montgomery =>
    obtain ⟨-, -, -, hn0, -, -⟩ := h.2.2.2.2.1 hs
    obtain ⟨v, h1, h2, h3⟩ := redc_spec hn0 ht
    exact ⟨v, h1, h2, by simp, fun _ => h3⟩

/-- R is invertible modulo a Montgomery slot's p: multiplying by R is injective on [0, p). -/
theorem Slot.radix_cancel (h : c.wellBuilt p) (hs : c.strat = .montgomery) {x y : Nat}
    (e : x * radix p.w c.n % c.modulus = y * radix p.w c.n % c.modulus) : x % c.modulus = y % c.modulus :=
  Nat.ModEq.cancel_right_of_coprime (Nat.coprime_comm.mp (radix_coprime (h.2.2.2.2.1 hs).1 p.w c.n)) e

/-- φ_c^{-1}(y) is the x < p with φ_c(x) = y (43_ring.md R290). -/
theorem Slot.ofRing_spec (h : c.wellBuilt p) {y : Nat} (hy : y < c.modulus) :
    c.ofRing p.w y < c.modulus ∧ (c.strat = .plain → c.ofRing p.w y = y) ∧
      (c.strat = .montgomery → c.ofRing p.w y * radix p.w c.n % c.modulus = y) := by
  have hp : 1 < c.modulus := by have := h.2.1.1; omega
  unfold Slot.ofRing
  cases hs : c.strat with
  | plain => exact ⟨hy, fun _ => rfl, by simp⟩
  | montgomery =>
    refine ⟨Nat.mod_lt _ (by omega), by simp, fun _ => ?_⟩
    have hco : Nat.gcd (radix p.w c.n % c.modulus) c.modulus = 1 := by
      rw [← Nat.gcd_rec, Nat.gcd_comm]; exact radix_coprime (h.2.2.2.2.1 hs).1 p.w c.n
    have hi := invMod_spec hp hco
    simp only
    rw [Nat.mod_mul_mod, Nat.mul_assoc, Nat.mul_mod, Nat.mul_comm (invMod _ _), Nat.mul_mod (radix p.w c.n)]
    rw [Nat.mul_mod, Nat.mod_mod] at hi
    rw [hi, Nat.mul_one, Nat.mod_mod, Nat.mod_eq_of_lt hy]

theorem Slot.toRing_lt (h : c.wellBuilt p) {x : Nat} (hx : x < c.modulus) : c.toRing p.w x < c.modulus := by
  have hp : 1 < c.modulus := by have := h.2.1.1; omega
  unfold Slot.toRing
  split
  · exact hx
  · exact Nat.mod_lt _ (by omega)

/-- Conversion into the ring is φ_c (43_ring.md R295; 44_montgomery.md R327). -/
theorem Slot.convertIn_spec (h : c.wellBuilt p) {x : Nat} (hx : x < c.modulus) :
    c.convertIn p.w x = some (c.toRing p.w x) := by
  have hp : 1 < c.modulus := by have := h.2.1.1; omega
  unfold Slot.convertIn Slot.toRing
  cases hs : c.strat with
  | plain => rfl
  | montgomery =>
    obtain ⟨-, -, -, hn0, -, hrr⟩ := h.2.2.2.2.1 hs
    have hrr' : c.rr < c.modulus := by rw [hrr]; exact Nat.mod_lt _ (by omega)
    have ht : x * c.rr < c.modulus * radix p.w c.n :=
      Nat.mul_lt_mul_of_lt_of_lt hx (hrr'.trans (Slot.modulus_lt_radix h))
    obtain ⟨v, h1, h2, h3⟩ := redc_spec hn0 ht
    simp only [montMul, h1, Option.some.injEq]
    have e : v * radix p.w c.n % c.modulus = x * radix p.w c.n * radix p.w c.n % c.modulus := by
      rw [h3, hrr, Nat.mul_mod, Nat.mod_mod, ← Nat.mul_mod, Nat.mul_assoc, ← Nat.pow_two]; rfl
    have := Slot.radix_cancel h hs e
    rw [Nat.mod_eq_of_lt h2] at this
    exact this

/-- Conversion out of the ring is φ_c^{-1} (43_ring.md R296; 44_montgomery.md R328). -/
theorem Slot.convertOut_spec (h : c.wellBuilt p) {y : Nat} (hy : y < c.modulus) :
    c.convertOut p.w y = some (c.ofRing p.w y) := by
  obtain ⟨h1, h2, h3⟩ := Slot.ofRing_spec h hy
  unfold Slot.convertOut
  cases hs : c.strat with
  | plain => rw [h2 hs]
  | montgomery =>
    obtain ⟨-, -, -, hn0, -, -⟩ := h.2.2.2.2.1 hs
    have ht : y < c.modulus * radix p.w c.n :=
      hy.trans_le (Nat.le_mul_of_pos_right _ (Nat.two_pow_pos _))
    obtain ⟨v, e1, e2, e3⟩ := redc_spec hn0 ht
    simp only [e1, Option.some.injEq]
    have : v * radix p.w c.n % c.modulus = c.ofRing p.w y * radix p.w c.n % c.modulus := by
      rw [e3, h3 hs, Nat.mod_eq_of_lt hy]
    have := Slot.radix_cancel h hs this
    rwa [Nat.mod_eq_of_lt e2, Nat.mod_eq_of_lt h1] at this

/-- one_c = φ_c(1) (44_montgomery.md R330). -/
theorem Slot.one_spec (h : c.wellBuilt p) :
    c.one < c.modulus ∧ c.one = c.toRing p.w 1 := by
  have hp : 1 < c.modulus := by have := h.2.1.1; omega
  unfold Slot.one Slot.toRing
  cases hs : c.strat with
  | plain => exact ⟨hp, rfl⟩
  | montgomery =>
    obtain ⟨-, -, -, -, hone, -⟩ := h.2.2.2.2.1 hs
    simp only [hone, Nat.one_mul]
    exact ⟨Nat.mod_lt _ (by omega), rfl⟩

/-- The ring multiply is multiplication of plain residues seen through φ_c (43_ring.md R290, R291). -/
theorem Slot.mul_toRing (h : c.wellBuilt p) {x y : Nat} (hx : x < c.modulus) (hy : y < c.modulus) :
    c.mul p.w (c.toRing p.w x) (c.toRing p.w y) = some (c.toRing p.w (x * y % c.modulus)) := by
  have hp : 1 < c.modulus := by have := h.2.1.1; omega
  obtain ⟨v, h1, h2, h3, h4⟩ := Slot.mul_spec h (Slot.toRing_lt h hx) (Slot.toRing_lt h hy)
  rw [h1, Option.some.injEq]
  cases hs : c.strat with
  | plain => have := h3 hs; simpa [Slot.toRing, hs] using this
  | montgomery =>
    have := h4 hs
    simp only [Slot.toRing, hs] at this ⊢
    have e : v * radix p.w c.n % c.modulus = x * y * radix p.w c.n * radix p.w c.n % c.modulus := by
      rw [this, ← Nat.mul_mod]; ring_nf
    have := Slot.radix_cancel h hs e
    rw [Nat.mod_eq_of_lt h2] at this
    rw [this, Nat.mod_mul_mod]

/-- φ_c(φ_c^{-1}(y)) = y. -/
theorem Slot.toRing_ofRing (h : c.wellBuilt p) {y : Nat} (hy : y < c.modulus) :
    c.toRing p.w (c.ofRing p.w y) = y := by
  obtain ⟨-, h2, h3⟩ := Slot.ofRing_spec h hy
  cases hs : c.strat with
  | plain => rw [h2 hs]; simp [Slot.toRing, hs]
  | montgomery => simpa [Slot.toRing, hs] using h3 hs

/-- The element and its plain residue share the same factors with p. -/
theorem Slot.gcd_ofRing (h : c.wellBuilt p) {y : Nat} (hy : y < c.modulus) :
    Nat.gcd (c.ofRing p.w y) c.modulus = Nat.gcd y c.modulus := by
  obtain ⟨-, h2, h3⟩ := Slot.ofRing_spec h hy
  cases hs : c.strat with
  | plain => rw [h2 hs]
  | montgomery =>
    have hco := radix_coprime (h.2.2.2.2.1 hs).1 p.w c.n
    rw [← Nat.Coprime.gcd_mul_right_cancel (c.ofRing p.w y) hco]
    conv_rhs => rw [← h3 hs]
    rw [Nat.gcd_comm _ c.modulus, Nat.gcd_rec, Nat.gcd_comm _ c.modulus, Nat.gcd_comm]

end Sys2Proof.Machine
end

