-- ==== Sys2Proof/Laws/Exec.lean ====
section
/-!
SUPPORT. Every command is the common procedure around a body (`exec_performs`), and everything exec can do
(`exec_cases`, `exec_completes`).
-/

namespace Sys2Proof.Machine

/-- The commands that invert (43_ring.md R277, R278, R294). -/
def Inverter (i : Instr) (o : Operands) (x : Nat) : Prop :=
  ((∃ ctx sel, i = .modinvCt ctx sel) ∨ (∃ ctx sel, i = .modinvVt ctx sel)) ∧ x = o.a ∨
    (∃ ctx sel, i = .rinv ctx sel) ∧ x = o.slot.ofRing o.w o.a

/-- What a body may answer: NO_INVERSE from an inverter only, INVARIANT from a REDC only, one value per destination,
and a new slot from RING_INIT only. -/
structure BodyShape (i : Instr) (body : Operands → Effect) : Prop where
  noInverse : ∀ o, body o = .noInverse → ∃ x, Inverter i o x ∧ o.a < o.slot.modulus ∧ Nat.gcd x o.slot.modulus ≠ 1
  invariant : ∀ o, body o = .invariant →
    ((∃ ctx sel, i = .rreduce ctx sel) ∧ o.slot.reduce o.w o.a = none) ∨
    ((formatOf i = .r1 ∨ formatOf i = .r2) ∧ o.a < o.slot.modulus ∧
      ((o.b < o.slot.modulus ∧ o.slot.mul o.w o.a o.b = none) ∨ o.slot.mul o.w o.a o.a = none ∨
        o.slot.convertIn o.w o.a = none ∨ o.slot.convertOut o.w o.a = none))
  write : ∀ o r vs, body o = .write r vs → ∀ d n, vs.length = ((formatOf i).dests d n).length
  build : ∀ o c, body o = .build c → ∃ ctx sel st, i = .ringInit ctx sel ∧ strategyOf o.k = some st ∧
    2 ^ (o.w * (o.lenA - 1)) ≤ o.a ∧ 2 ≤ o.a ∧ (st = .montgomery → o.a % 2 = 1) ∧
    c = builtSlot o.w st o.lenA o.a
  notBuilt : formatOf i = .init → ∀ o r vs, body o ≠ .write r vs

theorem withElement_eq {c : Slot} {a : Nat} {e f : Effect} (h : withElement c a e = f) :
    f = .param ∨ (a < c.modulus ∧ e = f) := by
  unfold withElement at h; split at h
  · exact .inr ⟨‹_›, h⟩
  · exact .inl h.symm

theorem withOddModulus_eq {c : Slot} {e f : Effect} (h : withOddModulus c e = f) :
    f = .param ∨ (c.modulus % 2 = 1 ∧ e = f) := by
  unfold withOddModulus at h; split at h
  · exact .inr ⟨‹_›, h⟩
  · exact .inl h.symm

theorem writeReduced_eq {x : Option Nat} {f : Effect} (h : writeReduced x = f) :
    (∃ v, x = some v ∧ f = .write 0 [v]) ∨ (x = none ∧ f = .invariant) := by
  cases x with
  | some v => exact .inl ⟨v, rfl, h.symm⟩
  | none => exact .inr ⟨rfl, h.symm⟩

theorem writeInverse_eq {x p : Nat} {g : Nat → Nat} {f : Effect} (h : writeInverse x p g = f) :
    (Nat.gcd x p = 1 ∧ f = .write 0 [g (invMod x p)]) ∨ (Nat.gcd x p ≠ 1 ∧ f = .noInverse) := by
  unfold writeInverse at h; split at h
  · exact .inl ⟨‹_›, h.symm⟩
  · exact .inr ⟨‹_›, h.symm⟩

/-- A body that only writes one value per destination. -/
theorem BodyShape.ofWrite {i : Instr} {body : Operands → Effect} (hi : formatOf i ≠ .init)
    (h : ∀ o, body o = .param ∨ ∃ r vs, body o = .write r vs ∧ ∀ d n, vs.length = ((formatOf i).dests d n).length) :
    BodyShape i body where
  noInverse o ho := by rcases h o with h | ⟨_, _, h, -⟩ <;> simp [h] at ho
  invariant o ho := by rcases h o with h | ⟨_, _, h, -⟩ <;> simp [h] at ho
  write o r vs ho := by
    rcases h o with h | ⟨_, _, h, hl⟩
    · simp [h] at ho
    · rw [h] at ho; cases ho; exact hl
  build o c ho := by rcases h o with h | ⟨_, _, h, -⟩ <;> simp [h] at ho
  notBuilt hf := absurd hf hi

/-- A body that writes the value of a REDC, or raises INVARIANT. -/
theorem BodyShape.ofReduced {i : Instr} {body : Operands → Effect} {x : Operands → Option Nat}
    (hi : formatOf i ≠ .init) (hd : ∀ d n, ((formatOf i).dests d n).length = 1)
    (hx : ∀ o, body o = .param ∨ (body o = writeReduced (x o) ∧ (x o = none →
      ((∃ ctx sel, i = .rreduce ctx sel) ∧ o.slot.reduce o.w o.a = none) ∨
      ((formatOf i = .r1 ∨ formatOf i = .r2) ∧ o.a < o.slot.modulus ∧
        ((o.b < o.slot.modulus ∧ o.slot.mul o.w o.a o.b = none) ∨ o.slot.mul o.w o.a o.a = none ∨
          o.slot.convertIn o.w o.a = none ∨ o.slot.convertOut o.w o.a = none))))) :
    BodyShape i body where
  noInverse o ho := by
    rcases hx o with h | ⟨h, -⟩
    · simp [h] at ho
    · rcases writeReduced_eq (h.symm.trans ho) with ⟨_, -, h⟩ | ⟨-, h⟩ <;> cases h
  invariant o ho := by
    rcases hx o with h | ⟨h, hn⟩
    · simp [h] at ho
    · rcases writeReduced_eq (h.symm.trans ho) with ⟨_, -, h⟩ | ⟨h, -⟩
      · cases h
      · exact hn h
  write o r vs ho d n := by
    rcases hx o with h | ⟨h, -⟩
    · simp [h] at ho
    · rcases writeReduced_eq (h.symm.trans ho) with ⟨_, -, h⟩ | ⟨-, h⟩ <;> cases h
      simp [hd]
  build o c ho := by
    rcases hx o with h | ⟨h, -⟩
    · simp [h] at ho
    · rcases writeReduced_eq (h.symm.trans ho) with ⟨_, -, h⟩ | ⟨-, h⟩ <;> cases h
  notBuilt hf := absurd hf hi

/-- A body that writes the image of an inverse, or ends with NO_INVERSE. -/
theorem BodyShape.ofInverse {i : Instr} {body : Operands → Effect} {x : Operands → Nat} {g : Operands → Nat → Nat}
    (hi : formatOf i ≠ .init) (hd : ∀ d n, ((formatOf i).dests d n).length = 1) (hx : ∀ o, Inverter i o (x o))
    (hb : ∀ o, body o = .param ∨
      (o.a < o.slot.modulus ∧ body o = writeInverse (x o) o.slot.modulus (g o))) : BodyShape i body where
  noInverse o ho := by
    rcases hb o with h | ⟨ha, h⟩
    · simp [h] at ho
    · rcases writeInverse_eq (h.symm.trans ho) with ⟨-, h⟩ | ⟨h, -⟩
      · cases h
      · exact ⟨_, hx o, ha, h⟩
  invariant o ho := by
    rcases hb o with h | ⟨-, h⟩
    · simp [h] at ho
    · rcases writeInverse_eq (h.symm.trans ho) with ⟨-, h⟩ | ⟨-, h⟩ <;> cases h
  write o r vs ho d n := by
    rcases hb o with h | ⟨-, h⟩
    · simp [h] at ho
    · rcases writeInverse_eq (h.symm.trans ho) with ⟨-, h⟩ | ⟨-, h⟩ <;> cases h
      simp [hd]
  build o c ho := by
    rcases hb o with h | ⟨-, h⟩
    · simp [h] at ho
    · rcases writeInverse_eq (h.symm.trans ho) with ⟨-, h⟩ | ⟨-, h⟩ <;> cases h
  notBuilt hf := absurd hf hi

/-- RING_INIT's body accepts exactly what 43_ring.md R270 accepts. -/
theorem ringInitBody_shape (ctx sel : Nat) : BodyShape (.ringInit ctx sel) fun o =>
    match strategyOf o.k with
    | none => .param
    | some st =>
      if o.a / 2 ^ (o.w * (o.lenA - 1)) = 0 then .param
      else if o.a < 2 then .param
      else if st = .montgomery ∧ o.a % 2 = 0 then .param
      else .build (builtSlot o.w st o.lenA o.a) := by
  constructor
  case build =>
    intro o c h
    split at h
    · cases h
    · rename_i st hst
      split_ifs at h with h1 h2 h3
      refine ⟨ctx, sel, st, rfl, hst, ?_, by omega, fun hm => ?_, (Effect.build.inj h).symm⟩
      · by_contra hlt
        exact h1 (Nat.div_eq_of_lt (Nat.lt_of_not_le hlt))
      · by_contra hodd; exact h3 ⟨hm, by omega⟩
  case noInverse => intro o; split <;> (try split_ifs) <;> simp
  case invariant => intro o; split <;> (try split_ifs) <;> simp
  case write => intro o r vs; split <;> (try split_ifs) <;> simp
  case notBuilt => intro _ o r vs; split <;> (try split_ifs) <;> simp

/-- Every command is the common procedure around its body. -/
theorem exec_performs (i : Instr) :
    ∃ body, (∀ s, exec i s = .next (performed i s body)) ∧ BodyShape i body := by
  cases i <;> refine ⟨_, fun s => rfl, ?_⟩
  case ringInit ctx sel => exact ringInitBody_shape ctx sel
  case modinvCt ctx sel =>
    refine .ofInverse (x := fun o => o.a) (g := fun _ => id) (by simp [formatOf]) (fun _ _ => rfl)
      (fun o => .inl ⟨.inl ⟨ctx, sel, rfl⟩, rfl⟩) fun o => ?_
    unfold withOddModulus withElement; split_ifs <;> simp_all
  case modinvVt ctx sel =>
    refine .ofInverse (x := fun o => o.a) (g := fun _ => id) (by simp [formatOf]) (fun _ _ => rfl)
      (fun o => .inl ⟨.inr ⟨ctx, sel, rfl⟩, rfl⟩) fun o => ?_
    unfold withOddModulus withElement; split_ifs <;> simp_all
  case rinv ctx sel =>
    refine .ofInverse (x := fun o => o.slot.ofRing o.w o.a) (g := fun o => o.slot.toRing o.w) (by simp [formatOf])
      (fun _ _ => rfl) (fun o => .inr ⟨⟨ctx, sel, rfl⟩, rfl⟩) fun o => ?_
    unfold withOddModulus withElement; split_ifs <;> simp_all
  case rmul ctx sel =>
    refine .ofReduced (x := fun o => o.slot.mul o.w o.a o.b) (by simp [formatOf]) (fun _ _ => rfl) fun o => ?_
    unfold withElement; split_ifs <;> simp_all [formatOf]
  case rsqr ctx sel =>
    refine .ofReduced (x := fun o => o.slot.mul o.w o.a o.a) (by simp [formatOf]) (fun _ _ => rfl) fun o => ?_
    unfold withElement; split_ifs <;> simp_all [formatOf]
  case rreduce ctx sel =>
    refine .ofReduced (x := fun o => o.slot.reduce o.w o.a) (by simp [formatOf]) (fun _ _ => rfl) fun o => ?_
    simp_all
  case rto ctx sel =>
    refine .ofReduced (x := fun o => o.slot.convertIn o.w o.a) (by simp [formatOf]) (fun _ _ => rfl) fun o => ?_
    unfold withElement; split_ifs <;> simp_all [formatOf]
  case rfrom ctx sel =>
    refine .ofReduced (x := fun o => o.slot.convertOut o.w o.a) (by simp [formatOf]) (fun _ _ => rfl) fun o => ?_
    unfold withElement; split_ifs <;> simp_all [formatOf]
  all_goals
    refine .ofWrite (by simp [formatOf]) fun o => ?_
    try simp only [withElement, withOddModulus, writeMask, expBody]
    try split_ifs
    all_goals simp [formatOf, Format.dests]

/-- exec always goes on (60_exceptions.md R409: the MMB has no traps). -/
theorem exec_next (i : Instr) (s : State) : ∃ t, exec i s = .next t := by
  obtain ⟨body, h, -⟩ := exec_performs i
  exact ⟨_, h s⟩

/-- Everything exec can do to the state: it completes with OK, PARAM, ABORTED or a code that spoils the destinations, or
it records one model fault. -/
theorem exec_cases {i : Instr} {s t : State} (h : exec i s = .next t) :
    (s.faulted = true ∧ t = s.endedWith .aborted) ∨
    (s.faulted = false ∧
      ((t = s.endedWith .param) ∨
       (∃ k ∈ [ModelFault.uninit, .aliasing, .selector], t = s.recordFault k) ∨
       (PassesChecks i s ∧ ∃ vs, s.readRanges (sourcesOf i s) = some vs ∧
         ((scratchOk i s = false ∧ t = s.failResource i) ∨
          (scratchOk i s = true ∧
            ((∃ x, Inverter i (operandsOf i s vs) x ∧ vs.getD 0 0 < (s.slot (ctxOf i)).modulus ∧
                Nat.gcd x (s.slot (ctxOf i)).modulus ≠ 1 ∧ t = s.spoiledWith .noInverse (destsOf i s)) ∨
             (t = { s.spoiledWith .invariant (destsOf i s) with faulted := true } ∧
               (((∃ ctx sel, i = .rreduce ctx sel) ∧ (s.slot (ctxOf i)).reduce s.w (vs.getD 0 0) = none) ∨
                ((formatOf i = .r1 ∨ formatOf i = .r2) ∧ vs.getD 0 0 < (s.slot (ctxOf i)).modulus ∧
                  ((vs.getD 1 0 < (s.slot (ctxOf i)).modulus ∧
                      (s.slot (ctxOf i)).mul s.w (vs.getD 0 0) (vs.getD 1 0) = none) ∨
                    (s.slot (ctxOf i)).mul s.w (vs.getD 0 0) (vs.getD 0 0) = none ∨
                    (s.slot (ctxOf i)).convertIn s.w (vs.getD 0 0) = none ∨
                    (s.slot (ctxOf i)).convertOut s.w (vs.getD 0 0) = none)))) ∨
             (formatOf i ≠ .init ∧ ∃ r ws, ws.length = (destsOf i s).length ∧
               t = s.okWith r (writeRanges s.params.w s.mem (destsOf i s) ws)) ∨
             (∃ ctx sel st a, i = .ringInit ctx sel ∧ vs.getD 0 0 = a ∧ strategyOf s.imm = some st ∧
               2 ^ (s.w * (s.lenA - 1)) ≤ a ∧ 2 ≤ a ∧ (st = .montgomery → a % 2 = 1) ∧
               t = { s.okWith 0 s.mem with slots := s.slots.set ctx (builtSlot s.w st s.lenA a) }))))))) := by
  obtain ⟨body, hp, hs⟩ := exec_performs i
  rw [hp] at h
  obtain rfl := (Host.Outcome.next.inj h).symm
  rcases performed_cases i s body with ⟨h1, h2⟩ | ⟨h1, -, h2⟩ | ⟨h1, -, -, -, -, h2⟩ | ⟨h1, -, -, -, -, -, h2⟩ |
    ⟨h1, -, h2⟩ | ⟨h1, vs, hv, h2⟩
  · exact .inl ⟨h1, h2⟩
  · exact .inr ⟨h1, .inl h2⟩
  · exact .inr ⟨h1, .inr (.inl ⟨_, by simp, h2⟩)⟩
  · exact .inr ⟨h1, .inr (.inl ⟨_, by simp, h2⟩)⟩
  · exact .inr ⟨h1.1, .inr (.inl ⟨_, by simp, h2⟩)⟩
  · rw [h2]
    refine .inr ⟨h1.1, ?_⟩
    generalize he : body (operandsOf i s vs) = e
    rcases conclude_cases s i e with ⟨-, hc⟩ | ⟨-, hsc, hc⟩ | ⟨hsc, ⟨rfl, hc⟩ | ⟨rfl, hc⟩ | ⟨r, ws, rfl, hc⟩ | ⟨c, rfl, hc⟩⟩
    · exact .inl hc
    · exact .inr (.inr ⟨h1, vs, hv, .inl ⟨hsc, hc⟩⟩)
    · obtain ⟨x, hx, ha, hg⟩ := hs.noInverse _ he
      exact .inr (.inr ⟨h1, vs, hv, .inr ⟨hsc, .inl ⟨x, hx, ha, hg, hc⟩⟩⟩)
    · exact .inr (.inr ⟨h1, vs, hv, .inr ⟨hsc, .inr (.inl ⟨hc, hs.invariant _ he⟩)⟩⟩)
    · exact .inr (.inr ⟨h1, vs, hv, .inr ⟨hsc, .inr (.inr (.inl
        ⟨fun hf => hs.notBuilt hf _ _ _ he, r, ws, hs.write _ _ _ he _ _, hc⟩))⟩⟩)
    · obtain ⟨ctx, sel, st, rfl, hst, h3, h4, h5, rfl⟩ := hs.build _ _ he
      exact .inr (.inr ⟨h1, vs, hv, .inr ⟨hsc, .inr (.inr (.inr ⟨ctx, sel, st, _, rfl, rfl, hst, h3, h4, h5, hc⟩))⟩⟩)

end Sys2Proof.Machine
end

