-- ==== Sys2Proof/Laws/PerInstr.lean ====
section
/-!
SUPPORT. Statements made for every command, one lemma per constructor: the fields of a command's word
(30_encoding.md R111, R116).
-/

namespace Sys2Proof.Laws

/-- The four fields of the word opcode + 2^8·ctx + 2^11·sel. -/
theorem word_fields {opc ctx sel : Nat} (ho : opc < 2 ^ 8) (hc : ctxFits ctx = true) (hs : selFits sel = true) :
    let cmd := BitVec.ofNat 32 (sel * 2 ^ 11 + ctx * 2 ^ 8 + opc)
    (opcField cmd).toNat = opc ∧ (ctxField cmd).toNat = ctx ∧ (selField cmd).toNat = sel ∧ rsvdField cmd = 0 := by
  simp only [ctxFits, selFits, decide_eq_true_eq] at hc hs
  refine ⟨?_, ?_, ?_, ?_⟩
  · simp [opcField, BitVec.extractLsb'_toNat]; omega
  · simp [ctxField, BitVec.extractLsb'_toNat, Nat.shiftRight_eq_div_pow]; omega
  · simp [selField, BitVec.extractLsb'_toNat, Nat.shiftRight_eq_div_pow]; omega
  · apply BitVec.eq_of_toNat_eq
    simp [rsvdField, BitVec.extractLsb'_toNat, Nat.shiftRight_eq_div_pow]; omega

/-- Every opcode is a byte. -/
theorem opcodeOf_lt (i : Instr) : opcodeOf i < 2 ^ 8 := by cases i <;> simp [opcodeOf]

/-- The word of a well-formed command holds its opcode, CTX and SEL, and zeros in the reserved field. -/
def WordFields.Statement (i : Instr) : Prop :=
  i.wellFormed = true →
    (opcField (encode i)).toNat = opcodeOf i ∧ (ctxField (encode i)).toNat = ctxOf i ∧
      (selField (encode i)).toNat = selOf i ∧ rsvdField (encode i) = 0

namespace WordFields

theorem cmp (ctx sel : Nat) : Statement (.cmp ctx sel) := fun h =>
  have w := Bool.and_eq_true_iff.mp h
  word_fields (opcodeOf_lt _) w.1 w.2

theorem add (ctx sel : Nat) : Statement (.add ctx sel) := fun h =>
  have w := Bool.and_eq_true_iff.mp h
  word_fields (opcodeOf_lt _) w.1 w.2

theorem sub (ctx sel : Nat) : Statement (.sub ctx sel) := fun h =>
  have w := Bool.and_eq_true_iff.mp h
  word_fields (opcodeOf_lt _) w.1 w.2

theorem absdiff (ctx sel : Nat) : Statement (.absdiff ctx sel) := fun h =>
  have w := Bool.and_eq_true_iff.mp h
  word_fields (opcodeOf_lt _) w.1 w.2

theorem mul (ctx sel : Nat) : Statement (.mul ctx sel) := fun h =>
  have w := Bool.and_eq_true_iff.mp h
  word_fields (opcodeOf_lt _) w.1 w.2

theorem sqr (ctx sel : Nat) : Statement (.sqr ctx sel) := fun h =>
  have w := Bool.and_eq_true_iff.mp h
  word_fields (opcodeOf_lt _) w.1 w.2

theorem shl (ctx sel : Nat) : Statement (.shl ctx sel) := fun h =>
  have w := Bool.and_eq_true_iff.mp h
  word_fields (opcodeOf_lt _) w.1 w.2

theorem shr (ctx sel : Nat) : Statement (.shr ctx sel) := fun h =>
  have w := Bool.and_eq_true_iff.mp h
  word_fields (opcodeOf_lt _) w.1 w.2

theorem bittest (ctx sel : Nat) : Statement (.bittest ctx sel) := fun h =>
  have w := Bool.and_eq_true_iff.mp h
  word_fields (opcodeOf_lt _) w.1 w.2

theorem bitset (ctx sel : Nat) : Statement (.bitset ctx sel) := fun h =>
  have w := Bool.and_eq_true_iff.mp h
  word_fields (opcodeOf_lt _) w.1 w.2

theorem iszero (ctx sel : Nat) : Statement (.iszero ctx sel) := fun h =>
  have w := Bool.and_eq_true_iff.mp h
  word_fields (opcodeOf_lt _) w.1 w.2

theorem clz (ctx sel : Nat) : Statement (.clz ctx sel) := fun h =>
  have w := Bool.and_eq_true_iff.mp h
  word_fields (opcodeOf_lt _) w.1 w.2

theorem ctz (ctx sel : Nat) : Statement (.ctz ctx sel) := fun h =>
  have w := Bool.and_eq_true_iff.mp h
  word_fields (opcodeOf_lt _) w.1 w.2

theorem recip (ctx sel : Nat) : Statement (.recip ctx sel) := fun h =>
  have w := Bool.and_eq_true_iff.mp h
  word_fields (opcodeOf_lt _) w.1 w.2

theorem divmod (ctx sel : Nat) : Statement (.divmod ctx sel) := fun h =>
  have w := Bool.and_eq_true_iff.mp h
  word_fields (opcodeOf_lt _) w.1 w.2

theorem ringInit (ctx sel : Nat) : Statement (.ringInit ctx sel) := fun h =>
  have w := Bool.and_eq_true_iff.mp h
  word_fields (opcodeOf_lt _) w.1 w.2

theorem ctxRd (ctx sel : Nat) : Statement (.ctxRd ctx sel) := fun h =>
  have w := Bool.and_eq_true_iff.mp h
  word_fields (opcodeOf_lt _) w.1 w.2

theorem modred (ctx sel : Nat) : Statement (.modred ctx sel) := fun h =>
  have w := Bool.and_eq_true_iff.mp h
  word_fields (opcodeOf_lt _) w.1 w.2

theorem modadd (ctx sel : Nat) : Statement (.modadd ctx sel) := fun h =>
  have w := Bool.and_eq_true_iff.mp h
  word_fields (opcodeOf_lt _) w.1 w.2

theorem modsub (ctx sel : Nat) : Statement (.modsub ctx sel) := fun h =>
  have w := Bool.and_eq_true_iff.mp h
  word_fields (opcodeOf_lt _) w.1 w.2

theorem modhalf (ctx sel : Nat) : Statement (.modhalf ctx sel) := fun h =>
  have w := Bool.and_eq_true_iff.mp h
  word_fields (opcodeOf_lt _) w.1 w.2

theorem modinvCt (ctx sel : Nat) : Statement (.modinvCt ctx sel) := fun h =>
  have w := Bool.and_eq_true_iff.mp h
  word_fields (opcodeOf_lt _) w.1 w.2

theorem modinvVt (ctx sel : Nat) : Statement (.modinvVt ctx sel) := fun h =>
  have w := Bool.and_eq_true_iff.mp h
  word_fields (opcodeOf_lt _) w.1 w.2

theorem rmul (ctx sel : Nat) : Statement (.rmul ctx sel) := fun h =>
  have w := Bool.and_eq_true_iff.mp h
  word_fields (opcodeOf_lt _) w.1 w.2

theorem rsqr (ctx sel : Nat) : Statement (.rsqr ctx sel) := fun h =>
  have w := Bool.and_eq_true_iff.mp h
  word_fields (opcodeOf_lt _) w.1 w.2

theorem rreduce (ctx sel : Nat) : Statement (.rreduce ctx sel) := fun h =>
  have w := Bool.and_eq_true_iff.mp h
  word_fields (opcodeOf_lt _) w.1 w.2

theorem rinv (ctx sel : Nat) : Statement (.rinv ctx sel) := fun h =>
  have w := Bool.and_eq_true_iff.mp h
  word_fields (opcodeOf_lt _) w.1 w.2

theorem rto (ctx sel : Nat) : Statement (.rto ctx sel) := fun h =>
  have w := Bool.and_eq_true_iff.mp h
  word_fields (opcodeOf_lt _) w.1 w.2

theorem rfrom (ctx sel : Nat) : Statement (.rfrom ctx sel) := fun h =>
  have w := Bool.and_eq_true_iff.mp h
  word_fields (opcodeOf_lt _) w.1 w.2

theorem risone (ctx sel : Nat) : Statement (.risone ctx sel) := fun h =>
  have w := Bool.and_eq_true_iff.mp h
  word_fields (opcodeOf_lt _) w.1 w.2

theorem ctEq (ctx sel : Nat) : Statement (.ctEq ctx sel) := fun h =>
  have w := Bool.and_eq_true_iff.mp h
  word_fields (opcodeOf_lt _) w.1 w.2

theorem ctLt (ctx sel : Nat) : Statement (.ctLt ctx sel) := fun h =>
  have w := Bool.and_eq_true_iff.mp h
  word_fields (opcodeOf_lt _) w.1 w.2

theorem ctGt (ctx sel : Nat) : Statement (.ctGt ctx sel) := fun h =>
  have w := Bool.and_eq_true_iff.mp h
  word_fields (opcodeOf_lt _) w.1 w.2

theorem ctSel (ctx sel : Nat) : Statement (.ctSel ctx sel) := fun h =>
  have w := Bool.and_eq_true_iff.mp h
  word_fields (opcodeOf_lt _) w.1 w.2

theorem cswap (ctx sel : Nat) : Statement (.cswap ctx sel) := fun h =>
  have w := Bool.and_eq_true_iff.mp h
  word_fields (opcodeOf_lt _) w.1 w.2

theorem cneg (ctx sel : Nat) : Statement (.cneg ctx sel) := fun h =>
  have w := Bool.and_eq_true_iff.mp h
  word_fields (opcodeOf_lt _) w.1 w.2

theorem cshr (ctx sel : Nat) : Statement (.cshr ctx sel) := fun h =>
  have w := Bool.and_eq_true_iff.mp h
  word_fields (opcodeOf_lt _) w.1 w.2

theorem mux2 (ctx sel : Nat) : Statement (.mux2 ctx sel) := fun h =>
  have w := Bool.and_eq_true_iff.mp h
  word_fields (opcodeOf_lt _) w.1 w.2

theorem mux4 (ctx sel : Nat) : Statement (.mux4 ctx sel) := fun h =>
  have w := Bool.and_eq_true_iff.mp h
  word_fields (opcodeOf_lt _) w.1 w.2

theorem expLadder (ctx sel : Nat) : Statement (.expLadder ctx sel) := fun h =>
  have w := Bool.and_eq_true_iff.mp h
  word_fields (opcodeOf_lt _) w.1 w.2

theorem expFast (ctx sel : Nat) : Statement (.expFast ctx sel) := fun h =>
  have w := Bool.and_eq_true_iff.mp h
  word_fields (opcodeOf_lt _) w.1 w.2

theorem expSsma (ctx sel : Nat) : Statement (.expSsma ctx sel) := fun h =>
  have w := Bool.and_eq_true_iff.mp h
  word_fields (opcodeOf_lt _) w.1 w.2

end WordFields

end Sys2Proof.Laws
end

