-- ==== Sys2Proof/Laws/Step.lean ====
section
/-!
SUPPORT. What a step can do, said once: `step_cases` for every step that goes on, and what a host access leaves alone.
-/

namespace Sys2Proof.Machine

/-- Everything a step that goes on can do: the reset input acts; or, with no model fault recorded, the engine stays
idle, performs its command or rejects an illegal word, or the host makes one access. -/
theorem step_cases {s t : State} (h : step s = .next t) :
    (∃ rest, s.turns = .reset :: rest ∧ t = State.resetBlock { s with turns := rest }) ∨
    (s.modelFaults = [] ∧ ∃ rest, (s.turns = .engine :: rest ∨ (s.turns = [] ∧ rest = [])) ∧
      ((s.latch = none ∧ t = { s with turns := rest }) ∨
       (∃ l i, s.latch = some l ∧ decode l.cmd = .ok i ∧ exec i { s with turns := rest } = .next t) ∨
       ∃ l e, s.latch = some l ∧ decode l.cmd = .error e ∧ t = State.rejectIllegal { s with turns := rest })) ∨
    (s.modelFaults = [] ∧ ∃ rest a, s.turns = .host a :: rest ∧ t = State.hostAccess { s with turns := rest } a) := by
  have engine : ∀ rest, agentTurn s (engineTurn { s with turns := rest }) = .next t → s.modelFaults = [] ∧
      ((s.latch = none ∧ t = { s with turns := rest }) ∨
       (∃ l i, s.latch = some l ∧ decode l.cmd = .ok i ∧ exec i { s with turns := rest } = .next t) ∨
       ∃ l e, s.latch = some l ∧ decode l.cmd = .error e ∧ t = State.rejectIllegal { s with turns := rest }) := by
    intro rest h
    unfold agentTurn at h
    split at h
    · rename_i hm
      refine ⟨hm, ?_⟩
      unfold engineTurn State.pendingCommand at h
      cases hl : s.latch with
      | none =>
        simp only [hl, Option.map_none] at h
        exact .inl ⟨rfl, (Host.Outcome.next.inj h).symm.trans (by simp)⟩
      | some l =>
        simp only [hl, Option.map_some, performWord] at h
        cases hd : decode l.cmd with
        | ok i => rw [hd] at h; exact .inr (.inl ⟨l, i, rfl, hd, hl ▸ h⟩)
        | error e => rw [hd] at h; exact .inr (.inr ⟨l, e, rfl, hd, (Host.Outcome.next.inj h).symm.trans (by simp)⟩)
    · cases h
  unfold step nextTurn at h
  split at h
  · rename_i ht
    have hs : { s with turns := [] } = s := by rw [← ht]
    have := engine [] (hs ▸ h)
    exact .inr (.inl ⟨this.1, [], .inr ⟨ht, rfl⟩, this.2⟩)
  · rename_i rest ht
    have := engine rest h
    exact .inr (.inl ⟨this.1, rest, .inl ht, this.2⟩)
  · rename_i a rest ht
    unfold agentTurn at h
    split at h
    · rename_i hm; exact .inr (.inr ⟨hm, rest, a, ht, (Host.Outcome.next.inj h).symm⟩)
    · cases h
  · rename_i rest ht
    exact .inl ⟨rest, ht, (Host.Outcome.next.inj h).symm⟩

/-- Everything a write to a CSR other than CMD can do. -/
theorem State.writeCsr_cases (s : State) {k : BitVec 8} (hk : k ≠ 0x05) (v : BitVec 32) :
    (s.writeCsr k v = s ∨ (k = 0x03 ∧ v.getLsbD 9 = true ∧ s.writeCsr k v = { s with done := false })) ∨
    (∃ d, s.writeCsr k v = { s with desc := d }) ∨ (k = 0x0F ∧ s.writeCsr k v = { s with ie := v.getLsbD 0 }) := by
  unfold State.writeCsr
  split
  case h_1 => split <;> simp_all
  case h_2 => exact absurd rfl hk
  case h_12 => exact .inr (.inr ⟨rfl, rfl⟩)
  case h_13 => exact .inl (.inl rfl)
  all_goals exact .inr (.inl ⟨_, rfl⟩)

/-- Everything an operand-memory access can do: with no model fault it is the access; else it records HOST_HAZARD, BUS
or both. -/
theorem State.withMemAccess_cases (s : State) (a : Nat) (f : State → State) :
    (s.busy = false ∧ a < s.params.memWords ∧ s.withMemAccess a f = f s) ∨
    ((s.busy = true ∨ s.params.memWords ≤ a) ∧ (s.withMemAccess a f = s.recordFault .hostHazard ∨
      s.withMemAccess a f = s.recordFault .bus ∨
      s.withMemAccess a f = (s.recordFault .hostHazard).recordFault .bus)) := by
  unfold State.withMemAccess State.memAccessFaults
  rcases hb : s.busy <;> by_cases hm : s.params.memWords ≤ a <;> simp [hm, Nat.lt_of_not_le]

/-- Everything a host access can do, said by the fields it may change. -/
theorem State.hostAccess_cases (s : State) (a : HostAction) :
    (∃ v, a = .csrWrite 0x05 v ∧ s.busy = false ∧ s.hostAccess a = s.issue v) ∨
    (∃ d e done, (done = s.done ∨ done = false) ∧ s.hostAccess a = { s with desc := d, ie := e, done := done }) ∨
    (∃ r n, s.hostAccess a = { s with hostReads := r :: s.hostReads, draws := n }) ∨
    (∃ b v, s.busy = false ∧ b < s.params.memWords ∧ a = .memWrite b v ∧
      s.hostAccess a = { s with mem := s.mem.write b (v % 2 ^ s.params.w) }) ∨
    (∃ ks, ks ≠ [] ∧ s.hostAccess a = ks.foldl State.recordFault s) := by
  cases a with
  | csrRead k => exact .inr (.inr (.inl ⟨_, s.draws, rfl⟩))
  | csrWrite k v =>
    by_cases hk : k = 0x05
    · subst hk
      rcases hb : s.busy with _ | _
      · refine .inl ⟨v, rfl, rfl, ?_⟩; simp [State.hostAccess, State.writeCsr, State.writeCmd, hb]
      · refine .inr (.inr (.inr (.inr ⟨[.hostHazard], by simp, ?_⟩)))
        simp [State.hostAccess, State.writeCsr, State.writeCmd, hb]
    · refine .inr (.inl ?_)
      rcases s.writeCsr_cases hk v with (h | ⟨-, -, h⟩) | ⟨d, h⟩ | ⟨-, h⟩
      · exact ⟨s.desc, s.ie, s.done, .inl rfl, h⟩
      · exact ⟨s.desc, s.ie, false, .inr rfl, h⟩
      · exact ⟨d, s.ie, s.done, .inl rfl, h⟩
      · exact ⟨s.desc, v.getLsbD 0, s.done, .inl rfl, h⟩
  | memRead b =>
    rcases s.withMemAccess_cases b (fun t => t.hostReadMem b) with ⟨-, -, h⟩ | ⟨-, h | h | h⟩
    · refine .inr (.inr (.inl ?_))
      have h' : s.hostAccess (.memRead b) = s.hostReadMem b := h
      rw [h', State.hostReadMem]
      split
      · exact ⟨_, s.draws, rfl⟩
      · exact ⟨_, _, rfl⟩
    · exact .inr (.inr (.inr (.inr ⟨[.hostHazard], by simp, h⟩)))
    · exact .inr (.inr (.inr (.inr ⟨[.bus], by simp, h⟩)))
    · exact .inr (.inr (.inr (.inr ⟨[.hostHazard, .bus], by simp, h⟩)))
  | memWrite b v =>
    rcases s.withMemAccess_cases b (fun t => t.hostWriteMem b v) with ⟨hb, hm, h⟩ | ⟨-, h | h | h⟩
    · exact .inr (.inr (.inr (.inl ⟨b, v, hb, hm, rfl, h⟩)))
    · exact .inr (.inr (.inr (.inr ⟨[.hostHazard], by simp, h⟩)))
    · exact .inr (.inr (.inr (.inr ⟨[.bus], by simp, h⟩)))
    · exact .inr (.inr (.inr (.inr ⟨[.hostHazard, .bus], by simp, h⟩)))

/-- Recording model faults changes nothing but the record, which keeps its kinds. -/
theorem State.foldl_recordFault (ks : List ModelFault) (s : State) :
    ∃ fs, ks.foldl State.recordFault s = { s with modelFaults := fs } ∧ (∀ k ∈ s.modelFaults, k ∈ fs) ∧
      (∀ k ∈ ks, k ∈ fs) ∧ (s.modelFaults.Nodup → fs.Nodup) := by
  induction ks generalizing s with
  | nil => exact ⟨s.modelFaults, rfl, fun _ h => h, by simp, id⟩
  | cons k ks ih =>
    obtain ⟨fs, h1, h2, h3, h4⟩ := ih (s.recordFault k)
    refine ⟨fs, ?_, fun j hj => h2 j ((s.mem_recordFault k j).mpr (.inl hj)), ?_,
      fun hn => h4 (State.recordFault_nodup hn k)⟩
    · rw [List.foldl_cons, h1]; unfold State.recordFault; split <;> rfl
    · intro j hj
      rcases List.mem_cons.mp hj with rfl | hj
      · exact h2 _ ((s.mem_recordFault j j).mpr (.inr rfl))
      · exact h3 j hj

/-- No host access but a CMD write changes what the engine will do. -/
theorem State.hostAccess_latch (s : State) {a : HostAction} (ha : ∀ v, a ≠ .csrWrite 0x05 v) :
    (s.hostAccess a).latch = s.latch := by
  rcases s.hostAccess_cases a with ⟨v, h, -⟩ | ⟨_, _, _, -, h⟩ | ⟨_, _, h⟩ | ⟨_, _, -, -, -, h⟩ | ⟨ks, -, h⟩
  · exact absurd h (ha v)
  · rw [h]
  · rw [h]
  · rw [h]
  · obtain ⟨fs, h', -⟩ := State.foldl_recordFault ks s; rw [h, h']

/-! ## resetBlock -/

@[simp] theorem State.resetBlock_params (s : State) : s.resetBlock.params = s.params := rfl
@[simp] theorem State.resetBlock_err (s : State) : s.resetBlock.err = .ok := rfl
@[simp] theorem State.resetBlock_done (s : State) : s.resetBlock.done = false := rfl
@[simp] theorem State.resetBlock_faulted (s : State) : s.resetBlock.faulted = false := rfl
@[simp] theorem State.resetBlock_result (s : State) : s.resetBlock.result = 0 := rfl
@[simp] theorem State.resetBlock_cmd (s : State) : s.resetBlock.cmd = 0 := rfl
@[simp] theorem State.resetBlock_desc (s : State) : s.resetBlock.desc = Descriptors.reset := rfl
@[simp] theorem State.resetBlock_ie (s : State) : s.resetBlock.ie = false := rfl
@[simp] theorem State.resetBlock_slots (s : State) :
    s.resetBlock.slots = List.replicate s.params.ctxSlots Slot.reset := rfl
@[simp] theorem State.resetBlock_mem (s : State) : s.resetBlock.mem = [] := rfl
@[simp] theorem State.resetBlock_latch (s : State) : s.resetBlock.latch = none := rfl
@[simp] theorem State.resetBlock_modelFaults (s : State) : s.resetBlock.modelFaults = s.modelFaults := rfl
@[simp] theorem State.resetBlock_turns (s : State) : s.resetBlock.turns = s.turns := rfl
@[simp] theorem State.resetBlock_hostReads (s : State) : s.resetBlock.hostReads = s.hostReads := rfl
@[simp] theorem State.resetBlock_draws (s : State) : s.resetBlock.draws = s.draws := rfl

end Sys2Proof.Machine
end

