-- ==== Sys2Proof/Tests/Slice0.lean ====
section
/-!
SUPPORT. The model's own tests. Expected values are the vectors of 95_test_vectors.md (named V-…) and the words written
out from 30_encoding.md R111 and R116. The `witness_…` theorems show states that meet the hypotheses of the statements
in Certificates/Slice0/Obligations.lean.
-/

open Sys2Proof Sys2Proof.Machine

namespace Sys2Proof.Tests

/-! ## Well-formedness -/

theorem test_ctx_field_accepts_only_three_bits :
    (Instr.rmul 7 0).wellFormed = true ∧ (Instr.rmul 8 0).wellFormed = false := by decide

theorem test_sel_field_accepts_only_two_bits :
    (Instr.mux4 0 3).wellFormed = true ∧ (Instr.mux4 0 4).wellFormed = false := by decide

/-- Every constructor refuses a CTX and a SEL that do not fit. -/
theorem test_every_command_refuses_wide_fields :
    ([
      Instr.cmp, Instr.add, Instr.sub, Instr.absdiff, Instr.mul, Instr.sqr, Instr.shl, Instr.shr, Instr.bittest,
      Instr.bitset, Instr.iszero, Instr.clz, Instr.ctz, Instr.recip, Instr.divmod, Instr.ringInit, Instr.ctxRd,
      Instr.modred, Instr.modadd, Instr.modsub, Instr.modhalf, Instr.modinvCt, Instr.modinvVt, Instr.rmul,
      Instr.rsqr, Instr.rreduce, Instr.rinv, Instr.rto, Instr.rfrom, Instr.risone, Instr.ctEq, Instr.ctLt,
      Instr.ctGt, Instr.ctSel, Instr.cswap, Instr.cneg, Instr.cshr, Instr.mux2, Instr.mux4, Instr.expLadder,
      Instr.expFast, Instr.expSsma].all fun mk => !(mk 8 0).wellFormed && !(mk 0 4).wellFormed && (mk 7 3).wellFormed) = true := by decide

/-! ## Decoding: words written out as RSVD, SEL, CTX, OPC (30_encoding.md R111, R116) -/

theorem test_decode_kernel :
    decode 0b0000000000000000000_01_001_00000001#32 = .ok (.cmp 1 1) ∧
    decode 0b0000000000000000000_10_100_00000010#32 = .ok (.add 4 2) ∧
    decode 0b0000000000000000000_11_111_00000011#32 = .ok (.sub 7 3) ∧
    decode 0b0000000000000000000_00_010_00000100#32 = .ok (.absdiff 2 0) ∧
    decode 0b0000000000000000000_01_101_00000101#32 = .ok (.mul 5 1) ∧
    decode 0b0000000000000000000_10_000_00000110#32 = .ok (.sqr 0 2) ∧
    decode 0b0000000000000000000_11_011_00000111#32 = .ok (.shl 3 3) ∧
    decode 0b0000000000000000000_00_110_00001000#32 = .ok (.shr 6 0) ∧
    decode 0b0000000000000000000_01_001_00001001#32 = .ok (.bittest 1 1) ∧
    decode 0b0000000000000000000_10_100_00001010#32 = .ok (.bitset 4 2) ∧
    decode 0b0000000000000000000_11_111_00001011#32 = .ok (.iszero 7 3) ∧
    decode 0b0000000000000000000_00_010_00001100#32 = .ok (.clz 2 0) ∧
    decode 0b0000000000000000000_01_101_00001101#32 = .ok (.ctz 5 1) := by
  decide

theorem test_decode_divider :
    decode 0b0000000000000000000_10_000_00010000#32 = .ok (.recip 0 2) ∧
    decode 0b0000000000000000000_11_011_00010001#32 = .ok (.divmod 3 3) := by
  decide

theorem test_decode_slots_and_reducer :
    decode 0b0000000000000000000_00_110_00100000#32 = .ok (.ringInit 6 0) ∧
    decode 0b0000000000000000000_01_001_00100001#32 = .ok (.ctxRd 1 1) ∧
    decode 0b0000000000000000000_10_100_00100010#32 = .ok (.modred 4 2) ∧
    decode 0b0000000000000000000_11_111_00100011#32 = .ok (.modadd 7 3) ∧
    decode 0b0000000000000000000_00_010_00100100#32 = .ok (.modsub 2 0) ∧
    decode 0b0000000000000000000_01_101_00100101#32 = .ok (.modhalf 5 1) ∧
    decode 0b0000000000000000000_10_000_00100110#32 = .ok (.modinvCt 0 2) ∧
    decode 0b0000000000000000000_11_011_00100111#32 = .ok (.modinvVt 3 3) := by
  decide

theorem test_decode_dispatch :
    decode 0b0000000000000000000_00_110_00101000#32 = .ok (.rmul 6 0) ∧
    decode 0b0000000000000000000_01_001_00101001#32 = .ok (.rsqr 1 1) ∧
    decode 0b0000000000000000000_10_100_00101010#32 = .ok (.rreduce 4 2) ∧
    decode 0b0000000000000000000_11_111_00101011#32 = .ok (.rinv 7 3) ∧
    decode 0b0000000000000000000_00_010_00101100#32 = .ok (.rto 2 0) ∧
    decode 0b0000000000000000000_01_101_00101101#32 = .ok (.rfrom 5 1) ∧
    decode 0b0000000000000000000_10_000_00101110#32 = .ok (.risone 0 2) := by
  decide

theorem test_decode_conditional :
    decode 0b0000000000000000000_11_011_00110000#32 = .ok (.ctEq 3 3) ∧
    decode 0b0000000000000000000_00_110_00110001#32 = .ok (.ctLt 6 0) ∧
    decode 0b0000000000000000000_01_001_00110010#32 = .ok (.ctGt 1 1) ∧
    decode 0b0000000000000000000_10_100_00110011#32 = .ok (.ctSel 4 2) ∧
    decode 0b0000000000000000000_11_111_00110100#32 = .ok (.cswap 7 3) ∧
    decode 0b0000000000000000000_00_010_00110101#32 = .ok (.cneg 2 0) ∧
    decode 0b0000000000000000000_01_101_00110110#32 = .ok (.cshr 5 1) ∧
    decode 0b0000000000000000000_10_000_00110111#32 = .ok (.mux2 0 2) ∧
    decode 0b0000000000000000000_11_011_00111000#32 = .ok (.mux4 3 3) := by
  decide

theorem test_decode_exponentiation :
    decode 0b0000000000000000000_00_110_01000000#32 = .ok (.expLadder 6 0) ∧
    decode 0b0000000000000000000_01_001_01000001#32 = .ok (.expFast 1 1) ∧
    decode 0b0000000000000000000_10_100_01000010#32 = .ok (.expSsma 4 2) := by
  decide

/-- Each reserved bit, and the unassigned opcodes next to the assigned ones, are illegal (30_encoding.md R117). -/
theorem test_illegal_words_are_refused :
    (List.range 19).all (fun k => decide (decode (BitVec.ofNat 32 (2 ^ (13 + k) + 1)) = .error .reservedBits)) = true ∧
    ([0x00, 0x0E, 0x0F, 0x12, 0x1F, 0x2F, 0x39, 0x3F, 0x43, (0xFF : BitVec 32)].all
      fun w => decide (decode w = .error .unassignedOpcode)) = true := by decide

theorem test_table_word_is_decoded :
    decodeTableWord 32 0x1838 = some (.mux4 0 3) ∧ decodeTableWord 8 0x11 = some (.divmod 0 0) := by
  decide

/-! ## Small states -/

/-- Slot 0 M40961, slot 1 P40961 (95_test_vectors.md), slots 2 and 3 plain with p = 15 and p = 16. -/
def testSlots : List Slot :=
  [builtSlot 64 .montgomery 1 40961, builtSlot 64 .plain 1 40961, builtSlot 64 .plain 1 15, builtSlot 64 .plain 1 16]

/-- Words from address a on. -/
def words : Nat → List Nat → Memory
  | _, [] => []
  | a, v :: vs => (a, v) :: words (a + 1) vs

/-- SRCA 0x10, SRCB 0x20, SRCC 0x30, SRCD 0x40, DST0 0x50, DST1 0x60. -/
def testDesc (la lb imm : Nat) : Descriptors :=
  { dst0 := 0x50
    dst1 := 0x60
    srcA := 0x10
    srcB := 0x20
    srcC := 0x30
    srcD := 0x40
    lenA := BitVec.ofNat 16 la
    lenB := BitVec.ofNat 16 lb
    imm := BitVec.ofNat 32 imm }

/-- A state with command i latched. -/
def pending (i : Instr) (d : Descriptors) (m : Memory) : State :=
  { State.reset with
    slots := testSlots
    mem := m
    cmd := encode i
    desc := d
    latch := some { cmd := encode i, desc := d } }

/-- Command i latched with the words a at SRCA, b at SRCB, 0xC at SRCC, 0xD at SRCD. -/
def given (i : Instr) (la lb imm : Nat) (a b : List Nat) : State :=
  pending i (testDesc la lb imm) (words 0x10 a ++ words 0x20 b ++ [(0x30, 0xC), (0x40, 0xD)])

/-- Command i completes with this code and RESULT, and the words from address `at0` on are `out`. -/
def ends (i : Instr) (s : State) (err : StatusCode) (result : BitVec 32) (at0 : Nat) (out : List (Option Nat)) : Bool :=
  match exec i s with
  | .next t =>
    decide (t.err = err) && decide (t.result = result) && !t.busy && t.done &&
      decide ((List.range out.length).map (fun k => t.mem.read (at0 + k)) = out)
  | _ => false

/-- Command i records this model fault and stays latched. -/
def records (i : Instr) (s : State) (k : ModelFault) : Bool :=
  match exec i s with
  | .next t => decide (t.modelFaults = [k]) && t.busy && !t.done
  | _ => false

/-- The state after command i. -/
def after (i : Instr) (s : State) : State :=
  match exec i s with
  | .next t => t
  | _ => s

/-! ## One command each -/

/-- V-KER-1 -/
theorem test_cmp_greater :
    ends (.cmp 0 0) (given (.cmp 0 0) 2 0 0 [5, 1] [7, 0]) .ok 1 0x10 [some 5, some 1] = true := by
  decide

/-- V-KER-2 -/
theorem test_cmp_less :
    ends (.cmp 0 0) (given (.cmp 0 0) 2 0 0 [7, 0] [5, 1]) .ok 0xFFFFFFFF 0x10 [some 7, some 0] = true := by
  decide

/-- V-KER-5 -/
theorem test_add_carries :
    ends (.add 0 0) (given (.add 0 0) 1 0 0 [2 ^ 64 - 1] [2 ^ 64 - 1]) .ok 1 0x50 [some (2 ^ 64 - 2)] = true := by
  decide

/-- V-KER-7 -/
theorem test_sub_borrows :
    ends (.sub 0 0) (given (.sub 0 0) 2 0 0 [1, 0] [0, 1]) .ok 1 0x50 [some 1, some (2 ^ 64 - 1)] = true := by
  decide

/-- V-KER-8 -/
theorem test_absdiff :
    ends (.absdiff 0 0) (given (.absdiff 0 0) 1 0 0 [3] [8]) .ok 1 0x50 [some 5] = true := by
  decide

/-- V-KER-11 -/
theorem test_mul_widens :
    ends (.mul 0 0) (given (.mul 0 0) 2 1 0 [2 ^ 64 - 1, 2 ^ 64 - 1] [2 ^ 64 - 1]) .ok 0 0x50 [some 1, some (2 ^ 64 - 1), some (2 ^ 64 - 2)] = true := by
  decide

/-- V-KER-13 -/
theorem test_sqr :
    ends (.sqr 0 0) (given (.sqr 0 0) 2 0 0 [0, 1] []) .ok 0 0x50 [some 0, some 0, some 1, some 0] = true := by
  decide

/-- V-KER-14 -/
theorem test_shl :
    ends (.shl 0 0) (given (.shl 0 0) 2 0 1 [0x8000000000000001, 0] []) .ok 0 0x50 [some 2, some 1] = true := by
  decide

/-- V-KER-15 -/
theorem test_shl_all_bits_out :
    ends (.shl 0 0) (given (.shl 0 0) 2 0 128 [0x8000000000000001, 0] []) .ok 0 0x50 [some 0, some 0] = true := by
  decide

/-- V-KER-17 -/
theorem test_shr_whole_limb :
    ends (.shr 0 0) (given (.shr 0 0) 2 0 64 [0, 1] []) .ok 0 0x50 [some 1, some 0] = true := by
  decide

/-- V-KER-19 -/
theorem test_shr_long_count :
    ends (.shr 0 0) (given (.shr 0 0) 1 0 0xFFFFFFFF [2 ^ 64 - 1] []) .ok 0 0x50 [some 0] = true := by
  decide

/-- V-KER-20 -/
theorem test_bittest :
    ends (.bittest 0 0) (given (.bittest 0 0) 2 0 66 [0, 4] []) .ok 1 0x50 [none] = true := by
  decide

/-- V-KER-22 -/
theorem test_bittest_out_of_range :
    ends (.bittest 0 0) (given (.bittest 0 0) 2 0 128 [0, 4] []) .param 0 0x50 [none] = true := by
  decide

/-- V-KER-23 -/
theorem test_bitset_top :
    ends (.bitset 0 1) (given (.bitset 0 1) 1 0 63 [0] []) .ok 0 0x50 [some 0x8000000000000000] = true := by
  decide

/-- V-KER-24, another destination -/
theorem test_bitset_clears :
    ends (.bitset 0 0) (given (.bitset 0 0) 2 0 1 [0xF, 1] []) .ok 0 0x50 [some 0xD, some 1] = true := by
  decide

/-- V-KER-27 -/
theorem test_iszero :
    ends (.iszero 0 0) (given (.iszero 0 0) 2 0 0 [0, 1] []) .ok 0 0x50 [none] = true := by
  decide

/-- V-KER-28 -/
theorem test_clz :
    ends (.clz 0 0) (given (.clz 0 0) 2 0 0 [1, 0] []) .ok 0x7F 0x50 [none] = true := by
  decide

/-- V-KER-29 -/
theorem test_clz_zero :
    ends (.clz 0 0) (given (.clz 0 0) 2 0 0 [0, 0] []) .ok 0x80 0x50 [none] = true := by
  decide

/-- V-KER-31 -/
theorem test_ctz :
    ends (.ctz 0 0) (given (.ctz 0 0) 2 0 0 [0, 0x10] []) .ok 0x44 0x50 [none] = true := by
  decide

/-- V-KER-32 -/
theorem test_ctz_zero :
    ends (.ctz 0 0) (given (.ctz 0 0) 2 0 0 [0, 0] []) .ok 0x80 0x50 [none] = true := by
  decide

/-- V-DIV-5 -/
theorem test_recip :
    ends (.recip 0 0) (given (.recip 0 0) 1 0 0 [2 ^ 64 - 1] []) .ok 0 0x50 [some 1, some 1] = true := by
  decide

/-- V-DIV-7 -/
theorem test_recip_zero :
    ends (.recip 0 0) (given (.recip 0 0) 1 0 0 [0] []) .param 0 0x50 [none, none] = true := by
  decide

/-- V-SRC-1 -/
theorem test_divmod_quotient :
    ends (.divmod 0 0) (given (.divmod 0 0) 1 1 0 [0x51] [0x10]) .ok 0 0x50 [some 5] = true := by
  decide

/-- V-DIV-11 -/
theorem test_divmod_remainder :
    ends (.divmod 0 0) (given (.divmod 0 0) 1 2 0 [3] [0x10, 0]) .ok 0 0x60 [some 3, some 0] = true := by
  decide

/-- V-RING-1 -/
theorem test_ring_init :
    (after (.ringInit 2 0) (given (.ringInit 2 0) 1 0 1 [0xA001] [])).slots[2]? =
      some { valid := true, strat := .montgomery, n := 1, bitlen := 16, modulus := 0xA001, recip := 0x19997,
             n0inv := 0xD8F03E7F9C009FFF, rone := 0x76D0, rr := 0x70C7 } := by decide

/-- V-RING-9 -/
theorem test_ring_init_reserved_strategy :
    (after (.ringInit 2 0) (given (.ringInit 2 0) 1 0 2 [0xA001] [])).err = .param ∧
      (after (.ringInit 2 0) (given (.ringInit 2 0) 1 0 2 [0xA001] [])).slots = testSlots := by decide

/-- V-RING-2 -/
theorem test_ctx_rd_rone :
    ends (.ctxRd 0 0) (given (.ctxRd 0 0) 0 0 3 [] []) .ok 0 0x50 [some 0x76D0] = true := by
  decide

/-- V-RING-3 -/
theorem test_ctx_rd_plain :
    ends (.ctxRd 1 0) (given (.ctxRd 1 0) 0 0 2 [] []) .param 0 0x50 [none] = true := by
  decide

/-- V-RING-12 -/
theorem test_modred :
    ends (.modred 0 0) (given (.modred 0 0) 2 0 0 [2 ^ 64 - 1, 2 ^ 64 - 1] []) .ok 0 0x50 [some 0x70C6] = true := by
  decide

/-- V-RING-15 -/
theorem test_modadd :
    ends (.modadd 0 0) (given (.modadd 0 0) 0 0 0 [0x9C40] [0x1388]) .ok 0 0x50 [some 0xFC7] = true := by
  decide

/-- V-RING-17 -/
theorem test_modadd_unreduced :
    ends (.modadd 0 0) (given (.modadd 0 0) 0 0 0 [0xA001] [0]) .param 0 0x50 [none] = true := by
  decide

/-- V-RING-18 -/
theorem test_modsub :
    ends (.modsub 0 0) (given (.modsub 0 0) 0 0 0 [5] [7]) .ok 0 0x50 [some 0x9FFF] = true := by
  decide

/-- V-RING-20 -/
theorem test_modhalf :
    ends (.modhalf 0 0) (given (.modhalf 0 0) 0 0 0 [5] []) .ok 0 0x50 [some 0x5003] = true := by
  decide

/-- V-RING-21 -/
theorem test_modhalf_even_modulus :
    ends (.modhalf 3 0) (given (.modhalf 3 0) 0 0 0 [3] []) .param 0 0x50 [none] = true := by
  decide

/-- V-INV-2 -/
theorem test_modinv_ct :
    ends (.modinvCt 0 0) (given (.modinvCt 0 0) 0 0 0 [5] []) .ok 0 0x50 [some 0x8001] = true := by
  decide

/-- V-INV-6 -/
theorem test_modinv_ct_none :
    ends (.modinvCt 0 0) (given (.modinvCt 0 0) 0 0 0 [0] []) .noInverse 0 0x50 [none] = true := by
  decide

/-- V-INV-3 -/
theorem test_modinv_vt :
    ends (.modinvVt 1 0) (given (.modinvVt 1 0) 0 0 0 [2] []) .ok 0 0x50 [some 0x5001] = true := by
  decide

/-- V-INV-8 -/
theorem test_modinv_vt_none :
    ends (.modinvVt 2 0) (given (.modinvVt 2 0) 0 0 0 [3] []) .noInverse 0 0x50 [none] = true := by
  decide

/-- V-MONT-3 -/
theorem test_rmul_montgomery :
    ends (.rmul 0 0) (given (.rmul 0 0) 0 0 0 [0x720D] [0x720D]) .ok 0 0x50 [some 0x5A3E] = true := by
  decide

/-- V-MONT-11 -/
theorem test_rmul_plain :
    ends (.rmul 1 0) (given (.rmul 1 0) 0 0 0 [200] [300]) .ok 0 0x50 [some 0x4A5F] = true := by
  decide

/-- V-MONT-4 -/
theorem test_rsqr_montgomery :
    ends (.rsqr 0 0) (given (.rsqr 0 0) 0 0 0 [0x720D] []) .ok 0 0x50 [some 0x5A3E] = true := by
  decide

/-- V-RING-22 -/
theorem test_rsqr_even_modulus :
    ends (.rsqr 3 0) (given (.rsqr 3 0) 0 0 0 [3] []) .ok 0 0x50 [some 9] = true := by
  decide

/-- V-MONT-5 -/
theorem test_rreduce_montgomery :
    ends (.rreduce 0 0) (given (.rreduce 0 0) 1 0 0 [0x32CF94A9] []) .ok 0 0x50 [some 0x5A3E] = true := by
  decide

/-- V-MONT-6 -/
theorem test_rreduce_invariant :
    ends (.rreduce 0 0) (given (.rreduce 0 0) 2 0 0 [2 ^ 64 - 1, 2 ^ 64 - 1] []) .invariant 0 0x50 [none] = true := by
  decide

/-- V-INV-11 -/
theorem test_rinv_montgomery :
    ends (.rinv 0 0) (given (.rinv 0 0) 0 0 0 [0x720D] []) .ok 0 0x50 [some 0x97C4] = true := by
  decide

/-- V-INV-12 -/
theorem test_rinv_plain :
    ends (.rinv 1 0) (given (.rinv 1 0) 0 0 0 [5] []) .ok 0 0x50 [some 0x8001] = true := by
  decide

/-- V-MONT-1 -/
theorem test_rto :
    ends (.rto 0 0) (given (.rto 0 0) 0 0 0 [5] []) .ok 0 0x50 [some 0x720D] = true := by
  decide

/-- V-MONT-2 -/
theorem test_rfrom :
    ends (.rfrom 0 0) (given (.rfrom 0 0) 0 0 0 [0x720D] []) .ok 0 0x50 [some 5] = true := by
  decide

/-- V-MONT-8 -/
theorem test_risone :
    ends (.risone 0 0) (given (.risone 0 0) 0 0 0 [0x76D0] []) .ok 1 0x50 [none] = true := by
  decide

/-- V-MONT-8 -/
theorem test_risone_plain_one :
    ends (.risone 0 0) (given (.risone 0 0) 0 0 0 [1] []) .ok 0 0x50 [none] = true := by
  decide

/-- V-CT-1 -/
theorem test_ct_eq :
    ends (.ctEq 0 0) (given (.ctEq 0 0) 0 0 0 [7] [7]) .ok 1 0x50 [some (2 ^ 64 - 1)] = true := by
  decide

/-- V-CT-3 -/
theorem test_ct_lt_unsigned :
    ends (.ctLt 0 0) (given (.ctLt 0 0) 0 0 0 [2 ^ 64 - 1] [1]) .ok 0 0x50 [some 0] = true := by
  decide

/-- V-CT-4 -/
theorem test_ct_lt :
    ends (.ctLt 0 0) (given (.ctLt 0 0) 0 0 0 [0] [2 ^ 64 - 1]) .ok 1 0x50 [some (2 ^ 64 - 1)] = true := by
  decide

/-- V-CT-5 -/
theorem test_ct_gt :
    ends (.ctGt 0 0) (given (.ctGt 0 0) 0 0 0 [2 ^ 64 - 1] [1]) .ok 1 0x50 [some (2 ^ 64 - 1)] = true := by
  decide

/-- V-CT-6 -/
theorem test_ct_sel :
    ends (.ctSel 0 0) (given (.ctSel 0 0) 0 0 0 [0xA] [0xB]) .ok 0 0x50 [some 0xB] = true := by
  decide

/-- V-CT-7 -/
theorem test_cswap_a :
    ends (.cswap 0 1) (given (.cswap 0 1) 2 0 0 [1, 2] [3, 4]) .ok 0 0x10 [some 3, some 4] = true := by
  decide

/-- V-CT-7 -/
theorem test_cswap_b :
    ends (.cswap 0 1) (given (.cswap 0 1) 2 0 0 [1, 2] [3, 4]) .ok 0 0x20 [some 1, some 2] = true := by
  decide

/-- V-CT-10 -/
theorem test_cneg :
    ends (.cneg 0 1) (given (.cneg 0 1) 2 0 0 [0, 1] []) .ok 0 0x50 [some 0, some (2 ^ 64 - 1)] = true := by
  decide

/-- V-CT-14 -/
theorem test_cshr :
    ends (.cshr 0 1) (given (.cshr 0 1) 2 0 63 [3, 0] [2 ^ 64 - 1]) .ok 0 0x50 [some 0, some 0xFFFFFFFFFFFFFFFE] = true := by
  decide

/-- V-CT-16 -/
theorem test_cshr_long_count :
    ends (.cshr 0 1) (given (.cshr 0 1) 2 0 64 [3, 0] [2 ^ 64 - 1]) .param 0 0x50 [none] = true := by
  decide

/-- V-CT-17 -/
theorem test_mux2 :
    ends (.mux2 0 1) (given (.mux2 0 1) 1 0 0 [1] [2]) .ok 0 0x50 [some 1] = true := by
  decide

/-- V-CT-18 -/
theorem test_mux4_third :
    ends (.mux4 0 2) (given (.mux4 0 2) 1 0 0 [0xA] [0xB]) .ok 0 0x50 [some 0xC] = true := by
  decide

/-- V-CT-18 -/
theorem test_mux4_fourth :
    ends (.mux4 0 3) (given (.mux4 0 3) 1 0 0 [0xA] [0xB]) .ok 0 0x50 [some 0xD] = true := by
  decide

/-- V-EXP-1 -/
theorem test_exp_ladder :
    ends (.expLadder 0 0) (given (.expLadder 0 0) 0 1 0 [0x720D] [0x5000]) .ok 0 0x50 [some 0x76D0] = true := by
  decide

/-- V-EXP-6 -/
theorem test_exp_ladder_identity :
    ends (.expLadder 0 0) (given (.expLadder 0 0) 0 1 0 [0] [0]) .ok 0 0x50 [some 0x76D0] = true := by
  decide

/-- V-EXP-9 -/
theorem test_exp_fast :
    ends (.expFast 1 0) (given (.expFast 1 0) 0 1 0 [5] [0x9FFF]) .ok 0 0x50 [some 0x8001] = true := by
  decide

/-- V-EXP-12 -/
theorem test_exp_fast_unreduced :
    ends (.expFast 0 0) (given (.expFast 0 0) 0 1 0 [0xA001] [1]) .param 0 0x50 [none] = true := by
  decide

/-- V-EXP-4 -/
theorem test_exp_ssma :
    ends (.expSsma 0 0) (given (.expSsma 0 0) 0 1 0 [0x720D] [4]) .ok 0 0x50 [some 0x1000] = true := by
  decide

/-- V-EXP-13 -/
theorem test_exp_ssma_no_length :
    ends (.expSsma 0 0) (given (.expSsma 0 0) 0 0 0 [5] [1]) .param 0 0x50 [none] = true := by
  decide

/-! ## Faults, hazards and the step -/

/-- V-ERR-9: ALIAS before UNINIT. -/
theorem test_alias_before_uninit :
    records (.mul 0 0) (pending (.mul 0 0) { testDesc 1 1 0 with dst0 := 0x10 } [(0x10, 1)]) .aliasing = true := by decide

/-- V-ERR-10 -/
theorem test_uninitialised_source : records (.add 0 0) (given (.add 0 0) 1 0 0 [1] []) .uninit = true := by decide

/-- V-CT-19 -/
theorem test_bad_selector : records (.cneg 0 2) (given (.cneg 0 2) 1 0 0 [1] []) .selector = true := by decide

/-- The word placed by withFetchWord is the very next command: 0x00000120 is RING_INIT.c1, here with LENA = 0. -/
theorem test_fetch_word_runs :
    (match step (State.reset.withFetchWord 32 0x00000120) with
      | .next t => decide (t.err = .param) && t.done && !t.busy
      | _ => false) = true := by decide

/-- V-ERR-1: 0x00 is not a no-operation. -/
theorem test_illegal_word_runs :
    (match step (State.reset.withFetchWord 32 0x00000000) with
      | .next t => decide (t.csr 0x03 = 0x204#32)
      | _ => false) = true := by decide

/-- V-ERR-13 -/
theorem test_cmd_write_while_busy :
    (match step { given (.add 0 0) 1 0 0 [1] [2] with turns := [.host (.csrWrite 0x05 1)] } with
      | .next t => decide (t.modelFaults = [.hostHazard])
      | _ => false) = true := by decide

/-- The reset values of 10_state.md §2's table, W = 64. -/
theorem test_reset_registers : State.reset.csr 0x00 = 0x4D4D4001#32 ∧ State.reset.csr 0x01 = 0x00030080#32 ∧
    State.reset.csr 0x02 = 0x00001000#32 ∧ State.reset.csr 0x03 = 0#32 ∧ State.reset.csr 0x10 = 0#32 := by decide
/-! ## Witnesses: states that meet the hypotheses of the statements -/

/-- `EncodedCommandsDecodeBack`: the fields at their least and greatest values. -/
theorem witness_well_formed : (Instr.cmp 0 0).wellFormed = true ∧ (Instr.expSsma 7 3).wellFormed = true := by decide

/-- `DecodedWordsEncodeBack` -/
theorem witness_decodes : decode 0x00001F42#32 = .ok (.expSsma 7 3) := by decide

/-- `IllegalWordsEndWithIllegal`: bit 13, bit 31 and each end of each unassigned range. -/
theorem witness_illegal_words :
    ∀ w ∈ [0x2001#32, 0x80000001#32, 0x00#32, 0x0E#32, 0x0F#32, 0x12#32, 0x1F#32, 0x2F#32, 0x39#32, 0x3F#32, 0x43#32,
      0xFF#32], IllegalCommandWord w := by
  unfold IllegalCommandWord; simp

/-- `IllegalWordsEndWithIllegal`, second part: the ends of the assigned ranges. -/
theorem witness_legal_words :
    ∀ w ∈ [0x01#32, 0x0D#32, 0x10#32, 0x11#32, 0x20#32, 0x2E#32, 0x30#32, 0x38#32, 0x40#32, 0x1F42#32],
      ¬IllegalCommandWord w := by
  unfold IllegalCommandWord; simp

/-- A state with the illegal word 0 latched and the engine's turn first. -/
def illegalPending : State := { State.reset with latch := some { cmd := 0, desc := Descriptors.reset }, turns := [.engine] }

/-- `IllegalWordsEndWithIllegal`, first part. -/
theorem witness_illegal_pending : illegalPending.modelFaults = [] ∧ illegalPending.faulted = false ∧
    illegalPending.latch = some { cmd := 0, desc := Descriptors.reset } ∧ illegalPending.turns = [.engine] := by decide

/-- ADD of 1 and 2 latched. -/
def addPending : State := given (.add 0 0) 1 0 0 [1] [2]

/-- `StepRunsTheLatchedCommand`, `LatchedCommandIgnoresDescriptorWrites`: both orders of turns. -/
theorem witness_latched : addPending.modelFaults = [] ∧ addPending.busy = true ∧ addPending.turns = [] ∧
    addPending.latch = some { cmd := 0x02, desc := testDesc 1 0 0 } ∧ decode 0x02#32 = .ok (.add 0 0) ∧
    State.turns { addPending with turns := [.engine] } = [.engine] := by decide

/-- A command that goes on. -/
theorem witness_add_goes_on : exec (.add 0 0) addPending = .next (after (.add 0 0) addPending) ∧
    (after (.add 0 0) addPending).busy = false ∧ (after (.add 0 0) addPending).err = .ok := ⟨rfl, by decide, by decide⟩

/-- `CmdWriteLatchesACommand`: an idle and a busy block, the engine next. -/
theorem witness_cmd_write :
    State.turns { State.reset with turns := [.host (.csrWrite 0x05 0x02), .engine] } =
      .host (.csrWrite 0x05 0x02) :: .engine :: [] ∧
    State.reset.modelFaults = [] ∧ State.reset.busy = false ∧ decode 0x02#32 = .ok (.add 0 0) ∧
    addPending.busy = true := by decide

/-- `IdleBlockRetainsItsState` -/
theorem witness_idle : State.reset.modelFaults = [] ∧ State.reset.busy = false ∧ State.reset.turns = [] ∧
    State.turns { State.reset with turns := [.engine] } = .engine :: [] ∧
    (∀ v, HostAction.csrWrite 0x04 v ≠ .csrWrite 0x05 v) := by
  refine ⟨rfl, rfl, rfl, rfl, fun v h => ?_⟩
  cases h

/-- `CommandProgramPerformsItsCommand`: ADD.c7.s3 with two keys. -/
theorem witness_command_program : (Instr.add 7 3).wellFormed = true ∧
    State.turns { State.reset with turns := hostCommand (.add 7 3) [(.a, 0x10), (.la, 1)] } =
      hostCommand (.add 7 3) [(.a, 0x10), (.la, 1)] ++ [] ∧ State.reset.modelFaults = [] ∧ State.reset.busy = false := by
  decide

/-- A block whose DONE is set, the reset input next. -/
def doneThenReset : State := { State.reset with done := true, turns := [.reset] }

/-- A block whose DONE is set, a write of 1 to STATUS bit 9 next. -/
def doneThenCleared : State := { State.reset with done := true, turns := [.host (.csrWrite 0x03 0x200)] }

/-- The state after one step. -/
def stepped (s : State) : State :=
  match step s with
  | .next t => t
  | _ => s

/-- `StatusRegister`, third part, both ways to clear DONE. -/
theorem witness_done_cleared :
    (step doneThenReset = .next (stepped doneThenReset) ∧ doneThenReset.done = true ∧ (stepped doneThenReset).done = false) ∧
    (step doneThenCleared = .next (stepped doneThenCleared) ∧ doneThenCleared.done = true ∧
      (stepped doneThenCleared).done = false) := ⟨⟨rfl, rfl, rfl⟩, rfl, rfl, rfl⟩

/-- `IdentityRegisters`, `ResetMeetsTheInvariant`: each parameter at its least and greatest value. -/
theorem witness_parameters :
    Params.wf { width := .w32, nMax := 1, memWords := 1, ctxSlots := 1, scratchFails := [] } ∧
    Params.wf { width := .w64, nMax := 65535, memWords := 2 ^ 32, ctxSlots := 8, scratchFails := [] } := by decide

/-- `RegistersReadBackWhatTheyKeep`: the ends of the reserved numbers, and two different registers. -/
theorem witness_reserved_numbers : 0x10 ≤ (0x10 : BitVec 8).toNat ∧ 0x10 ≤ (0xFF : BitVec 8).toNat ∧
    (0x06 : BitVec 8) ≠ 0x03 ∧ (0x06 : BitVec 8) ≠ 0x05 ∧ (0x07 : BitVec 8) ≠ 0x06 := by decide

/-- `RegistersReadBackWhatTheyKeep`, last part: a CSR read and a CSR write next, on an idle and on a busy block. -/
theorem witness_csr_turns : State.reset.modelFaults = [] ∧
    State.turns { State.reset with turns := [.host (.csrRead 0x04)] } = .host (.csrRead 0x04) :: [] ∧
    State.turns { State.reset with turns := [.host (.csrWrite 0x0F 1)] } = .host (.csrWrite 0x0F 1) :: [] ∧
    addPending.modelFaults = [] ∧ addPending.busy = true := by decide

/-- An idle block whose word 0x10 holds 7. -/
def idleBlock : State := { State.reset with mem := [(0x10, 7)] }

/-- `HostAccessesOperandMemory`: the first and the last word, the first address beyond, a listed and an unlisted word. -/
theorem witness_host_accesses : idleBlock.modelFaults = [] ∧ idleBlock.busy = false ∧
    0 < idleBlock.params.memWords ∧ 4095 < idleBlock.params.memWords ∧ idleBlock.params.memWords ≤ 4096 ∧
    2 ^ 64 - 1 < 2 ^ idleBlock.w ∧ idleBlock.mem.read 0x10 = some 7 ∧ idleBlock.mem.read 4095 = none ∧
    State.turns { idleBlock with turns := [.host (.memWrite 4095 0)] } = .host (.memWrite 4095 0) :: [] ∧
    State.turns { idleBlock with turns := [.host (.memRead 4096)] } = .host (.memRead 4096) :: [] := by decide

/-- `BusyHazard`: a busy block and each kind of access, at the last word and on each register but CMD. -/
theorem witness_busy_hazard : addPending.modelFaults = [] ∧ addPending.busy = true ∧
    4095 < addPending.params.memWords ∧ (0x06 : BitVec 8) ≠ 0x05 ∧
    State.turns { addPending with turns := [.host (.csrWrite 0x05 0)] } = .host (.csrWrite 0x05 0) :: [] ∧
    State.turns { addPending with turns := [.host (.memRead 4095)] } = .host (.memRead 4095) :: [] ∧
    State.turns { addPending with turns := [.host (.memWrite 4095 0)] } = .host (.memWrite 4095 0) :: [] ∧
    State.turns { addPending with turns := [.host (.csrRead 0x03)] } = .host (.csrRead 0x03) :: [] ∧
    State.turns { addPending with turns := [.host (.csrWrite 0x06 5)] } = .host (.csrWrite 0x06 5) :: [] ∧
    (0x03 : BitVec 8) ≠ 0x05 ∧ (0x0C : BitVec 8) ≠ 0x05 ∧ (0x0D : BitVec 8) ≠ 0x05 ∧ (0x0F : BitVec 8) ≠ 0x05 := by decide

/-- `InterruptLine`: a completing command, and the two written values. -/
theorem witness_interrupt : addPending.busy = true ∧ (after (.add 0 0) addPending).busy = false ∧
    (0x200#32).getLsbD 9 = true ∧ (0xFFFFFFFE#32).getLsbD 0 = false := by decide

/-- A command with too little scratch. -/
def starved (i : Instr) (s : State) : State :=
  { s with params := { s.params with scratchFails := [scratchQuery i s] } }

/-- RREDUCE of 2^128 − 1 on M40961 (V-MONT-6). -/
def rreducePending : State := given (.rreduce 0 0) 2 0 0 [2 ^ 64 - 1, 2 ^ 64 - 1] []

/-- MODINV_CT of 0 (V-INV-6). -/
def inversePending : State := given (.modinvCt 0 0) 0 0 0 [0] []

/-- ADD with LENA = 0 (V-ERR-6). -/
def noLength : State := given (.add 0 0) 0 0 0 [1] [2]

/-- RING_INIT of 40961 on slot 3. -/
def ringInitPending : State := given (.ringInit 3 0) 1 0 1 [0xA001] []

/-- `FailedCommandsSpoilTheirDestinations`, `ScratchShortageEndsInResource`: a completion with each code, RING_INIT's
RESOURCE among them. -/
theorem witness_failed_commands :
    (noLength.busy = true ∧ (after (.add 0 0) noLength).busy = false ∧ (after (.add 0 0) noLength).err = .param) ∧
    (inversePending.busy = true ∧ (after (.modinvCt 0 0) inversePending).busy = false ∧
      (after (.modinvCt 0 0) inversePending).err = .noInverse) ∧
    (rreducePending.busy = true ∧ (after (.rreduce 0 0) rreducePending).busy = false ∧
      (after (.rreduce 0 0) rreducePending).err = .invariant) ∧
    ((starved (.ringInit 3 0) ringInitPending).busy = true ∧
      (after (.ringInit 3 0) (starved (.ringInit 3 0) ringInitPending)).busy = false ∧
      (after (.ringInit 3 0) (starved (.ringInit 3 0) ringInitPending)).err = .resource ∧
      (after (.ringInit 3 0) ringInitPending).err = .ok) := by decide

/-- The same completions are what exec answers. -/
theorem witness_failed_commands_go_on :
    exec (.add 0 0) noLength = .next (after (.add 0 0) noLength) ∧
    exec (.modinvCt 0 0) inversePending = .next (after (.modinvCt 0 0) inversePending) ∧
    exec (.rreduce 0 0) rreducePending = .next (after (.rreduce 0 0) rreducePending) ∧
    exec (.ringInit 3 0) (starved (.ringInit 3 0) ringInitPending) =
      .next (after (.ringInit 3 0) (starved (.ringInit 3 0) ringInitPending)) := ⟨rfl, rfl, rfl, rfl⟩

/-- `ScratchShortageEndsInResource`: the same command with enough scratch completes. -/
theorem witness_enough_scratch : addPending.busy = true ∧ scratchOk (.add 0 0) addPending = true ∧
    scratchOk (.add 0 0) (starved (.add 0 0) addPending) = false ∧
    exec (.add 0 0) { starved (.add 0 0) addPending with
      params := { (starved (.add 0 0) addPending).params with scratchFails := [] } } =
        .next (after (.add 0 0) addPending) := ⟨rfl, by decide, by decide, rfl⟩

/-- A FAULTED block with a command latched. -/
def faultedBlock : State := { addPending with faulted := true }

/-- `FaultedBlockAborts` -/
theorem witness_faulted : faultedBlock.faulted = true ∧ HostAction.csrRead 0x04 ≠ .csrRead 0x03 ∧
    step faultedBlock = .next (stepped faultedBlock) ∧ (∀ rest, faultedBlock.turns ≠ .reset :: rest) ∧
    State.turns { faultedBlock with turns := [.reset] } = .reset :: [] :=
  ⟨rfl, by decide, rfl, fun rest h => absurd (show ([] : List Turn) = .reset :: rest from h) (List.cons_ne_nil _ _).symm, rfl⟩

/-- `OnlyRreduceRaisesInvariant`, `NoInverseOnlyFromInverters` -/
theorem witness_error_commands : rreducePending.Inv ∧ inversePending.Inv :=
  ⟨by decide, by decide⟩

/-- `StructuralChecksEndInParam`: slot 4 of 4, an invalid slot, LENA 0 and 129, LENB 0 and 129, RW's 2n + 1, CTX_RD
field 8, and a range one word beyond memory. -/
theorem witness_structural_checks :
    ((given (.rmul 4 0) 0 0 0 [1] [1]).faulted = false ∧ (given (.rmul 4 0) 0 0 0 [1] [1]).params.ctxSlots ≤ 4) ∧
    (State.reset.faulted = false ∧ (State.reset.slot 0).valid = false) ∧
    (¬noLength.LenOk noLength.lenA ∧
      ¬(given (.add 0 0) 129 0 0 [1] [2]).LenOk (given (.add 0 0) 129 0 0 [1] [2]).lenA) ∧
    (¬(given (.mul 0 0) 1 0 0 [1] [2]).LenOk (given (.mul 0 0) 1 0 0 [1] [2]).lenB ∧
      ¬(given (.mul 0 0) 1 129 0 [1] [2]).LenOk (given (.mul 0 0) 1 129 0 [1] [2]).lenB) ∧
    ¬(1 ≤ (given (.modred 0 0) 3 0 0 [1] []).lenA ∧
      (given (.modred 0 0) 3 0 0 [1] []).lenA ≤ 2 * ((given (.modred 0 0) 3 0 0 [1] []).slot 0).n) ∧
    7 < (given (.ctxRd 0 0) 0 0 8 [] []).imm ∧
    (∃ r ∈ sourcesOf (.cmp 0 0) { noLength with latch := some { cmd := 1, desc := { testDesc 2 0 0 with srcA := 4095 } } },
      ¬r.InMemory noLength) := by decide

/-- MUL with DST0 = SRCA. -/
def mulAliased : State := pending (.mul 0 0) { testDesc 1 1 0 with dst0 := 0x10 } [(0x10, 1), (0x20, 1)]

/-- ADD with DST0 = SRCA + 1 (V-ERR-11). -/
def addAliased : State := pending (.add 0 0) { testDesc 2 0 0 with dst0 := 0x11 } []

/-- DIVMOD with DST1 the last word of DST0. -/
def divAliased : State := pending (.divmod 0 0) { testDesc 2 1 0 with dst1 := 0x51 } []

/-- The checks before the alias check pass. -/
def passesToAlias (i : Instr) (s : State) : Bool := !s.faulted && slotOk i s && lengthsOk i s && rangesOk i s

/-- `ForbiddenOverlapsAreAliasFaults`: each forbidden overlap, by one word, and an allowed identity. -/
theorem witness_overlaps :
    (passesToAlias (.mul 0 0) mulAliased = true ∧ ∃ d ∈ destsOf (.mul 0 0) mulAliased,
      ∃ r ∈ sourcesOf (.mul 0 0) mulAliased, ¬d.Apart r) ∧
    (passesToAlias (.add 0 0) addAliased = true ∧ ∃ d ∈ destsOf (.add 0 0) addAliased,
      ∃ r ∈ sourcesOf (.add 0 0) addAliased, d ≠ r ∧ ¬d.Apart r) ∧
    (passesToAlias (.divmod 0 0) divAliased = true ∧
      ¬(divAliased.atDst0 divAliased.lenA).Apart (divAliased.atDst1 divAliased.lenB)) ∧
    (passesToAlias (.add 0 0) addPending = true ∧ .aliasing ∉ addPending.modelFaults ∧
      ∀ d ∈ destsOf (.add 0 0) addPending, ∀ r ∈ sourcesOf (.add 0 0) addPending, d.Apart r) := by decide

/-- `BadSelectorsAreSelectorFaults`: SEL 2 and SEL 3. -/
theorem witness_selectors :
    ∀ sel ∈ [2, 3], passesToAlias (.cneg 0 sel) (given (.cneg 0 sel) 1 0 0 [1] []) = true ∧
      aliasOk (.cneg 0 sel) (given (.cneg 0 sel) 1 0 0 [1] []) = true := by decide

/-- `UninitialisedSourcesAreUninitFaults`: the last word of SRCA. -/
theorem witness_uninitialised : passesToAlias (.add 0 0) (given (.add 0 0) 2 0 0 [1] [2, 3]) = true ∧
    aliasOk (.add 0 0) (given (.add 0 0) 2 0 0 [1] [2, 3]) = true ∧ selectorOk (.add 0 0) = true ∧
    ⟨0x10, 2⟩ ∈ sourcesOf (.add 0 0) (given (.add 0 0) 2 0 0 [1] [2, 3]) ∧
    (given (.add 0 0) 2 0 0 [1] [2, 3]).mem.read 0x11 = none := by decide

/-- A block with a model fault recorded, and one whose reset input is next. -/
def stoppedBlock : State := { State.reset with modelFaults := [.bus] }

/-- `ModelFaultsAreStickyAndStop` -/
theorem witness_model_fault : stoppedBlock.modelFaults ≠ [] ∧ (∀ rest, stoppedBlock.turns ≠ .reset :: rest) ∧
    step { stoppedBlock with turns := [.reset] } = .next (stepped { stoppedBlock with turns := [.reset] }) :=
  ⟨by decide, fun rest h => absurd (show ([] : List Turn) = .reset :: rest from h) (List.cons_ne_nil _ _).symm, rfl⟩

/-- The three frames: a command of each shape that goes on. -/
theorem witness_frames :
    (∃ t, exec (.cmp 0 0) (given (.cmp 0 0) 1 0 0 [1] [2]) = .next t) ∧ (∃ t, exec (.add 0 0) addPending = .next t) ∧
    ∃ t, exec (.ringInit 3 0) ringInitPending = .next t := ⟨⟨_, rfl⟩, ⟨_, rfl⟩, _, rfl⟩

/-- `CommandsReadOnlyTheirSources`: a memory that differs in a word that is no source. -/
theorem witness_other_memory : addPending.busy = true ∧ (after (.add 0 0) addPending).busy = false ∧
    (after (.add 0 0) addPending).err = .ok ∧
    (sourcesOf (.add 0 0) addPending).all (fun r => (List.range r.len).all fun k =>
      decide ((addPending.mem.write 0x70 9).read (r.base + k) = addPending.mem.read (r.base + k))) = true ∧
    (addPending.mem.write 0x70 9).read 0x70 ≠ addPending.mem.read 0x70 := by decide

/-- `SlotsChangeOnlyByRingInit`, `StepKeepsTheInvariant`: RING_INIT (with no turn left, and with the engine's turn first)
and reset change slots. -/
theorem witness_slots_change :
    (step ringInitPending = .next (stepped ringInitPending) ∧
      step { ringInitPending with turns := [.engine] } = .next (stepped { ringInitPending with turns := [.engine] }) ∧
      step { ringInitPending with turns := [.reset] } = .next (stepped { ringInitPending with turns := [.reset] })) ∧
    (stepped { ringInitPending with turns := [.engine] }).slots ≠ ringInitPending.slots ∧
    (stepped ringInitPending).slots ≠ ringInitPending.slots ∧
    (stepped { ringInitPending with turns := [.reset] }).slots ≠ ringInitPending.slots ∧ ringInitPending.Inv :=
  ⟨⟨rfl, rfl, rfl⟩, by decide, by decide, by decide, by decide⟩

/-- `MemoryIsLittleEndian`: the greatest two-limb value, and a range that reads. -/
theorem witness_little_endian : 2 ^ 128 - 1 < 2 ^ (addPending.w * 2) ∧
    (given (.add 0 0) 2 0 0 [1, 2] [3, 4]).readRange ⟨0x10, 2⟩ = some (1 + 2 * 2 ^ 64) := by decide

/-- `ResetState` -/
theorem witness_reset_turn : State.turns { addPending with turns := [.reset, .engine] } = .reset :: [.engine] := rfl

/-! ## Witnesses of the result statements: the common conditions, then the values each clause needs -/

/-- `CompareAndCountResults`: a above, below and equal to b; a zero and nonzero. -/
theorem witness_compare_and_count :
    Ready (.cmp 0 0) (given (.cmp 0 0) 1 0 0 [2] [1]) [(⟨0x10, 1⟩, 2), (⟨0x20, 1⟩, 1)]
      [] ∧
    (given (.cmp 0 0) 1 0 0 [2] [1]).Inv ∧
    (given (.cmp 0 0) 1 0 0 [2] [1]).LenOk (given (.cmp 0 0) 1 0 0 [2] [1]).lenA ∧
    Ready (.cmp 0 0) (given (.cmp 0 0) 1 0 0 [1] [2]) [(⟨0x10, 1⟩, 1), (⟨0x20, 1⟩, 2)]
      [] ∧
    Ready (.cmp 0 0) (given (.cmp 0 0) 1 0 0 [2] [2]) [(⟨0x10, 1⟩, 2), (⟨0x20, 1⟩, 2)]
      [] ∧
    Ready (.iszero 0 0) (given (.iszero 0 0) 1 0 0 [0] []) [(⟨0x10, 1⟩, 0)]
      [] ∧
    Ready (.clz 0 0) (given (.clz 0 0) 1 0 0 [0] []) [(⟨0x10, 1⟩, 0)]
      [] ∧
    Ready (.clz 0 0) (given (.clz 0 0) 1 0 0 [0x8000000000000000] []) [(⟨0x10, 1⟩, 0x8000000000000000)]
      [] ∧
    Ready (.ctz 0 0) (given (.ctz 0 0) 1 0 0 [0] []) [(⟨0x10, 1⟩, 0)]
      [] ∧
    Ready (.ctz 0 0) (given (.ctz 0 0) 1 0 0 [0x8000000000000000] []) [(⟨0x10, 1⟩, 0x8000000000000000)]
      [] := by and_intros <;> decide

/-- `AddAndSubtractResults`: with and without carry, borrow, and equal operands. -/
theorem witness_add_and_subtract :
    Ready (.add 0 0) (given (.add 0 0) 1 0 0 [2 ^ 64 - 1] [1]) [(⟨0x10, 1⟩, 2 ^ 64 - 1), (⟨0x20, 1⟩, 1)]
      [⟨0x50, 1⟩] ∧
    (given (.add 0 0) 1 0 0 [2 ^ 64 - 1] [1]).Inv ∧
    (given (.add 0 0) 1 0 0 [2 ^ 64 - 1] [1]).LenOk (given (.add 0 0) 1 0 0 [2 ^ 64 - 1] [1]).lenA ∧
    Ready (.add 0 0) (given (.add 0 0) 1 0 0 [2 ^ 64 - 1] [0]) [(⟨0x10, 1⟩, 2 ^ 64 - 1), (⟨0x20, 1⟩, 0)]
      [⟨0x50, 1⟩] ∧
    Ready (.sub 0 0) (given (.sub 0 0) 1 0 0 [1] [2]) [(⟨0x10, 1⟩, 1), (⟨0x20, 1⟩, 2)]
      [⟨0x50, 1⟩] ∧
    Ready (.sub 0 0) (given (.sub 0 0) 1 0 0 [2] [2]) [(⟨0x10, 1⟩, 2), (⟨0x20, 1⟩, 2)]
      [⟨0x50, 1⟩] ∧
    Ready (.absdiff 0 0) (given (.absdiff 0 0) 1 0 0 [3] [8]) [(⟨0x10, 1⟩, 3), (⟨0x20, 1⟩, 8)]
      [⟨0x50, 1⟩] := by and_intros <;> decide

/-- `MultiplyAndSquareResults` -/
theorem witness_multiply_and_square :
    Ready (.mul 0 0) (given (.mul 0 0) 1 1 0 [2 ^ 64 - 1] [2 ^ 64 - 1]) [(⟨0x10, 1⟩, 2 ^ 64 - 1), (⟨0x20, 1⟩, 2 ^ 64 - 1)]
      [⟨0x50, 2⟩] ∧
    (given (.mul 0 0) 1 1 0 [2 ^ 64 - 1] [2 ^ 64 - 1]).LenOk (given (.mul 0 0) 1 1 0 [2 ^ 64 - 1] [2 ^ 64 - 1]).lenA ∧
    (given (.mul 0 0) 1 1 0 [2 ^ 64 - 1] [2 ^ 64 - 1]).LenOk (given (.mul 0 0) 1 1 0 [2 ^ 64 - 1] [2 ^ 64 - 1]).lenB ∧
    ((given (.mul 0 0) 1 1 0 [2 ^ 64 - 1] [2 ^ 64 - 1]).atDst0 2).Apart ((given (.mul 0 0) 1 1 0 [2 ^ 64 - 1] [2 ^ 64 - 1]).atA 1) ∧
    ((given (.mul 0 0) 1 1 0 [2 ^ 64 - 1] [2 ^ 64 - 1]).atDst0 2).Apart ((given (.mul 0 0) 1 1 0 [2 ^ 64 - 1] [2 ^ 64 - 1]).atB 1) ∧
    Ready (.sqr 0 0) (given (.sqr 0 0) 2 0 0 [0, 1] []) [(⟨0x10, 2⟩, 2 ^ 64)]
      [⟨0x50, 4⟩] ∧
    (given (.sqr 0 0) 2 0 0 [0, 1] []).LenOk (given (.sqr 0 0) 2 0 0 [0, 1] []).lenA ∧
    ((given (.sqr 0 0) 2 0 0 [0, 1] []).atDst0 4).Apart ((given (.sqr 0 0) 2 0 0 [0, 1] []).atA 2) := by decide

/-- `ShiftResults`: counts 0, the width, and the greatest. -/
theorem witness_shifts :
    Ready (.shl 0 0) (given (.shl 0 0) 1 0 0 [1] []) [(⟨0x10, 1⟩, 1)]
      [⟨0x50, 1⟩] ∧
    (given (.shl 0 0) 1 0 0 [1] []).Inv ∧
    (given (.shl 0 0) 1 0 0 [1] []).LenOk (given (.shl 0 0) 1 0 0 [1] []).lenA ∧
    Ready (.shl 0 0) (given (.shl 0 0) 1 0 64 [1] []) [(⟨0x10, 1⟩, 1)]
      [⟨0x50, 1⟩] ∧
    Ready (.shr 0 0) (given (.shr 0 0) 1 0 0xFFFFFFFF [2 ^ 64 - 1] []) [(⟨0x10, 1⟩, 2 ^ 64 - 1)]
      [⟨0x50, 1⟩] := by and_intros <;> decide

/-- `BitResults`: the top bit, and the first index outside; the written bit 0 and 1. -/
theorem witness_bits :
    Ready (.bittest 0 0) (given (.bittest 0 0) 1 0 63 [1] []) [(⟨0x10, 1⟩, 1)]
      [] ∧
    (given (.bittest 0 0) 1 0 63 [1] []).LenOk (given (.bittest 0 0) 1 0 63 [1] []).lenA ∧
    (given (.bittest 0 0) 1 0 63 [1] []).imm < (given (.bittest 0 0) 1 0 63 [1] []).w * (given (.bittest 0 0) 1 0 63 [1] []).lenA ∧
    Ready (.bittest 0 0) (given (.bittest 0 0) 1 0 64 [1] []) [(⟨0x10, 1⟩, 1)]
      [] ∧
    (given (.bittest 0 0) 1 0 64 [1] []).w * (given (.bittest 0 0) 1 0 64 [1] []).lenA ≤ (given (.bittest 0 0) 1 0 64 [1] []).imm ∧
    Ready (.bitset 0 0) (given (.bitset 0 0) 1 0 0 [1] []) [(⟨0x10, 1⟩, 1)]
      [⟨0x50, 1⟩] ∧
    (given (.bitset 0 0) 1 0 0 [1] []).imm < (given (.bitset 0 0) 1 0 0 [1] []).w * (given (.bitset 0 0) 1 0 0 [1] []).lenA ∧
    Ready (.bitset 0 1) (given (.bitset 0 1) 1 0 63 [1] []) [(⟨0x10, 1⟩, 1)]
      [⟨0x50, 1⟩] ∧
    (given (.bitset 0 1) 1 0 63 [1] []).imm < (given (.bitset 0 1) 1 0 63 [1] []).w * (given (.bitset 0 1) 1 0 63 [1] []).lenA ∧
    Ready (.bitset 0 1) (given (.bitset 0 1) 1 0 64 [1] []) [(⟨0x10, 1⟩, 1)]
      [⟨0x50, 1⟩] ∧
    (given (.bitset 0 1) 1 0 64 [1] []).w * (given (.bitset 0 1) 1 0 64 [1] []).lenA ≤ (given (.bitset 0 1) 1 0 64 [1] []).imm := by and_intros <;> decide

/-- `ReciprocalAndDivisionResults`: divisors 0 and 1. -/
theorem witness_reciprocal_and_division :
    Ready (.recip 0 0) (given (.recip 0 0) 1 0 0 [1] []) [(⟨0x10, 1⟩, 1)]
      [⟨0x50, 2⟩] ∧
    (given (.recip 0 0) 1 0 0 [1] []).LenOk (given (.recip 0 0) 1 0 0 [1] []).lenA ∧
    Ready (.recip 0 0) (given (.recip 0 0) 1 0 0 [0] []) [(⟨0x10, 1⟩, 0)]
      [⟨0x50, 2⟩] ∧
    Ready (.divmod 0 0) (given (.divmod 0 0) 1 1 0 [0x51] [1]) [(⟨0x10, 1⟩, 0x51), (⟨0x20, 1⟩, 1)]
      [⟨0x50, 1⟩, ⟨0x60, 1⟩] ∧
    (given (.divmod 0 0) 1 1 0 [0x51] [1]).LenOk (given (.divmod 0 0) 1 1 0 [0x51] [1]).lenB ∧
    ((given (.divmod 0 0) 1 1 0 [0x51] [1]).atDst0 1).Apart ((given (.divmod 0 0) 1 1 0 [0x51] [1]).atDst1 1) ∧
    Ready (.divmod 0 0) (given (.divmod 0 0) 1 1 0 [0x51] [0]) [(⟨0x10, 1⟩, 0x51), (⟨0x20, 1⟩, 0)]
      [⟨0x50, 1⟩, ⟨0x60, 1⟩] := by decide

/-- `RingInitResults`: the least accepted values of each strategy, and one of each kind rejected. -/
theorem witness_ring_init :
    Ready (.ringInit 3 0) (given (.ringInit 3 0) 1 0 0 [2] []) [(⟨0x10, 1⟩, 2)]
      [] ∧
    (given (.ringInit 3 0) 1 0 0 [2] []).Inv ∧
    3 < (given (.ringInit 3 0) 1 0 0 [2] []).params.ctxSlots ∧
    (given (.ringInit 3 0) 1 0 0 [2] []).LenOk (given (.ringInit 3 0) 1 0 0 [2] []).lenA ∧
    Ready (.ringInit 3 0) (given (.ringInit 3 0) 1 0 1 [3] []) [(⟨0x10, 1⟩, 3)]
      [] ∧
    Ready (.ringInit 3 0) (given (.ringInit 3 0) 1 0 1 [2] []) [(⟨0x10, 1⟩, 2)]
      [] ∧
    Ready (.ringInit 3 0) (given (.ringInit 3 0) 1 0 0 [1] []) [(⟨0x10, 1⟩, 1)]
      [] ∧
    Ready (.ringInit 3 0) (given (.ringInit 3 0) 2 0 0 [3, 0] []) [(⟨0x10, 2⟩, 3)]
      [] ∧
    Ready (.ringInit 3 0) (given (.ringInit 3 0) 1 0 2 [3] []) [(⟨0x10, 1⟩, 3)]
      [] ∧
    (given (.ringInit 3 0) 1 0 2 [3] []).imm = 2 := by and_intros <;> decide

/-- `CtxRdResults`: the first and last field, a Montgomery field on each strategy, field 8. -/
theorem witness_ctx_rd :
    Ready (.ctxRd 0 0) (given (.ctxRd 0 0) 0 0 0 [] []) []
      [⟨0x50, 1⟩] ∧
    (given (.ctxRd 0 0) 0 0 0 [] []).SlotReady 0 ∧
    (given (.ctxRd 0 0) 0 0 0 [] []).imm = 0 ∧
    Ready (.ctxRd 0 0) (given (.ctxRd 0 0) 0 0 1 [] []) []
      [⟨0x50, 2⟩] ∧
    (given (.ctxRd 0 0) 0 0 1 [] []).imm = 1 ∧
    Ready (.ctxRd 0 0) (given (.ctxRd 0 0) 0 0 2 [] []) []
      [⟨0x50, 1⟩] ∧
    (given (.ctxRd 0 0) 0 0 2 [] []).imm = 2 ∧
    Ready (.ctxRd 1 0) (given (.ctxRd 1 0) 0 0 4 [] []) []
      [⟨0x50, 1⟩] ∧
    (given (.ctxRd 1 0) 0 0 4 [] []).SlotReady 1 ∧
    ((given (.ctxRd 1 0) 0 0 4 [] []).slot 1).strat = .plain ∧
    Ready (.ctxRd 1 0) (given (.ctxRd 1 0) 0 0 7 [] []) []
      [⟨0x50, 1⟩] ∧
    (given (.ctxRd 1 0) 0 0 7 [] []).imm = 7 ∧
    (given (.ctxRd 1 0) 0 0 8 [] []).faulted = false ∧ 7 < (given (.ctxRd 1 0) 0 0 8 [] []).imm := by and_intros <;> decide

/-- `ModredResults`: one limb and 2n limbs. -/
theorem witness_modred :
    Ready (.modred 0 0) (given (.modred 0 0) 1 0 0 [0xA001] []) [(⟨0x10, 1⟩, 0xA001)]
      [⟨0x50, 1⟩] ∧
    (given (.modred 0 0) 1 0 0 [0xA001] []).SlotReady 0 ∧
    1 ≤ (given (.modred 0 0) 1 0 0 [0xA001] []).lenA ∧
    Ready (.modred 1 0) (given (.modred 1 0) 2 0 0 [2 ^ 64 - 1, 2 ^ 64 - 1] []) [(⟨0x10, 2⟩, 2 ^ 128 - 1)]
      [⟨0x50, 1⟩] ∧
    (given (.modred 1 0) 2 0 0 [2 ^ 64 - 1, 2 ^ 64 - 1] []).SlotReady 1 ∧
    (given (.modred 1 0) 2 0 0 [2 ^ 64 - 1, 2 ^ 64 - 1] []).lenA ≤ 2 * ((given (.modred 1 0) 2 0 0 [2 ^ 64 - 1, 2 ^ 64 - 1] []).slot 1).n := by and_intros <;> decide

/-- `ModularAddSubtractHalveResults`: p − 1 and p; an odd and an even modulus. -/
theorem witness_modular_add_subtract_halve :
    Ready (.modadd 0 0) (given (.modadd 0 0) 0 0 0 [0xA000] [0xA000]) [(⟨0x10, 1⟩, 0xA000), (⟨0x20, 1⟩, 0xA000)]
      [⟨0x50, 1⟩] ∧
    (given (.modadd 0 0) 0 0 0 [0xA000] [0xA000]).SlotReady 0 ∧
    Ready (.modadd 0 0) (given (.modadd 0 0) 0 0 0 [0xA001] [0]) [(⟨0x10, 1⟩, 0xA001), (⟨0x20, 1⟩, 0)]
      [⟨0x50, 1⟩] ∧
    Ready (.modsub 0 0) (given (.modsub 0 0) 0 0 0 [0] [0xA000]) [(⟨0x10, 1⟩, 0), (⟨0x20, 1⟩, 0xA000)]
      [⟨0x50, 1⟩] ∧
    Ready (.modhalf 0 0) (given (.modhalf 0 0) 0 0 0 [0xA000] []) [(⟨0x10, 1⟩, 0xA000)]
      [⟨0x50, 1⟩] ∧
    ((given (.modhalf 0 0) 0 0 0 [0xA000] []).slot 0).modulus % 2 = 1 ∧
    0xA000 < ((given (.modhalf 0 0) 0 0 0 [0xA000] []).slot 0).modulus ∧
    Ready (.modhalf 0 0) (given (.modhalf 0 0) 0 0 0 [0xA001] []) [(⟨0x10, 1⟩, 0xA001)]
      [⟨0x50, 1⟩] ∧
    ((given (.modhalf 0 0) 0 0 0 [0xA001] []).slot 0).modulus ≤ 0xA001 ∧
    Ready (.modhalf 3 0) (given (.modhalf 3 0) 0 0 0 [3] []) [(⟨0x10, 1⟩, 3)]
      [⟨0x50, 1⟩] ∧
    (given (.modhalf 3 0) 0 0 0 [3] []).SlotReady 3 ∧
    ((given (.modhalf 3 0) 0 0 0 [3] []).slot 3).modulus % 2 = 0 := by and_intros <;> decide

/-- `InverterResults`: an invertible element, 0, a shared factor, p, and an even modulus. -/
theorem witness_inverters :
    Ready (.modinvCt 0 0) (given (.modinvCt 0 0) 0 0 0 [0xA000] []) [(⟨0x10, 1⟩, 0xA000)]
      [⟨0x50, 1⟩] ∧
    (given (.modinvCt 0 0) 0 0 0 [0xA000] []).SlotReady 0 ∧
    ((given (.modinvCt 0 0) 0 0 0 [0xA000] []).slot 0).strat = .montgomery ∧
    Nat.gcd 0xA000 ((given (.modinvCt 0 0) 0 0 0 [0xA000] []).slot 0).modulus = 1 ∧
    Ready (.modinvVt 1 0) (given (.modinvVt 1 0) 0 0 0 [1] []) [(⟨0x10, 1⟩, 1)]
      [⟨0x50, 1⟩] ∧
    (given (.modinvVt 1 0) 0 0 0 [1] []).SlotReady 1 ∧
    ((given (.modinvVt 1 0) 0 0 0 [1] []).slot 1).strat = .plain ∧
    Nat.gcd 1 ((given (.modinvVt 1 0) 0 0 0 [1] []).slot 1).modulus = 1 ∧
    Ready (.modinvCt 0 0) (given (.modinvCt 0 0) 0 0 0 [0] []) [(⟨0x10, 1⟩, 0)]
      [⟨0x50, 1⟩] ∧
    Nat.gcd 0 ((given (.modinvCt 0 0) 0 0 0 [0] []).slot 0).modulus ≠ 1 ∧
    Ready (.modinvVt 2 0) (given (.modinvVt 2 0) 0 0 0 [3] []) [(⟨0x10, 1⟩, 3)]
      [⟨0x50, 1⟩] ∧
    (given (.modinvVt 2 0) 0 0 0 [3] []).SlotReady 2 ∧
    ((given (.modinvVt 2 0) 0 0 0 [3] []).slot 2).modulus % 2 = 1 ∧
    Nat.gcd 3 ((given (.modinvVt 2 0) 0 0 0 [3] []).slot 2).modulus ≠ 1 ∧
    Ready (.modinvCt 0 0) (given (.modinvCt 0 0) 0 0 0 [0xA001] []) [(⟨0x10, 1⟩, 0xA001)]
      [⟨0x50, 1⟩] ∧
    ((given (.modinvCt 0 0) 0 0 0 [0xA001] []).slot 0).modulus ≤ 0xA001 ∧
    Ready (.modinvVt 3 0) (given (.modinvVt 3 0) 0 0 0 [3] []) [(⟨0x10, 1⟩, 3)]
      [⟨0x50, 1⟩] ∧
    (given (.modinvVt 3 0) 0 0 0 [3] []).SlotReady 3 ∧
    ((given (.modinvVt 3 0) 0 0 0 [3] []).slot 3).modulus % 2 = 0 := by and_intros <;> decide

/-- `RingInverseResults`, each strategy: an invertible element, 0, a shared factor, p, and an even modulus. -/
theorem witness_ring_inverse :
    Ready (.rinv 0 0) (given (.rinv 0 0) 0 0 0 [0xA000] []) [(⟨0x10, 1⟩, 0xA000)]
      [⟨0x50, 1⟩] ∧
    (given (.rinv 0 0) 0 0 0 [0xA000] []).SlotReady 0 ∧
    ((given (.rinv 0 0) 0 0 0 [0xA000] []).slot 0).strat = .montgomery ∧
    Nat.gcd 0xA000 ((given (.rinv 0 0) 0 0 0 [0xA000] []).slot 0).modulus = 1 ∧
    Ready (.rinv 1 0) (given (.rinv 1 0) 0 0 0 [1] []) [(⟨0x10, 1⟩, 1)]
      [⟨0x50, 1⟩] ∧
    (given (.rinv 1 0) 0 0 0 [1] []).SlotReady 1 ∧
    ((given (.rinv 1 0) 0 0 0 [1] []).slot 1).strat = .plain ∧
    Nat.gcd 1 ((given (.rinv 1 0) 0 0 0 [1] []).slot 1).modulus = 1 ∧
    Ready (.rinv 0 0) (given (.rinv 0 0) 0 0 0 [0] []) [(⟨0x10, 1⟩, 0)]
      [⟨0x50, 1⟩] ∧
    Nat.gcd 0 ((given (.rinv 0 0) 0 0 0 [0] []).slot 0).modulus ≠ 1 ∧
    Ready (.rinv 2 0) (given (.rinv 2 0) 0 0 0 [3] []) [(⟨0x10, 1⟩, 3)]
      [⟨0x50, 1⟩] ∧
    (given (.rinv 2 0) 0 0 0 [3] []).SlotReady 2 ∧
    ((given (.rinv 2 0) 0 0 0 [3] []).slot 2).modulus % 2 = 1 ∧
    Nat.gcd 3 ((given (.rinv 2 0) 0 0 0 [3] []).slot 2).modulus ≠ 1 ∧
    Ready (.rinv 0 0) (given (.rinv 0 0) 0 0 0 [0xA001] []) [(⟨0x10, 1⟩, 0xA001)]
      [⟨0x50, 1⟩] ∧
    ((given (.rinv 0 0) 0 0 0 [0xA001] []).slot 0).modulus ≤ 0xA001 ∧
    Ready (.rinv 3 0) (given (.rinv 3 0) 0 0 0 [3] []) [(⟨0x10, 1⟩, 3)]
      [⟨0x50, 1⟩] ∧
    (given (.rinv 3 0) 0 0 0 [3] []).SlotReady 3 ∧
    ((given (.rinv 3 0) 0 0 0 [3] []).slot 3).modulus % 2 = 0 := by and_intros <;> decide

/-- `RingMultiplyAndSquareResults`: each strategy, p − 1 and p. -/
theorem witness_ring_multiply_and_square :
    Ready (.rmul 0 0) (given (.rmul 0 0) 0 0 0 [0xA000] [0xA000]) [(⟨0x10, 1⟩, 0xA000), (⟨0x20, 1⟩, 0xA000)]
      [⟨0x50, 1⟩] ∧
    (given (.rmul 0 0) 0 0 0 [0xA000] [0xA000]).SlotReady 0 ∧
    ((given (.rmul 0 0) 0 0 0 [0xA000] [0xA000]).slot 0).strat = .montgomery ∧
    Ready (.rmul 1 0) (given (.rmul 1 0) 0 0 0 [0xA000] [0xA000]) [(⟨0x10, 1⟩, 0xA000), (⟨0x20, 1⟩, 0xA000)]
      [⟨0x50, 1⟩] ∧
    (given (.rmul 1 0) 0 0 0 [0xA000] [0xA000]).SlotReady 1 ∧
    ((given (.rmul 1 0) 0 0 0 [0xA000] [0xA000]).slot 1).strat = .plain ∧
    Ready (.rmul 0 0) (given (.rmul 0 0) 0 0 0 [0] [0xA001]) [(⟨0x10, 1⟩, 0), (⟨0x20, 1⟩, 0xA001)]
      [⟨0x50, 1⟩] ∧
    Ready (.rsqr 0 0) (given (.rsqr 0 0) 0 0 0 [0xA000] []) [(⟨0x10, 1⟩, 0xA000)]
      [⟨0x50, 1⟩] ∧
    Ready (.rsqr 1 0) (given (.rsqr 1 0) 0 0 0 [0xA001] []) [(⟨0x10, 1⟩, 0xA001)]
      [⟨0x50, 1⟩] := by and_intros <;> decide

/-- `RreduceResults`: each strategy; on M40961 a t that needs no subtraction, and one whose quotient is 2p or more. -/
theorem witness_rreduce :
    Ready (.rreduce 1 0) (given (.rreduce 1 0) 2 0 0 [2 ^ 64 - 1, 2 ^ 64 - 1] []) [(⟨0x10, 2⟩, 2 ^ 128 - 1)]
      [⟨0x50, 1⟩] ∧
    (given (.rreduce 1 0) 2 0 0 [2 ^ 64 - 1, 2 ^ 64 - 1] []).Inv ∧
    (given (.rreduce 1 0) 2 0 0 [2 ^ 64 - 1, 2 ^ 64 - 1] []).SlotReady 1 ∧
    1 ≤ (given (.rreduce 1 0) 2 0 0 [2 ^ 64 - 1, 2 ^ 64 - 1] []).lenA ∧
    (given (.rreduce 1 0) 2 0 0 [2 ^ 64 - 1, 2 ^ 64 - 1] []).lenA ≤ 2 * ((given (.rreduce 1 0) 2 0 0 [2 ^ 64 - 1, 2 ^ 64 - 1] []).slot 1).n ∧
    Ready (.rreduce 0 0) (given (.rreduce 0 0) 1 0 0 [0x720D] []) [(⟨0x10, 1⟩, 0x720D)]
      [⟨0x50, 1⟩] ∧
    (given (.rreduce 0 0) 1 0 0 [0x720D] []).Inv ∧
    (given (.rreduce 0 0) 1 0 0 [0x720D] []).SlotReady 0 ∧
    0x720D < ((given (.rreduce 0 0) 1 0 0 [0x720D] []).slot 0).modulus * 2 ^ ((given (.rreduce 0 0) 1 0 0 [0x720D] []).w * ((given (.rreduce 0 0) 1 0 0 [0x720D] []).slot 0).n) ∧
    Ready (.rreduce 0 0) (given (.rreduce 0 0) 2 0 0 [2 ^ 64 - 1, 2 ^ 64 - 1] []) [(⟨0x10, 2⟩, 2 ^ 128 - 1)]
      [⟨0x50, 1⟩] ∧
    2 * ((given (.rreduce 0 0) 2 0 0 [2 ^ 64 - 1, 2 ^ 64 - 1] []).slot 0).modulus * 2 ^ ((given (.rreduce 0 0) 2 0 0 [2 ^ 64 - 1, 2 ^ 64 - 1] []).w * ((given (.rreduce 0 0) 2 0 0 [2 ^ 64 - 1, 2 ^ 64 - 1] []).slot 0).n) ≤ 2 ^ 128 - 1 := by and_intros <;> decide

/-- `RingConversionResults`: each strategy, p − 1 and p. -/
theorem witness_ring_conversion :
    Ready (.rto 0 0) (given (.rto 0 0) 0 0 0 [0xA000] []) [(⟨0x10, 1⟩, 0xA000)]
      [⟨0x50, 1⟩] ∧
    (given (.rto 0 0) 0 0 0 [0xA000] []).SlotReady 0 ∧
    Ready (.rto 1 0) (given (.rto 1 0) 0 0 0 [0xA001] []) [(⟨0x10, 1⟩, 0xA001)]
      [⟨0x50, 1⟩] ∧
    (given (.rto 1 0) 0 0 0 [0xA001] []).SlotReady 1 ∧
    Ready (.rfrom 0 0) (given (.rfrom 0 0) 0 0 0 [0xA000] []) [(⟨0x10, 1⟩, 0xA000)]
      [⟨0x50, 1⟩] ∧
    ((given (.rfrom 0 0) 0 0 0 [0xA000] []).slot 0).strat = .montgomery ∧
    Ready (.rfrom 1 0) (given (.rfrom 1 0) 0 0 0 [0xA000] []) [(⟨0x10, 1⟩, 0xA000)]
      [⟨0x50, 1⟩] ∧
    ((given (.rfrom 1 0) 0 0 0 [0xA000] []).slot 1).strat = .plain ∧
    Ready (.rfrom 0 0) (given (.rfrom 0 0) 0 0 0 [0xA001] []) [(⟨0x10, 1⟩, 0xA001)]
      [⟨0x50, 1⟩] := by and_intros <;> decide

/-- `RingIdentityTest`: the identity of each strategy, another element, p. -/
theorem witness_ring_identity :
    Ready (.risone 0 0) (given (.risone 0 0) 0 0 0 [0x76D0] []) [(⟨0x10, 1⟩, 0x76D0)]
      [] ∧
    (given (.risone 0 0) 0 0 0 [0x76D0] []).SlotReady 0 ∧
    Ready (.risone 1 0) (given (.risone 1 0) 0 0 0 [1] []) [(⟨0x10, 1⟩, 1)]
      [] ∧
    (given (.risone 1 0) 0 0 0 [1] []).SlotReady 1 ∧
    Ready (.risone 0 0) (given (.risone 0 0) 0 0 0 [0xA001] []) [(⟨0x10, 1⟩, 0xA001)]
      [] := by and_intros <;> decide

/-- `MaskResults`: each comparison holding, and failing on equal or unequal words. -/
theorem witness_masks :
    Ready (.ctEq 0 0) (given (.ctEq 0 0) 0 0 0 [7] [7]) [(⟨0x10, 1⟩, 7), (⟨0x20, 1⟩, 7)]
      [⟨0x50, 1⟩] ∧
    Ready (.ctEq 0 0) (given (.ctEq 0 0) 0 0 0 [7] [8]) [(⟨0x10, 1⟩, 7), (⟨0x20, 1⟩, 8)]
      [⟨0x50, 1⟩] ∧
    Ready (.ctLt 0 0) (given (.ctLt 0 0) 0 0 0 [0] [2 ^ 64 - 1]) [(⟨0x10, 1⟩, 0), (⟨0x20, 1⟩, 2 ^ 64 - 1)]
      [⟨0x50, 1⟩] ∧
    Ready (.ctGt 0 0) (given (.ctGt 0 0) 0 0 0 [7] [7]) [(⟨0x10, 1⟩, 7), (⟨0x20, 1⟩, 7)]
      [⟨0x50, 1⟩] := by decide

/-- `SelectResults`: each selector and each index. -/
theorem witness_selects :
    Ready (.ctSel 0 0) (given (.ctSel 0 0) 0 0 0 [1] [2]) [(⟨0x10, 1⟩, 1), (⟨0x20, 1⟩, 2)]
      [⟨0x50, 1⟩] ∧
    Ready (.ctSel 0 1) (given (.ctSel 0 1) 0 0 0 [1] [2]) [(⟨0x10, 1⟩, 1), (⟨0x20, 1⟩, 2)]
      [⟨0x50, 1⟩] ∧
    Ready (.mux2 0 1) (given (.mux2 0 1) 1 0 0 [1] [2]) [(⟨0x10, 1⟩, 1), (⟨0x20, 1⟩, 2)]
      [⟨0x50, 1⟩] ∧
    (given (.mux2 0 1) 1 0 0 [1] [2]).LenOk (given (.mux2 0 1) 1 0 0 [1] [2]).lenA ∧
    Ready (.mux4 0 0) (given (.mux4 0 0) 1 0 0 [1] [2]) [(⟨0x10, 1⟩, 1), (⟨0x20, 1⟩, 2), (⟨0x30, 1⟩, 0xC), (⟨0x40, 1⟩, 0xD)]
      [⟨0x50, 1⟩] ∧
    [1, 2, 0xC, 0xD][0]? = some 1 ∧
    Ready (.mux4 0 3) (given (.mux4 0 3) 1 0 0 [1] [2]) [(⟨0x10, 1⟩, 1), (⟨0x20, 1⟩, 2), (⟨0x30, 1⟩, 0xC), (⟨0x40, 1⟩, 0xD)]
      [⟨0x50, 1⟩] ∧
    [1, 2, 0xC, 0xD][3]? = some 0xD := by and_intros <;> decide

/-- `ConditionalSwapResults` -/
theorem witness_conditional_swap :
    Ready (.cswap 0 1) (given (.cswap 0 1) 2 0 0 [1, 2] [3, 4]) [(⟨0x10, 2⟩, 1 + 2 * 2 ^ 64), (⟨0x20, 2⟩, 3 + 4 * 2 ^ 64)]
      [⟨0x10, 2⟩, ⟨0x20, 2⟩] ∧
    (given (.cswap 0 1) 2 0 0 [1, 2] [3, 4]).Inv ∧
    (given (.cswap 0 1) 2 0 0 [1, 2] [3, 4]).LenOk (given (.cswap 0 1) 2 0 0 [1, 2] [3, 4]).lenA := by decide

/-- `NegateAndShiftResults`: counts 0, W − 1 and W, each selector. -/
theorem witness_negate_and_shift :
    Ready (.cneg 0 0) (given (.cneg 0 0) 1 0 0 [0] []) [(⟨0x10, 1⟩, 0)]
      [⟨0x50, 1⟩] ∧
    (given (.cneg 0 0) 1 0 0 [0] []).LenOk (given (.cneg 0 0) 1 0 0 [0] []).lenA ∧
    Ready (.cneg 0 1) (given (.cneg 0 1) 1 0 0 [1] []) [(⟨0x10, 1⟩, 1)]
      [⟨0x50, 1⟩] ∧
    Ready (.cshr 0 1) (given (.cshr 0 1) 1 0 0 [1] [1]) [(⟨0x10, 1⟩, 1), (⟨0x20, 1⟩, 1)]
      [⟨0x50, 1⟩] ∧
    (given (.cshr 0 1) 1 0 0 [1] [1]).imm < (given (.cshr 0 1) 1 0 0 [1] [1]).w ∧
    Ready (.cshr 0 0) (given (.cshr 0 0) 1 0 63 [1] [1]) [(⟨0x10, 1⟩, 1), (⟨0x20, 1⟩, 1)]
      [⟨0x50, 1⟩] ∧
    (given (.cshr 0 0) 1 0 63 [1] [1]).imm < (given (.cshr 0 0) 1 0 63 [1] [1]).w ∧
    Ready (.cshr 0 1) (given (.cshr 0 1) 1 0 64 [1] [1]) [(⟨0x10, 1⟩, 1), (⟨0x20, 1⟩, 1)]
      [⟨0x50, 1⟩] ∧
    (given (.cshr 0 1) 1 0 64 [1] [1]).w ≤ (given (.cshr 0 1) 1 0 64 [1] [1]).imm := by and_intros <;> decide

/-- `ExponentiationResults`: each strategy, exponents 0 and 1, bases p − 1 and p. -/
theorem witness_exponentiation :
    Ready (.expLadder 0 0) (given (.expLadder 0 0) 0 1 0 [0xA000] [0]) [(⟨0x10, 1⟩, 0xA000), (⟨0x20, 1⟩, 0)]
      [⟨0x50, 1⟩] ∧
    (given (.expLadder 0 0) 0 1 0 [0xA000] [0]).SlotReady 0 ∧
    (given (.expLadder 0 0) 0 1 0 [0xA000] [0]).LenOk (given (.expLadder 0 0) 0 1 0 [0xA000] [0]).lenB ∧
    Ready (.expFast 1 0) (given (.expFast 1 0) 0 1 0 [0xA000] [1]) [(⟨0x10, 1⟩, 0xA000), (⟨0x20, 1⟩, 1)]
      [⟨0x50, 1⟩] ∧
    (given (.expFast 1 0) 0 1 0 [0xA000] [1]).SlotReady 1 ∧
    (given (.expFast 1 0) 0 1 0 [0xA000] [1]).LenOk (given (.expFast 1 0) 0 1 0 [0xA000] [1]).lenB ∧
    Ready (.expSsma 0 0) (given (.expSsma 0 0) 0 1 0 [0xA001] [1]) [(⟨0x10, 1⟩, 0xA001), (⟨0x20, 1⟩, 1)]
      [⟨0x50, 1⟩] := by and_intros <;> decide

/-- `RingElementsStayBelowTheModulus`: a reduced and an unreduced input. -/
theorem witness_ring_elements :
    ((given (.rsqr 0 0) 0 0 0 [0xA001] []).SlotReady 0 ∧
      passesToAlias (.rsqr 0 0) (given (.rsqr 0 0) 0 0 0 [0xA001] []) = true ∧
      aliasOk (.rsqr 0 0) (given (.rsqr 0 0) 0 0 0 [0xA001] []) = true ∧
      State.readRanges (given (.rsqr 0 0) 0 0 0 [0xA001] []) (sourcesOf (.rsqr 0 0) (given (.rsqr 0 0) 0 0 0 [0xA001] [])) =
        some [0xA001]) ∧
    State.readRanges (given (.rmul 0 0) 0 0 0 [0] [0xA001]) (sourcesOf (.rmul 0 0) (given (.rmul 0 0) 0 0 0 [0] [0xA001])) =
      some [0, 0xA001] ∧
    (given (.rsqr 0 0) 0 0 0 [0xA000] []).busy = true ∧
    (after (.rsqr 0 0) (given (.rsqr 0 0) 0 0 0 [0xA000] [])).busy = false ∧
    (after (.rsqr 0 0) (given (.rsqr 0 0) 0 0 0 [0xA000] [])).err = .ok :=
  ⟨⟨by decide, by decide, by decide, by decide⟩, by decide, by decide, by decide, by decide⟩

/-- `ConditionalPrimitivesTouchTheSameWords`: both selectors, and a memory with other values in the same words. -/
theorem witness_same_words : selectorOk (.cswap 0 0) = true ∧ selectorOk (.cswap 0 1) = true ∧
    selectorOk (.mux4 0 3) = true ∧
    (List.range 0x60).all (fun a => decide
      (((given (.cswap 0 0) 1 0 0 [1] [2]).mem.read a).isSome = ((given (.cswap 0 0) 1 0 0 [3] [4]).mem.read a).isSome)) =
      true := by decide

/-- `ExponentiationListingsAgree`: each strategy, base p − 1 and the greatest one-limb exponent. -/
theorem witness_listings : ∀ c ∈ [builtSlot 64 .montgomery 1 40961, builtSlot 64 .plain 1 40961],
    c.wellBuilt Params.default ∧ 0xA000 < c.modulus ∧ 2 ^ 64 - 1 < 2 ^ (Params.default.w * 1) := by decide

end Sys2Proof.Tests
end

section
/-!
PROOFS. The identity registers (10_state.md R33–R35) and the model-fault record (10_state.md R48).
-/

namespace Sys2Proof.Machine

/-! ## The read-only registers -/

@[simp] theorem State.csr_id (s : State) : s.csr 0x00#8 = idWord s.params := rfl
@[simp] theorem State.csr_param0 (s : State) : s.csr 0x01#8 = param0Word s.params := rfl
@[simp] theorem State.csr_param1 (s : State) : s.csr 0x02#8 = param1Word s.params := rfl

@[simp] theorem State.writeCsr_id (s : State) (v : BitVec 32) : s.writeCsr 0x00#8 v = s := rfl
@[simp] theorem State.writeCsr_param0 (s : State) (v : BitVec 32) : s.writeCsr 0x01#8 v = s := rfl
@[simp] theorem State.writeCsr_param1 (s : State) (v : BitVec 32) : s.writeCsr 0x02#8 v = s := rfl

/-- The fields of ID (R33). W is 32 or 64, so each case is one fixed word. -/
theorem idWord_fields (p : Params) :
    (idWord p).extractLsb' 16 16 = 0x4D4D#16 ∧ ((idWord p).extractLsb' 8 8).toNat = p.w ∧
      (idWord p).extractLsb' 0 8 = 0x01#8 := by
  unfold idWord Params.w
  cases p.width <;> decide

/-- A field of a 32-bit word, as a number. -/
theorem toNat_field_ofNat (x start len : Nat) :
    ((BitVec.ofNat 32 x).extractLsb' start len).toNat = x % 2 ^ 32 / 2 ^ start % 2 ^ len := by
  rw [BitVec.extractLsb'_toNat, BitVec.toNat_ofNat, Nat.shiftRight_eq_div_pow]

/-- The fields of PARAM0 (R34): each parameter fits its field in a legal configuration. -/
theorem param0Word_fields {p : Params} (hp : p.wf) :
    ((param0Word p).extractLsb' 0 16).toNat = p.nMax ∧ ((param0Word p).extractLsb' 16 3).toNat + 1 = p.ctxSlots ∧
      (param0Word p).extractLsb' 19 13 = 0#13 := by
  obtain ⟨⟨-, hn⟩, -, hc1, hc8⟩ := hp
  simp only [param0Word, ← BitVec.toNat_inj, toNat_field_ofNat, BitVec.toNat_zero]
  omega

theorem param1Word_toNat (p : Params) : (param1Word p).toNat = p.memWords % 2 ^ 32 := BitVec.toNat_ofNat ..

/-- Settles O11: a read gives the register's word, whose fields are computed above, and a write changes nothing. -/
theorem identityRegisters : Obligations.IdentityRegisters := by
  intro s hp
  simp only [BitVec.ofNat_eq_ofNat, State.csr_id, State.csr_param0, State.csr_param1, State.writeCsr_id,
    State.writeCsr_param0, State.writeCsr_param1, and_self, implies_true, and_true]
  exact ⟨idWord_fields s.params, param0Word_fields hp, param1Word_toNat s.params⟩

/-! ## The model-fault record -/

/-- The host cannot see the record: no register holds any of it. -/
@[simp] theorem State.csr_with_modelFaults (s : State) (ks : List ModelFault) (k : BitVec 8) :
    State.csr { s with modelFaults := ks } k = s.csr k := rfl

/-- Once a kind is recorded, neither agent acts any more (60_exceptions.md R411). -/
theorem agentTurn_of_modelFaults {s : State} (h : s.modelFaults ≠ []) (turn : Host.Outcome State Fault Refusal) :
    agentTurn s turn = .fault (.modelFault s.modelFaults) := if_neg h

/-- Every turn but the reset input is an agent's. -/
theorem step_eq_agentTurn {s : State} (h : ∀ rest, s.turns ≠ .reset :: rest) : ∃ turn, step s = agentTurn s turn := by
  unfold step nextTurn
  split
  case h_1 => exact ⟨_, rfl⟩
  case h_2 => exact ⟨_, rfl⟩
  case h_3 => exact ⟨_, rfl⟩
  case h_4 rest ht => exact absurd ht (h rest)

theorem step_of_modelFaults {s : State} (h : s.modelFaults ≠ []) (hr : ∀ rest, s.turns ≠ .reset :: rest) :
    step s = .fault (.modelFault s.modelFaults) := by
  obtain ⟨turn, ht⟩ := step_eq_agentTurn hr
  rw [ht, agentTurn_of_modelFaults h]

/-- A step keeps every recorded kind: the reset input leaves the record, and an agent only moves while it is empty. -/
theorem step_keeps_modelFaults {s t : State} (h : step s = .next t) {k : ModelFault} (hk : k ∈ s.modelFaults) :
    k ∈ t.modelFaults := by
  rcases step_cases h with ⟨rest, -, rfl⟩ | ⟨hm, -⟩ | ⟨hm, -⟩
  · simpa using hk
  · exact absurd hk (by simp [hm])
  · exact absurd hk (by simp [hm])

/-- Settles O26: empty at reset, kept by every step, read by no register, and a stop for host and engine. -/
theorem modelFaultsAreStickyAndStop : Obligations.ModelFaultsAreStickyAndStop :=
  ⟨rfl, fun _ _ h _ hk => step_keeps_modelFaults h hk, State.csr_with_modelFaults, fun _ => step_of_modelFaults⟩

end Sys2Proof.Machine
end

section
/-!
PROOFS. The command words R117 calls illegal, and the host's CMD write (30_encoding.md R110, R117).
-/

namespace Sys2Proof.Machine

/-! ## Which words decode -/

theorem rsvdField_eq_zero_iff (cmd : BitVec 32) : rsvdField cmd = 0 ↔ cmd.toNat / 2 ^ 13 = 0 := by
  have hfield : (rsvdField cmd).toNat = cmd.toNat / 2 ^ 13 % 2 ^ 19 := by
    rw [rsvdField, BitVec.extractLsb'_toNat, Nat.shiftRight_eq_div_pow]
  have hlt := cmd.isLt
  rw [← BitVec.toNat_inj, hfield, BitVec.ofNat_eq_ofNat, BitVec.toNat_zero]
  omega

theorem opcField_toNat (cmd : BitVec 32) : (opcField cmd).toNat = cmd.toNat % 2 ^ 8 :=
  BitVec.extractLsb'_toNat ..

/-- Whether an opcode is assigned does not depend on the other fields. -/
theorem instrOf_isSome_eq (opc : BitVec 8) (ctx sel : Nat) :
    (instrOf opc ctx sel).isSome = (instrOf opc 0 0).isSome := by
  unfold instrOf
  split <;> rfl

/-- The opcodes R117 lists as unassigned. -/
def UnassignedOpcode (n : Nat) : Prop :=
  n = 0x00 ∨ (0x0E ≤ n ∧ n ≤ 0x0F) ∨ (0x12 ≤ n ∧ n ≤ 0x1F) ∨ n = 0x2F ∨ (0x39 ≤ n ∧ n ≤ 0x3F) ∨ 0x43 ≤ n

/-- The opcode map leaves out exactly the listed opcodes; one byte, so it is checked opcode by opcode. -/
theorem instrOf_eq_none_iff (opc : BitVec 8) (ctx sel : Nat) :
    instrOf opc ctx sel = none ↔ UnassignedOpcode opc.toNat := by
  have table : ∀ opc : BitVec 8, (instrOf opc 0 0).isSome = false ↔ UnassignedOpcode opc.toNat := by
    unfold UnassignedOpcode
    decide
  rw [← table, ← instrOf_isSome_eq opc ctx sel, Option.isSome_eq_false_iff, Option.isNone_iff_eq_none]

/-- The decoder rejects exactly the words R117 calls illegal. -/
theorem illegalCommandWord_iff (cmd : BitVec 32) : IllegalCommandWord cmd ↔ ∃ e, decode cmd = .error e := by
  have hword : IllegalCommandWord cmd ↔ rsvdField cmd ≠ 0 ∨ UnassignedOpcode (opcField cmd).toNat := by
    rw [ne_eq, rsvdField_eq_zero_iff, opcField_toNat]; rfl
  rw [hword, ← instrOf_eq_none_iff _ (ctxField cmd).toNat (selField cmd).toNat, decode]
  by_cases hr : rsvdField cmd = 0#19
  · cases instrOf (opcField cmd) (ctxField cmd).toNat (selField cmd).toNat <;> simp [hr]
  · simp [hr]

/-! ## The turns of a block without a model fault -/

theorem step_of_host {s : State} (hm : s.modelFaults = []) {a : HostAction} {rest : List Turn}
    (ht : s.turns = .host a :: rest) : step s = .next (State.hostAccess { s with turns := rest } a) := by
  simp [step, nextTurn, ht, agentTurn, hm]

/-- The engine's turn with a command latched. -/
theorem step_of_latch {s : State} (hm : s.modelFaults = []) {l : Latch} (hl : s.latch = some l) {rest : List Turn}
    (ht : s.turns = .engine :: rest) : step s = performWord { s with turns := rest } l.cmd := by
  simp [step, nextTurn, ht, agentTurn, hm, engineTurn, State.pendingCommand, hl]

theorem performWord_of_ok (s : State) {cmd : BitVec 32} {i : Instr} (h : decode cmd = .ok i) :
    performWord s cmd = exec i s := by simp [performWord, h]

theorem performWord_of_error (s : State) {cmd : BitVec 32} {e : IllegalWord} (h : decode cmd = .error e) :
    performWord s cmd = .next s.rejectIllegal := by simp [performWord, h]

/-- Settles O4: the illegal words are those the decoder rejects, and the engine's turn then ends the command with
ILLEGAL. -/
theorem illegalWordsEndWithIllegal : Obligations.IllegalWordsEndWithIllegal := by
  refine ⟨fun s l rest hm hf hl ht hw => ?_, fun cmd hw => ?_⟩
  · obtain ⟨e, he⟩ := (illegalCommandWord_iff l.cmd).mp hw
    rw [step_of_latch hm hl ht, performWord_of_error _ he, State.rejectIllegal_eq]
    simp [hf]
  · cases hd : decode cmd with
    | ok i => exact ⟨i, rfl⟩
    | error e => exact absurd ((illegalCommandWord_iff cmd).mpr ⟨e, hd⟩) hw

/-! ## The CMD write -/

theorem State.hostAccess_cmd_idle {s : State} (h : s.busy = false) (v : BitVec 32) :
    s.hostAccess (.csrWrite 0x05 v) = s.issue v := by
  simp [State.hostAccess, State.writeCsr, State.writeCmd, h]

theorem State.hostAccess_cmd_busy {s : State} (h : s.busy = true) (v : BitVec 32) :
    s.hostAccess (.csrWrite 0x05 v) = s.recordFault .hostHazard := by
  simp [State.hostAccess, State.writeCsr, State.writeCmd, h]

/-- Settles O6: the host's turn issues the command or records the hazard; the engine's next turn performs the word that
was latched. -/
theorem cmdWriteLatchesACommand : Obligations.CmdWriteLatchesACommand := by
  intro s v rest hm ht
  have hstep := step_of_host hm ht
  refine ⟨fun hb => ⟨?_, fun rest' i hrest hd => ?_⟩, fun hb => ⟨_, hstep, ?_⟩⟩
  · rw [hstep, State.hostAccess_cmd_idle (s := { s with turns := rest }) hb]
    rfl
  · have hturn := step_of_latch (s := State.issue { s with turns := rest } v) hm rfl hrest
    exact hturn.trans (performWord_of_ok _ hd)
  · rw [State.hostAccess_cmd_busy (s := { s with turns := rest }) hb, State.mem_recordFault]
    exact .inr rfl

end Sys2Proof.Machine
end

section
/-!
PROOFS. The big-integer kernel commands that compare, count, add, subtract and shift (41_bigint.md R200–R203, R206,
R207, R211–R213).
-/

namespace Sys2Proof.Machine

/-! ## A ready command whose operands all have LENA limbs -/

/-- The formats of operands of LENA limbs alone that name no slot (30_encoding.md R112). -/
def Format.lenAOnly : Format → Bool
  | .n2r | .n2 | .n1r | .n1 => true
  | _ => false

theorem Format.lenAOnly_iff {f : Format} : f.lenAOnly = true ↔ f = .n2r ∨ f = .n2 ∨ f = .n1r ∨ f = .n1 := by
  cases f <;> simp [Format.lenAOnly]

section
variable {i : Instr} {s : State} {srcs : List (Range × Nat)} {dsts : List Range} {body : Operands → Effect}
  {r : BitVec 32}

theorem slotOk_of_lenAOnly (hf : (formatOf i).lenAOnly = true) : slotOk i s = true := by
  rcases Format.lenAOnly_iff.mp hf with h | h | h | h <;> simp [slotOk, h, Format.usesCtx]

theorem lengthsOk_of_lenAOnly (hf : (formatOf i).lenAOnly = true) (hl : s.LenOk s.lenA) : lengthsOk i s = true := by
  rcases Format.lenAOnly_iff.mp hf with h | h | h | h <;> simpa [lengthsOk, h, Format.lengthsOk, lenIn] using hl

/-- These formats have at most one destination, so only the sources restrict where it lies (R131). -/
theorem aliasFree_of_lenAOnly (hf : (formatOf i).lenAOnly = true) (hd : destsOf i s = dsts)
    (h : Ready i s srcs dsts) : (formatOf i).aliasFree (srcs.map Prod.fst) dsts = true := by
  have hne : formatOf i ≠ .mul ∧ formatOf i ≠ .sqr := by constructor <;> intro hi <;> simp [hi, Format.lenAOnly] at hf
  have hapart : (formatOf i).destsApart dsts = true := by
    rcases Format.lenAOnly_iff.mp hf with h | h | h | h <;>
      simp [← hd, destsOf, h, Format.dests, Format.destsApart]
  exact aliasFree_of_ready h hne hapart

/-- Such a command passes every check of R130 and writes what its body answers. -/
theorem performed_write_of_ready (h : Ready i s srcs dsts) (hl : s.LenOk s.lenA)
    (hf : (formatOf i).lenAOnly = true) (hsel : selectorOk i = true) (hs : sourcesOf i s = srcs.map Prod.fst)
    (hd : destsOf i s = dsts) {vs : List Nat} (hb : body (operandsOf i s (srcs.map Prod.snd)) = .write r vs) :
    performed i s body = s.okWith r (writeRanges s.w s.mem dsts vs) := by
  rw [performed_of_ready h hs hd (slotOk_of_lenAOnly hf) (lengthsOk_of_lenAOnly hf hl) hsel
    (aliasFree_of_lenAOnly hf hd h), hb, conclude_write_of_ready h hd]

/-- A command without a destination answers in RESULT and leaves memory as it was. -/
theorem exec_result_of_ready (he : exec i s = perform i s body) (h : Ready i s srcs []) (hl : s.LenOk s.lenA)
    (hf : (formatOf i).lenAOnly = true) (hsel : selectorOk i = true) (hs : sourcesOf i s = srcs.map Prod.fst)
    (hd : destsOf i s = []) (hb : body (operandsOf i s (srcs.map Prod.snd)) = .write r []) :
    exec i s = .next (s.okWith r s.mem) := by
  rw [he, perform, performed_write_of_ready h hl hf hsel hs hd hb]
  rfl

/-- A command with one destination stores its value there. -/
theorem exec_store_of_ready (he : exec i s = perform i s body) {d : Range} (h : Ready i s srcs [d])
    (hl : s.LenOk s.lenA) (hf : (formatOf i).lenAOnly = true) (hsel : selectorOk i = true)
    (hs : sourcesOf i s = srcs.map Prod.fst) (hd : destsOf i s = [d]) {v : Nat}
    (hb : body (operandsOf i s (srcs.map Prod.snd)) = .write r [v]) :
    exec i s = .next (s.okWith r (s.put d v)) := by
  rw [he, perform, performed_write_of_ready h hl hf hsel hs hd hb]
  rfl

end

section
variable {ctx sel a b : Nat} {s : State}

/-! ## What each command computes -/

theorem exec_cmp_of_ready (hl : s.LenOk s.lenA)
    (h : Ready (.cmp ctx sel) s [(s.atA s.lenA, a), (s.atB s.lenA, b)] []) :
    exec (.cmp ctx sel) s = .next (s.okWith (compareResult a b) s.mem) :=
  exec_result_of_ready rfl h hl rfl rfl rfl rfl rfl

theorem exec_iszero_of_ready (hl : s.LenOk s.lenA) (h : Ready (.iszero ctx sel) s [(s.atA s.lenA, a)] []) :
    exec (.iszero ctx sel) s = .next (s.okWith (boolResult (decide (a = 0))) s.mem) :=
  exec_result_of_ready rfl h hl rfl rfl rfl rfl rfl

theorem exec_clz_of_ready (hl : s.LenOk s.lenA) (h : Ready (.clz ctx sel) s [(s.atA s.lenA, a)] []) :
    exec (.clz ctx sel) s = .next (s.okWith (countResult (s.w * s.lenA - bitlen a)) s.mem) :=
  exec_result_of_ready rfl h hl rfl rfl rfl rfl rfl

theorem exec_ctz_of_ready (hl : s.LenOk s.lenA) (h : Ready (.ctz ctx sel) s [(s.atA s.lenA, a)] []) :
    exec (.ctz ctx sel) s = .next (s.okWith (countResult (trailingZeros (s.w * s.lenA) a)) s.mem) :=
  exec_result_of_ready rfl h hl rfl rfl rfl rfl rfl

theorem exec_add_of_ready (hl : s.LenOk s.lenA)
    (h : Ready (.add ctx sel) s [(s.atA s.lenA, a), (s.atB s.lenA, b)] [s.atDst0 s.lenA]) :
    exec (.add ctx sel) s = .next (s.okWith (carryOut (s.w * s.lenA) a b)
      (s.put (s.atDst0 s.lenA) ((a + b) % 2 ^ (s.w * s.lenA)))) :=
  exec_store_of_ready rfl h hl rfl rfl rfl rfl rfl

theorem exec_sub_of_ready (hl : s.LenOk s.lenA)
    (h : Ready (.sub ctx sel) s [(s.atA s.lenA, a), (s.atB s.lenA, b)] [s.atDst0 s.lenA]) :
    exec (.sub ctx sel) s = .next (s.okWith (borrowOut a b)
      (s.put (s.atDst0 s.lenA) ((a + 2 ^ (s.w * s.lenA) - b) % 2 ^ (s.w * s.lenA)))) :=
  exec_store_of_ready rfl h hl rfl rfl rfl rfl rfl

theorem exec_absdiff_of_ready (hl : s.LenOk s.lenA)
    (h : Ready (.absdiff ctx sel) s [(s.atA s.lenA, a), (s.atB s.lenA, b)] [s.atDst0 s.lenA]) :
    exec (.absdiff ctx sel) s = .next (s.okWith (borrowOut a b)
      (s.put (s.atDst0 s.lenA) (if b ≤ a then a - b else b - a))) :=
  exec_store_of_ready rfl h hl rfl rfl rfl rfl rfl

theorem exec_shl_of_ready (hl : s.LenOk s.lenA)
    (h : Ready (.shl ctx sel) s [(s.atA s.lenA, a)] [s.atDst0 s.lenA]) :
    exec (.shl ctx sel) s = .next (s.okWith 0#32 (s.put (s.atDst0 s.lenA) (shiftLeft (s.w * s.lenA) a s.imm))) :=
  exec_store_of_ready rfl h hl rfl rfl rfl rfl rfl

theorem exec_shr_of_ready (hl : s.LenOk s.lenA)
    (h : Ready (.shr ctx sel) s [(s.atA s.lenA, a)] [s.atDst0 s.lenA]) :
    exec (.shr ctx sel) s = .next (s.okWith 0#32 (s.put (s.atDst0 s.lenA) (shiftRight (s.w * s.lenA) a s.imm))) :=
  exec_store_of_ready rfl h hl rfl rfl rfl rfl rfl

end

/-! ## The sizes of the operands -/

/-- An operand of len limbs is below 2^(W·len) (R210): the invariant keeps every word below 2^W. -/
theorem State.readRange_lt {s : State} (hi : s.Inv) {r : Range} {v : Nat} (h : s.readRange r = some v) :
    v < 2 ^ (s.w * r.len) := by
  obtain ⟨-, -, hfits, -⟩ := hi
  exact Memory.readLimbs_lt s.w (fun x hx => (hfits x hx).2) h

/-- Every source value of a ready command fits its range. -/
theorem source_lt_of_ready {i : Instr} {s : State} {srcs : List (Range × Nat)} {dsts : List Range} (hi : s.Inv)
    (h : Ready i s srcs dsts) {r : Range} {v : Nat} (hx : (r, v) ∈ srcs) : v < 2 ^ (s.w * r.len) := by
  obtain ⟨-, -, hsrcs, -⟩ := h
  exact State.readRange_lt hi (hsrcs _ hx).2

/-- A bit count of a LENA-limb operand fits RESULT: W ≤ 64 and LENA has 16 bits. -/
theorem operandBits_lt (s : State) : s.w * s.lenA < 2 ^ 32 := by
  have hlen : s.lenA < 2 ^ 16 := s.operandDesc.lenA.isLt
  rcases bits_cases s.params.width with hw | hw <;> simp only [State.w, Params.w, hw] <;> omega

/-! ## The numbers they compute -/

theorem boolResult_decide (p : Prop) [Decidable p] : boolResult (decide p) = if p then 1#32 else 0#32 := by
  by_cases hp : p <;> simp [boolResult, hp]

/-- CLZ counts the zeros above the top one bit (R212). -/
theorem leadingZeros_spec {bits a : Nat} (h0 : a ≠ 0) (ha : a < 2 ^ bits) :
    bits - bitlen a < bits ∧ 2 ^ (bits - 1 - (bits - bitlen a)) ≤ a ∧ a < 2 ^ (bits - (bits - bitlen a)) := by
  have hpos := bitlen_pos h0
  have hle := bitlen_le ha
  rw [show bits - 1 - (bits - bitlen a) = bitlen a - 1 by omega, Nat.sub_sub_self hle]
  exact ⟨by omega, two_pow_bitlen_le h0, lt_two_pow_bitlen a⟩

theorem trailingZeros_le (bits a : Nat) : trailingZeros bits a ≤ bits := by
  obtain ⟨t, ht, hgcd⟩ := gcd_two_pow bits a
  rwa [trailingZeros, hgcd, Nat.log2_two_pow]

/-- Two operands of `bits` bits carry at most one bit out (R201). -/
theorem carry_le_one {bits a b : Nat} (ha : a < 2 ^ bits) (hb : b < 2 ^ bits) : (a + b) / 2 ^ bits ≤ 1 :=
  Nat.lt_succ_iff.mp (Nat.div_lt_of_lt_mul (by omega))

/-- Adding 2^bits first keeps SUB's difference a natural number without changing its residue (R202). -/
theorem wrappedDiff_eq {bits a b : Nat} (hb : b < 2 ^ bits) :
    (a + 2 ^ bits - b) % 2 ^ bits = (((a : Int) - (b : Int)) % (2 ^ bits : Int)).toNat := by
  have hcast : ((a + 2 ^ bits - b : Nat) : Int) = (a : Int) - b + 2 ^ bits := by
    rw [Nat.cast_sub (by omega)]
    push_cast
    ring
  rw [← Int.add_emod_right, ← hcast]
  exact (Int.toNat_natCast _).symm

theorem absDiff_eq_natAbs (a b : Nat) : (if b ≤ a then a - b else b - a) = ((a : Int) - (b : Int)).natAbs := by
  split <;> omega

/-- A count of `bits` or more is no exception: the product is then a multiple of 2^bits (R206). -/
theorem shiftLeft_eq (bits a k : Nat) : shiftLeft bits a k = a * 2 ^ k % 2 ^ bits := by
  unfold shiftLeft
  split
  case isTrue hk => exact (Nat.mod_eq_zero_of_dvd ((pow_dvd_pow 2 hk).mul_left a)).symm
  case isFalse => rfl

/-- A count of `bits` or more is no exception: a is then below 2^k (R207). -/
theorem shiftRight_eq {bits a : Nat} (ha : a < 2 ^ bits) (k : Nat) : shiftRight bits a k = a / 2 ^ k := by
  unfold shiftRight
  split
  case isTrue hk => exact (Nat.div_eq_of_lt (ha.trans_le (Nat.pow_le_pow_right two_pos hk))).symm
  case isFalse => rfl

/-! ## The obligations -/

/-- Settles O37: each count is the model's own, and it is what R212 and R213 ask of it. -/
theorem compareAndCountResults : Obligations.CompareAndCountResults := by
  intro ctx sel s a b hi hl
  refine ⟨fun h => ?_, fun h => ?_, fun h => ?_, fun h => ?_⟩
  case refine_1 => exact exec_cmp_of_ready hl h
  case refine_2 => rw [exec_iszero_of_ready hl h, boolResult_decide]
  case refine_3 =>
    have ha : a < 2 ^ (s.w * s.lenA) := source_lt_of_ready hi h List.mem_cons_self
    refine ⟨s.w * s.lenA - bitlen a, fun h0 => ?_, fun h0 => leadingZeros_spec h0 ha, ?_, exec_clz_of_ready hl h⟩
    · rw [h0, bitlen_zero, Nat.sub_zero]
    · exact (Nat.sub_le _ _).trans_lt (operandBits_lt s)
  case refine_4 =>
    have ha : a < 2 ^ (s.w * s.lenA) := source_lt_of_ready hi h List.mem_cons_self
    refine ⟨trailingZeros (s.w * s.lenA) a, fun h0 => ?_, fun h0 => ?_, ?_, exec_ctz_of_ready hl h⟩
    · rw [h0, trailingZeros_zero]
    · exact ⟨trailingZeros_dvd _ a, trailingZeros_max h0 ha⟩
    · exact (trailingZeros_le _ a).trans_lt (operandBits_lt s)

/-- Settles O38: the invariant bounds both operands, so the carry is one bit and the difference never underflows. -/
theorem addAndSubtractResults : Obligations.AddAndSubtractResults := by
  intro ctx sel s a b hi hl
  refine ⟨fun h => ?_, fun h => ?_, fun h => ?_⟩
  case refine_1 =>
    have ha : a < 2 ^ (s.w * s.lenA) := source_lt_of_ready hi h List.mem_cons_self
    have hb : b < 2 ^ (s.w * s.lenA) := source_lt_of_ready hi h (List.mem_cons_of_mem _ List.mem_cons_self)
    exact ⟨exec_add_of_ready hl h, Nat.le_one_iff_eq_zero_or_eq_one.mp (carry_le_one ha hb)⟩
  case refine_2 =>
    have hb : b < 2 ^ (s.w * s.lenA) := source_lt_of_ready hi h (List.mem_cons_of_mem _ List.mem_cons_self)
    rw [exec_sub_of_ready hl h, borrowOut, boolResult_decide, wrappedDiff_eq hb]
  case refine_3 => rw [exec_absdiff_of_ready hl h, borrowOut, boolResult_decide, absDiff_eq_natAbs]

/-- Settles O40: the model's shifts agree with the plain formulas at every count, the long ones included. -/
theorem shiftResults : Obligations.ShiftResults := by
  intro ctx sel s a hi hl
  refine ⟨fun h => ?_, fun h => ?_⟩
  case refine_1 => rw [exec_shl_of_ready hl h, shiftLeft_eq]
  case refine_2 =>
    have ha : a < 2 ^ (s.w * s.lenA) := source_lt_of_ready hi h List.mem_cons_self
    rw [exec_shr_of_ready hl h, shiftRight_eq ha]

end Sys2Proof.Machine
end

section
/-!
PROOFS. The ring commands on a built slot: modular add, subtract and halve, the inverters, the ring multiply and square,
the conversions, the identity test, and the bound of every ring element (43_ring.md R274–R278, R280, R291, R292,
R294–R297).
-/

namespace Sys2Proof.Machine

/-! ## A ready command on a slot -/

section
variable {i : Instr} {s : State} {srcs : List (Range × Nat)} {dsts : List Range} {body : Operands → Effect}

/-- No command that names a slot has a one-bit selector (30_encoding.md R113, R116). -/
theorem selectorOk_of_usesCtx (hf : (formatOf i).usesCtx = true) : selectorOk i = true := by
  cases i <;> simp_all [formatOf, Format.usesCtx, selectorOk, hasOneBitSelector]

theorem slotOk_of_slotReady (hslot : s.SlotReady (ctxOf i)) : slotOk i s = true := by
  obtain ⟨hctx, hvalid, -⟩ := hslot
  simp [slotOk, hctx, hvalid]

theorem State.SlotReady.wellBuilt {ctx : Nat} (hslot : s.SlotReady ctx) : (s.slot ctx).wellBuilt s.params := by
  obtain ⟨-, -, hc⟩ := hslot
  exact hc

theorem Slot.two_le_modulus {p : Params} {c : Slot} (h : c.wellBuilt p) : 2 ≤ c.modulus := by
  obtain ⟨-, ⟨h2, -, -⟩, -⟩ := h
  exact h2

theorem Slot.modulus_pos {p : Params} {c : Slot} (h : c.wellBuilt p) : 0 < c.modulus :=
  two_pos.trans_le (Slot.two_le_modulus h)

/-- A format that names a slot has at most one destination, which may equal a source (R112, R131). -/
theorem aliasFree_of_usesCtx (hf : (formatOf i).usesCtx = true) (hd : destsOf i s = dsts) (h : Ready i s srcs dsts) :
    (formatOf i).aliasFree (srcs.map Prod.fst) dsts = true := by
  have hne : formatOf i ≠ .mul ∧ formatOf i ≠ .sqr := by constructor <;> intro hi <;> simp [hi, Format.usesCtx] at hf
  have hapart : (formatOf i).destsApart dsts = true := by
    rw [← hd, destsOf]
    cases hi : formatOf i <;> simp_all [Format.usesCtx, Format.dests, Format.destsApart]
  exact aliasFree_of_ready h hne hapart

/-- A command on a built slot passes every check of R130, and ends as its body answers. -/
theorem exec_onSlot_of_ready (he : exec i s = perform i s body) (hf : (formatOf i).usesCtx = true)
    (hslot : s.SlotReady (ctxOf i)) (hlen : lengthsOk i s = true) (h : Ready i s srcs dsts)
    (hs : sourcesOf i s = srcs.map Prod.fst) (hd : destsOf i s = dsts) :
    exec i s = .next (s.conclude i (body (operandsOf i s (srcs.map Prod.snd)))) := by
  rw [he, perform, performed_of_ready h hs hd (slotOk_of_slotReady hslot) hlen (selectorOk_of_usesCtx hf)
    (aliasFree_of_usesCtx hf hd h)]

theorem conclude_store_of_ready {d : Range} (h : Ready i s srcs [d]) (hd : destsOf i s = [d]) (r : BitVec 32)
    (v : Nat) : s.conclude i (.write r [v]) = s.okWith r (s.put d v) :=
  conclude_write_of_ready h hd r [v]

theorem conclude_noInverse_of_ready (h : Ready i s srcs dsts) (hd : destsOf i s = dsts) :
    s.conclude i .noInverse = s.spoiledWith .noInverse dsts := by
  obtain ⟨-, hscratch, -⟩ := h
  rw [State.conclude, if_pos hscratch, hd, State.failWith_eq_spoiledWith]

end

/-! ## The value checks -/

section
variable {c : Slot} {a x p : Nat} {e : Effect} {f : Nat → Nat}

theorem withElement_of_lt (h : a < c.modulus) (e : Effect) : withElement c a e = e := if_pos h

theorem withElement_of_le (h : c.modulus ≤ a) (e : Effect) : withElement c a e = .param := if_neg h.not_gt

theorem withOddModulus_of_odd (h : c.modulus % 2 = 1) (e : Effect) : withOddModulus c e = e := if_pos h

theorem withOddModulus_of_even (h : c.modulus % 2 = 0) (e : Effect) : withOddModulus c e = .param :=
  if_neg (by omega)

@[simp] theorem withOddModulus_param (c : Slot) : withOddModulus c .param = .param := by simp [withOddModulus]

/-- Two elements are checked before anything is written. -/
theorem withElements_eq (c : Slot) (a b : Nat) (e : Effect) :
    withElement c a (withElement c b e) = if a < c.modulus ∧ b < c.modulus then e else .param := by
  unfold withElement
  split_ifs <;> simp_all

/-- A halving or an inversion of an element asks for an odd modulus too. -/
theorem withOddModulus_withElement_eq_param (h : c.modulus % 2 = 0 ∨ c.modulus ≤ a) (e : Effect) :
    withOddModulus c (withElement c a e) = .param := by
  rcases h with h | h
  · exact withOddModulus_of_even h _
  · rw [withElement_of_le h, withOddModulus_param]

theorem writeInverse_of_coprime (h : Nat.gcd x p = 1) : writeInverse x p f = .write 0 [f (invMod x p)] := if_pos h

theorem writeInverse_of_not_coprime (h : Nat.gcd x p ≠ 1) : writeInverse x p f = .noInverse := if_neg h

end

/-! ## How each ready command ends -/

section
variable {ctx sel a b : Nat} {s : State}

theorem exec_modadd_of_ready (hslot : s.SlotReady ctx)
    (h : Ready (.modadd ctx sel) s [(s.atA (s.slot ctx).n, a), (s.atB (s.slot ctx).n, b)]
      [s.atDst0 (s.slot ctx).n]) :
    exec (.modadd ctx sel) s = .next (s.conclude (.modadd ctx sel)
      (withElement (s.slot ctx) a (withElement (s.slot ctx) b (.write 0#32 [(a + b) % (s.slot ctx).modulus])))) :=
  exec_onSlot_of_ready rfl rfl hslot rfl h rfl rfl

theorem exec_modsub_of_ready (hslot : s.SlotReady ctx)
    (h : Ready (.modsub ctx sel) s [(s.atA (s.slot ctx).n, a), (s.atB (s.slot ctx).n, b)]
      [s.atDst0 (s.slot ctx).n]) :
    exec (.modsub ctx sel) s = .next (s.conclude (.modsub ctx sel)
      (withElement (s.slot ctx) a (withElement (s.slot ctx) b
        (.write 0#32 [(a + (s.slot ctx).modulus - b) % (s.slot ctx).modulus])))) :=
  exec_onSlot_of_ready rfl rfl hslot rfl h rfl rfl

theorem exec_modhalf_of_ready (hslot : s.SlotReady ctx)
    (h : Ready (.modhalf ctx sel) s [(s.atA (s.slot ctx).n, a)] [s.atDst0 (s.slot ctx).n]) :
    exec (.modhalf ctx sel) s = .next (s.conclude (.modhalf ctx sel)
      (withOddModulus (s.slot ctx) (withElement (s.slot ctx) a
        (.write 0#32 [(a + a % 2 * (s.slot ctx).modulus) / 2])))) :=
  exec_onSlot_of_ready rfl rfl hslot rfl h rfl rfl

/-- Both inverters invert the plain integer, whatever the strategy (43_ring.md R277, R278). -/
theorem exec_modinv_of_ready {i : Instr} (hi : i = .modinvCt ctx sel ∨ i = .modinvVt ctx sel)
    (hslot : s.SlotReady ctx) (h : Ready i s [(s.atA (s.slot ctx).n, a)] [s.atDst0 (s.slot ctx).n]) :
    exec i s = .next (s.conclude i (withOddModulus (s.slot ctx) (withElement (s.slot ctx) a
      (writeInverse a (s.slot ctx).modulus id)))) := by
  rcases hi with rfl | rfl
  · exact exec_onSlot_of_ready rfl rfl hslot rfl h rfl rfl
  · exact exec_onSlot_of_ready rfl rfl hslot rfl h rfl rfl

theorem exec_rinv_of_ready (hslot : s.SlotReady ctx)
    (h : Ready (.rinv ctx sel) s [(s.atA (s.slot ctx).n, a)] [s.atDst0 (s.slot ctx).n]) :
    exec (.rinv ctx sel) s = .next (s.conclude (.rinv ctx sel)
      (withOddModulus (s.slot ctx) (withElement (s.slot ctx) a
        (writeInverse ((s.slot ctx).ofRing s.w a) (s.slot ctx).modulus ((s.slot ctx).toRing s.w))))) :=
  exec_onSlot_of_ready rfl rfl hslot rfl h rfl rfl

theorem exec_rmul_of_ready (hslot : s.SlotReady ctx)
    (h : Ready (.rmul ctx sel) s [(s.atA (s.slot ctx).n, a), (s.atB (s.slot ctx).n, b)]
      [s.atDst0 (s.slot ctx).n]) :
    exec (.rmul ctx sel) s = .next (s.conclude (.rmul ctx sel)
      (withElement (s.slot ctx) a (withElement (s.slot ctx) b (writeReduced ((s.slot ctx).mul s.w a b))))) :=
  exec_onSlot_of_ready rfl rfl hslot rfl h rfl rfl

theorem exec_rsqr_of_ready (hslot : s.SlotReady ctx)
    (h : Ready (.rsqr ctx sel) s [(s.atA (s.slot ctx).n, a)] [s.atDst0 (s.slot ctx).n]) :
    exec (.rsqr ctx sel) s = .next (s.conclude (.rsqr ctx sel)
      (withElement (s.slot ctx) a (writeReduced ((s.slot ctx).mul s.w a a)))) :=
  exec_onSlot_of_ready rfl rfl hslot rfl h rfl rfl

theorem exec_rto_of_ready (hslot : s.SlotReady ctx)
    (h : Ready (.rto ctx sel) s [(s.atA (s.slot ctx).n, a)] [s.atDst0 (s.slot ctx).n]) :
    exec (.rto ctx sel) s = .next (s.conclude (.rto ctx sel)
      (withElement (s.slot ctx) a (writeReduced ((s.slot ctx).convertIn s.w a)))) :=
  exec_onSlot_of_ready rfl rfl hslot rfl h rfl rfl

theorem exec_rfrom_of_ready (hslot : s.SlotReady ctx)
    (h : Ready (.rfrom ctx sel) s [(s.atA (s.slot ctx).n, a)] [s.atDst0 (s.slot ctx).n]) :
    exec (.rfrom ctx sel) s = .next (s.conclude (.rfrom ctx sel)
      (withElement (s.slot ctx) a (writeReduced ((s.slot ctx).convertOut s.w a)))) :=
  exec_onSlot_of_ready rfl rfl hslot rfl h rfl rfl

theorem exec_risone_of_ready (hslot : s.SlotReady ctx)
    (h : Ready (.risone ctx sel) s [(s.atA (s.slot ctx).n, a)] []) :
    exec (.risone ctx sel) s = .next (s.conclude (.risone ctx sel)
      (withElement (s.slot ctx) a (.write (boolResult (decide (a = (s.slot ctx).one))) []))) :=
  exec_onSlot_of_ready rfl rfl hslot rfl h rfl rfl

end

/-! ## The numbers -/

section
variable {p a b : Nat}

/-- Adding p first keeps MODSUB's difference a natural number without changing its residue (R275). -/
theorem modularDiff_eq (hb : b < p) : (a + p - b) % p = (((a : Int) - (b : Int)) % (p : Int)).toNat := by
  have hcast : ((a + p - b : Nat) : Int) = (a : Int) - b + p := by omega
  rw [← Int.add_emod_right, ← hcast]
  exact (Int.toNat_natCast _).symm

/-- For an odd p, a or a + p is even, and half of it is the half of a modulo p (R276). -/
theorem modularHalf_spec (hp : p % 2 = 1) (ha : a < p) :
    (a + a % 2 * p) / 2 < p ∧ 2 * ((a + a % 2 * p) / 2) % p = a := by
  rcases Nat.mod_two_eq_zero_or_one a with h0 | h1
  · rw [h0, Nat.zero_mul, Nat.add_zero, Nat.two_mul_div_two_of_even (Nat.even_iff.mpr h0), Nat.mod_eq_of_lt ha]
    exact ⟨by omega, rfl⟩
  · have heven : Even (a + p) := Nat.even_iff.mpr (by omega)
    rw [h1, Nat.one_mul, Nat.two_mul_div_two_of_even heven, Nat.add_mod_right, Nat.mod_eq_of_lt ha]
    exact ⟨by omega, rfl⟩

end

/-- Settles O46: sum and difference are residues modulo p; the half exists because p is odd. -/
theorem modularAddSubtractHalveResults : Obligations.ModularAddSubtractHalveResults := by
  intro ctx sel s a b hslot n p
  refine ⟨fun h => ?_, fun h => ?_, fun h => ⟨fun hp ha => ?_, fun hbad => ?_⟩⟩
  case refine_1 =>
    rw [exec_modadd_of_ready hslot h, withElements_eq]
    split
    · rw [conclude_store_of_ready h rfl]
    · rw [conclude_param]
  case refine_2 =>
    rw [exec_modsub_of_ready hslot h, withElements_eq]
    split
    case isTrue hab => rw [conclude_store_of_ready h rfl, modularDiff_eq hab.2]
    case isFalse => rw [conclude_param]
  case refine_3 =>
    obtain ⟨hlt, hhalf⟩ := modularHalf_spec hp ha
    refine ⟨_, hlt, hhalf, ?_⟩
    rw [exec_modhalf_of_ready hslot h, withOddModulus_of_odd hp, withElement_of_lt ha, conclude_store_of_ready h rfl]
  case refine_4 =>
    rw [exec_modhalf_of_ready hslot h, withOddModulus_withElement_eq_param hbad, conclude_param]

/-! ## The inverters -/

/-- The three ends of an inverter: a value, NO_INVERSE or PARAM. -/
theorem exec_inverse_cases {i : Instr} {s : State} {srcs : List (Range × Nat)} {d : Range} {c : Slot} {a x : Nat}
    {f : Nat → Nat} (h : Ready i s srcs [d]) (hd : destsOf i s = [d])
    (he : exec i s = .next (s.conclude i (withOddModulus c (withElement c a (writeInverse x c.modulus f))))) :
    (c.modulus % 2 = 1 → a < c.modulus → Nat.gcd x c.modulus = 1 →
      exec i s = .next (s.okWith 0#32 (s.put d (f (invMod x c.modulus))))) ∧
    (c.modulus % 2 = 1 → a < c.modulus → Nat.gcd x c.modulus ≠ 1 →
      exec i s = .next (s.spoiledWith .noInverse [d])) ∧
    (c.modulus % 2 = 0 ∨ c.modulus ≤ a → exec i s = .next (s.endedWith .param)) := by
  refine ⟨fun hp ha hx => ?_, fun hp ha hx => ?_, fun hbad => ?_⟩
  · rw [he, withOddModulus_of_odd hp, withElement_of_lt ha, writeInverse_of_coprime hx, conclude_store_of_ready h hd]
    rfl
  · rw [he, withOddModulus_of_odd hp, withElement_of_lt ha, writeInverse_of_not_coprime hx,
      conclude_noInverse_of_ready h hd]
  · rw [he, withOddModulus_withElement_eq_param hbad, conclude_param]

/-- Settles O47: the written value is the inverse that the extended Euclid of p answers. -/
theorem inverterResults : Obligations.InverterResults := by
  intro ctx sel s a i hslot hi h p
  have hinv : i = .modinvCt ctx sel ∨ i = .modinvVt ctx sel := by simpa using hi
  have hd : destsOf i s = [s.atDst0 (s.slot ctx).n] := by rcases hinv with rfl | rfl <;> rfl
  obtain ⟨hok, hspoilt, hparam⟩ := exec_inverse_cases h hd (exec_modinv_of_ready hinv hslot h)
  have hp1 : 1 < p := Slot.two_le_modulus hslot.wellBuilt
  exact ⟨fun hp ha hx => ⟨invMod a p, invMod_lt a hp1, invMod_spec hp1 hx, hok hp ha hx⟩, hspoilt, hparam⟩

/-! ## The representation of a slot -/

section
variable {P : Params} {c : Slot} {a x : Nat}

theorem Slot.toRing_of_plain (hs : c.strat = .plain) (w x : Nat) : c.toRing w x = x := by simp [Slot.toRing, hs]

theorem Slot.toRing_of_montgomery (hs : c.strat = .montgomery) (w x : Nat) :
    c.toRing w x = x * radix w c.n % c.modulus := by simp [Slot.toRing, hs]

theorem Slot.toRing_eq (w : Nat) (c : Slot) (x : Nat) :
    c.toRing w x = if c.strat = .plain then x else x * radix w c.n % c.modulus := by
  unfold Slot.toRing
  cases c.strat <;> rfl

/-- The ring identity is 1, or R mod p (43_ring.md R290). -/
theorem Slot.one_eq (h : c.wellBuilt P) :
    c.one = if c.strat = .plain then 1 else radix P.w c.n % c.modulus := by
  rw [(Slot.one_spec h).2, Slot.toRing_eq, Nat.one_mul]

/-- With a = x·R and v = x⁻¹·R, the product a·v is R² (43_ring.md R294; 44_montgomery.md R329). -/
theorem Slot.ringInverse_spec (h : c.wellBuilt P) (ha : a < c.modulus) (hx : Nat.gcd a c.modulus = 1) :
    let v := c.toRing P.w (invMod (c.ofRing P.w a) c.modulus)
    v < c.modulus ∧ (c.strat = .plain → a * v % c.modulus = 1) ∧
      (c.strat = .montgomery → a * v % c.modulus = radix P.w c.n ^ 2 % c.modulus) := by
  intro v
  have h2 : 1 < c.modulus := Slot.two_le_modulus h
  obtain ⟨-, hplain, hmont⟩ := Slot.ofRing_spec h ha
  set y := invMod (c.ofRing P.w a) c.modulus with hy
  have hinv : c.ofRing P.w a * y % c.modulus = 1 := invMod_spec h2 ((Slot.gcd_ofRing h ha).trans hx)
  refine ⟨Slot.toRing_lt h (invMod_lt _ h2), fun hs => ?_, fun hs => ?_⟩
  · rwa [hplain hs, ← Slot.toRing_of_plain hs P.w y] at hinv
  · have hone : c.ofRing P.w a * y ≡ 1 [MOD c.modulus] := hinv.trans (Nat.mod_eq_of_lt h2).symm
    calc a * c.toRing P.w y ≡ c.ofRing P.w a * radix P.w c.n * (y * radix P.w c.n) [MOD c.modulus] := by
          refine Nat.ModEq.mul ?_ ?_
          · exact ((Nat.mod_eq_of_lt ha).trans (hmont hs).symm)
          · rw [Slot.toRing_of_montgomery hs]; exact Nat.mod_modEq _ _
      _ = c.ofRing P.w a * y * radix P.w c.n ^ 2 := by ring
      _ ≡ 1 * radix P.w c.n ^ 2 [MOD c.modulus] := hone.mul_right _
      _ = radix P.w c.n ^ 2 := Nat.one_mul _

end

/-- Settles O50: the plain residue of a is inverted and taken back into the ring. -/
theorem ringInverseResults : Obligations.RingInverseResults := by
  intro ctx sel s a hslot h n p
  obtain ⟨hok, hspoilt, hparam⟩ := exec_inverse_cases h rfl (exec_rinv_of_ready hslot h)
  have hc : (s.slot ctx).wellBuilt s.params := hslot.wellBuilt
  refine ⟨fun hp ha hx => ?_, fun hp ha hx => ?_, hparam⟩
  · obtain ⟨hlt, hplain, hmont⟩ := Slot.ringInverse_spec hc ha hx
    exact ⟨_, hlt, hplain, hmont, hok hp ha ((Slot.gcd_ofRing hc ha).trans hx)⟩
  · exact hspoilt hp ha (fun hg => hx ((Slot.gcd_ofRing hc ha).symm.trans hg))

/-! ## Ring multiply, square and conversion -/

/-- The two ends of a command that computes a ring element from one. -/
theorem exec_reduced_cases {i : Instr} {s : State} {srcs : List (Range × Nat)} {d : Range} {c : Slot} {a : Nat}
    {x : Option Nat} (h : Ready i s srcs [d]) (hd : destsOf i s = [d])
    (he : exec i s = .next (s.conclude i (withElement c a (writeReduced x)))) :
    (∀ v, a < c.modulus → x = some v → exec i s = .next (s.okWith 0#32 (s.put d v))) ∧
    (c.modulus ≤ a → exec i s = .next (s.endedWith .param)) := by
  refine ⟨fun v ha hx => ?_, fun ha => ?_⟩
  · rw [he, withElement_of_lt ha, hx]
    exact congrArg _ (conclude_store_of_ready h hd 0#32 v)
  · rw [he, withElement_of_le ha, conclude_param]

/-- Settles O48: REDC of a product of two elements never raises INVARIANT, since a·b < p·R. -/
theorem ringMultiplyAndSquareResults : Obligations.RingMultiplyAndSquareResults := by
  intro ctx sel s a b hslot n p
  have hc : (s.slot ctx).wellBuilt s.params := hslot.wellBuilt
  refine ⟨fun h => ⟨fun ha hb => ?_, fun hbad => ?_⟩, fun h => ⟨fun ha => ?_, fun hbad => ?_⟩⟩
  case refine_1 =>
    obtain ⟨v, hv, hlt, hplain, hmont⟩ := Slot.mul_spec hc ha hb
    refine ⟨v, hlt, hplain, hmont, ?_⟩
    rw [exec_rmul_of_ready hslot h, withElements_eq, if_pos ⟨ha, hb⟩, hv]
    exact congrArg _ (conclude_store_of_ready h rfl 0#32 v)
  case refine_2 =>
    rw [exec_rmul_of_ready hslot h, withElements_eq, if_neg (by omega), conclude_param]
  case refine_3 =>
    obtain ⟨v, hv, hlt, hplain, hmont⟩ := Slot.mul_spec hc ha ha
    exact ⟨v, hlt, hplain, hmont, (exec_reduced_cases h rfl (exec_rsqr_of_ready hslot h)).1 v ha hv⟩
  case refine_4 => exact (exec_reduced_cases h rfl (exec_rsqr_of_ready hslot h)).2 hbad

/-- Settles O51: the conversions are φ and its inverse. -/
theorem ringConversionResults : Obligations.RingConversionResults := by
  intro ctx sel s x hslot n p
  have hc : (s.slot ctx).wellBuilt s.params := hslot.wellBuilt
  refine ⟨fun h => ?_, fun h => ⟨fun hx => ?_, fun hbad => ?_⟩⟩
  case refine_1 =>
    obtain ⟨hok, hparam⟩ := exec_reduced_cases h rfl (exec_rto_of_ready hslot h)
    split
    case isTrue hx => rw [hok _ hx (Slot.convertIn_spec hc hx), Slot.toRing_eq]; rfl
    case isFalse hx => exact hparam (Nat.le_of_not_lt hx)
  case refine_2 =>
    obtain ⟨hlt, hplain, hmont⟩ := Slot.ofRing_spec hc hx
    exact ⟨_, hlt, hplain, hmont,
      (exec_reduced_cases h rfl (exec_rfrom_of_ready hslot h)).1 _ hx (Slot.convertOut_spec hc hx)⟩
  case refine_3 => exact (exec_reduced_cases h rfl (exec_rfrom_of_ready hslot h)).2 hbad

/-- Settles O52: one_c is 1 or R mod p, and the command has no destination. -/
theorem ringIdentityTest : Obligations.RingIdentityTest := by
  intro ctx sel s a hslot h p one
  rw [exec_risone_of_ready hslot h, Slot.one_eq hslot.wellBuilt, boolResult_decide]
  rcases Nat.lt_or_ge a p with ha | ha
  · rw [withElement_of_lt ha, if_pos ha]
    exact congrArg _ (conclude_write_of_ready h rfl _ [])
  · rw [withElement_of_le ha, if_neg ha.not_gt, conclude_param]

/-! ## Every ring element stays below p (43_ring.md R280) -/

/-- If the body ends with OK, it stores one value, below p. -/
def Effect.StoresBelow (p : Nat) : Effect → Prop
  | .write _ vs => ∃ v < p, vs = [v]
  | .build _ => False
  | .param | .noInverse | .invariant => True

section
variable {c : Slot} {a x p q v w : Nat} {e : Effect} {f : Nat → Nat} {y : Option Nat}

theorem storesBelow_write (hv : v < p) (r : BitVec 32) : (Effect.write r [v]).StoresBelow p := ⟨v, hv, rfl⟩

theorem storesBelow_residue {P : Params} (h : c.wellBuilt P) (r : BitVec 32) (x : Nat) :
    (Effect.write r [x % c.modulus]).StoresBelow c.modulus :=
  storesBelow_write (Nat.mod_lt _ (Slot.modulus_pos h)) r

theorem storesBelow_withElement (h : a < c.modulus → e.StoresBelow p) : (withElement c a e).StoresBelow p := by
  rcases withElement_eq (c := c) (a := a) (e := e) rfl with hparam | ⟨ha, he⟩
  · rw [hparam]; trivial
  · rw [← he]; exact h ha

theorem storesBelow_withOddModulus (h : c.modulus % 2 = 1 → e.StoresBelow p) :
    (withOddModulus c e).StoresBelow p := by
  rcases withOddModulus_eq (c := c) (e := e) rfl with hparam | ⟨hp, he⟩
  · rw [hparam]; trivial
  · rw [← he]; exact h hp

theorem storesBelow_writeReduced (h : ∀ v, y = some v → v < p) : (writeReduced y).StoresBelow p := by
  cases y with
  | none => trivial
  | some v => exact storesBelow_write (h v rfl) _

theorem storesBelow_writeInverse (h : f (invMod x p) < q) : (writeInverse x p f).StoresBelow q := by
  rcases writeInverse_eq (x := x) (p := p) (g := f) rfl with ⟨-, hf⟩ | ⟨-, hf⟩
  · rw [hf]; exact storesBelow_write h _
  · rw [hf]; trivial

/-- REDC's last check lets only a reduced value through (44_montgomery.md R325). -/
theorem redc_lt {t : Nat} (h : redc w c t = some v) : v < c.modulus := by
  unfold redc at h
  split at h
  case isTrue => cases h
  case isFalse hlt => cases h; exact Nat.lt_of_not_le hlt

theorem Slot.reduce_lt (hp : 0 < c.modulus) {t : Nat} (h : c.reduce w t = some v) : v < c.modulus := by
  unfold Slot.reduce at h
  split at h
  · cases h; exact Nat.mod_lt _ hp
  · exact redc_lt h

theorem Slot.mul_lt (hp : 0 < c.modulus) {a b : Nat} (h : c.mul w a b = some v) : v < c.modulus := by
  unfold Slot.mul at h
  split at h
  · cases h; exact Nat.mod_lt _ hp
  · exact redc_lt h

theorem expValue_lt {P : Params} (h : c.wellBuilt P) (b e : Nat) : expValue P.w c b e < c.modulus := by
  refine Slot.toRing_lt h ?_
  rw [powMod_spec]
  exact Nat.mod_lt _ (Slot.modulus_pos h)

end

/-- What R280 asks of a command's body: an unreduced element is PARAM, and what is stored is below p. -/
structure RingBody (i : Instr) (body : Operands → Effect) : Prop where
  runs : ∀ s, exec i s = perform i s body
  rejects : formatOf i ∈ [.r1, .r1r, .r2, .exp] → ∀ o : Operands,
    o.slot.modulus ≤ o.a ∨ (formatOf i = .r2 ∧ o.slot.modulus ≤ o.b) → body o = .param
  stores : formatOf i ∈ [.r1, .r2, .rw, .exp] → ∀ (s : State) (vs : List Nat), s.SlotReady (ctxOf i) →
    (body (operandsOf i s vs)).StoresBelow (s.slot (ctxOf i)).modulus

section
variable {i : Instr} {e : Operands → Effect}

/-- A command of two elements checks both. -/
theorem RingBody.ofTwoElements
    (hruns : ∀ s, exec i s = perform i s fun o => withElement o.slot o.a (withElement o.slot o.b (e o)))
    (hstores : ∀ s vs, s.SlotReady (ctxOf i) → (operandsOf i s vs).a < (s.slot (ctxOf i)).modulus →
      (operandsOf i s vs).b < (s.slot (ctxOf i)).modulus →
      (e (operandsOf i s vs)).StoresBelow (s.slot (ctxOf i)).modulus) :
    RingBody i fun o => withElement o.slot o.a (withElement o.slot o.b (e o)) where
  runs := hruns
  rejects := fun _ _ ho => by rw [withElements_eq, if_neg (by omega)]
  stores := fun _ s vs hslot =>
    storesBelow_withElement fun ha => storesBelow_withElement fun hb => hstores s vs hslot ha hb

/-- A command of one element checks it. -/
theorem RingBody.ofElement (hf : formatOf i ≠ .r2)
    (hruns : ∀ s, exec i s = perform i s fun o => withElement o.slot o.a (e o))
    (hstores : formatOf i ≠ .r1r → ∀ s vs, s.SlotReady (ctxOf i) →
      (operandsOf i s vs).a < (s.slot (ctxOf i)).modulus →
      (e (operandsOf i s vs)).StoresBelow (s.slot (ctxOf i)).modulus) :
    RingBody i fun o => withElement o.slot o.a (e o) where
  runs := hruns
  rejects := fun _ _ ho => withElement_of_le (ho.resolve_right fun h => hf h.1) _
  stores := fun hi s vs hslot =>
    storesBelow_withElement fun ha => hstores (by rintro h; simp [h] at hi) s vs hslot ha

/-- A command of one element and an odd modulus checks both. -/
theorem RingBody.ofElementOdd (hf : formatOf i ≠ .r2)
    (hruns : ∀ s, exec i s = perform i s fun o => withOddModulus o.slot (withElement o.slot o.a (e o)))
    (hstores : ∀ s vs, s.SlotReady (ctxOf i) → (s.slot (ctxOf i)).modulus % 2 = 1 →
      (operandsOf i s vs).a < (s.slot (ctxOf i)).modulus →
      (e (operandsOf i s vs)).StoresBelow (s.slot (ctxOf i)).modulus) :
    RingBody i fun o => withOddModulus o.slot (withElement o.slot o.a (e o)) where
  runs := hruns
  rejects := fun _ _ ho => withOddModulus_withElement_eq_param (.inr (ho.resolve_right fun h => hf h.1)) _
  stores := fun _ s vs hslot =>
    storesBelow_withOddModulus fun hp => storesBelow_withElement fun ha => hstores s vs hslot hp ha

/-- A wide operand is no element: nothing is checked, and the value is reduced. -/
theorem RingBody.ofWide (hf : formatOf i = .rw) (hruns : ∀ s, exec i s = perform i s e)
    (hstores : ∀ s vs, s.SlotReady (ctxOf i) →
      (e (operandsOf i s vs)).StoresBelow (s.slot (ctxOf i)).modulus) : RingBody i e where
  runs := hruns
  rejects := fun hi => by simp [hf] at hi
  stores := fun _ => hstores

end

/-- The formats of the commands that compute in a ring (30_encoding.md R112). -/
abbrev ringFormats : List Format := [.r1, .r1r, .r2, .rw, .exp]

/-- Every ring command has such a body. -/
theorem exists_ringBody {i : Instr} (hf : formatOf i ∈ ringFormats) : ∃ body, RingBody i body := by
  cases i
  case modred =>
    exact ⟨_, .ofWide rfl (fun _ => rfl) fun s _ h => storesBelow_residue h.wellBuilt _ _⟩
  case rreduce =>
    exact ⟨_, .ofWide rfl (fun _ => rfl) fun s _ h =>
      storesBelow_writeReduced fun _ => Slot.reduce_lt (Slot.modulus_pos h.wellBuilt)⟩
  case modadd =>
    exact ⟨_, .ofTwoElements (fun _ => rfl) fun s _ h _ _ => storesBelow_residue h.wellBuilt _ _⟩
  case modsub =>
    exact ⟨_, .ofTwoElements (fun _ => rfl) fun s _ h _ _ => storesBelow_residue h.wellBuilt _ _⟩
  case rmul =>
    exact ⟨_, .ofTwoElements (fun _ => rfl) fun s _ h _ _ =>
      storesBelow_writeReduced fun _ => Slot.mul_lt (Slot.modulus_pos h.wellBuilt)⟩
  case modhalf =>
    exact ⟨_, .ofElementOdd nofun (fun _ => rfl) fun s _ h hp ha => storesBelow_write (modularHalf_spec hp ha).1 _⟩
  case modinvCt =>
    exact ⟨_, .ofElementOdd nofun (fun _ => rfl) fun s _ h _ _ =>
      storesBelow_writeInverse (invMod_lt _ (Slot.two_le_modulus h.wellBuilt))⟩
  case modinvVt =>
    exact ⟨_, .ofElementOdd nofun (fun _ => rfl) fun s _ h _ _ =>
      storesBelow_writeInverse (invMod_lt _ (Slot.two_le_modulus h.wellBuilt))⟩
  case rinv =>
    exact ⟨_, .ofElementOdd nofun (fun _ => rfl) fun s _ h _ _ =>
      storesBelow_writeInverse (Slot.toRing_lt h.wellBuilt (invMod_lt _ (Slot.two_le_modulus h.wellBuilt)))⟩
  case rsqr =>
    exact ⟨_, .ofElement nofun (fun _ => rfl) fun _ s _ h _ =>
      storesBelow_writeReduced fun _ => Slot.mul_lt (Slot.modulus_pos h.wellBuilt)⟩
  case rto =>
    exact ⟨_, .ofElement nofun (fun _ => rfl) fun _ s _ h ha =>
      storesBelow_writeReduced fun v hv => by
        cases (Slot.convertIn_spec h.wellBuilt ha).symm.trans hv
        exact Slot.toRing_lt h.wellBuilt ha⟩
  case rfrom =>
    exact ⟨_, .ofElement nofun (fun _ => rfl) fun _ s _ h ha =>
      storesBelow_writeReduced fun v hv => by
        cases (Slot.convertOut_spec h.wellBuilt ha).symm.trans hv
        exact (Slot.ofRing_spec h.wellBuilt ha).1⟩
  case risone => exact ⟨_, .ofElement nofun (fun _ => rfl) fun hne => absurd rfl hne⟩
  case expLadder =>
    exact ⟨_, .ofElement nofun (fun _ => rfl) fun _ s _ h _ => storesBelow_write (expValue_lt h.wellBuilt _ _) _⟩
  case expFast =>
    exact ⟨_, .ofElement nofun (fun _ => rfl) fun _ s _ h _ => storesBelow_write (expValue_lt h.wellBuilt _ _) _⟩
  case expSsma =>
    exact ⟨_, .ofElement nofun (fun _ => rfl) fun _ s _ h _ => storesBelow_write (expValue_lt h.wellBuilt _ _) _⟩
  all_goals simp [formatOf] at hf

/-- A command that ends with OK and stores one value below p < 2^(W·n) leaves it to be read back. -/
theorem readRange_of_conclude_ok {i : Instr} {s : State} {e : Effect} {d : Range} {p : Nat}
    (hd : destsOf i s = [d]) (hp : p ≤ 2 ^ (s.w * d.len)) (he : e.StoresBelow p)
    (hok : (s.conclude i e).err = .ok) : ∃ v, v < p ∧ (s.conclude i e).readRange d = some v := by
  rcases conclude_cases s i e with ⟨-, hc⟩ | ⟨-, -, hc⟩ | ⟨-, ⟨-, hc⟩ | ⟨-, hc⟩ | ⟨r, ws, rfl, hc⟩ | ⟨c, rfl, -⟩⟩
  · simp [hc] at hok
  · rcases failResource_cases s i with ⟨-, hr⟩ | ⟨-, hr⟩ <;> simp [hc, hr] at hok
  · simp [hc] at hok
  · simp [hc] at hok
  · obtain ⟨v, hv, rfl⟩ := he
    refine ⟨v, hv, ?_⟩
    rw [hc, hd]
    exact Memory.readLimbs_writeLimbs_same s.w s.mem d.base d.len (hv.trans_le hp)
  · exact absurd he not_false

/-- A ring command's one destination is DST0:n. -/
theorem destsOf_of_ringFormat {i : Instr} (s : State) (hf : formatOf i ∈ [.r1, .r2, .rw, .exp]) :
    destsOf i s = [s.atDst0 (s.slot (ctxOf i)).n] := by
  have hcases : formatOf i = .r1 ∨ formatOf i = .r2 ∨ formatOf i = .rw ∨ formatOf i = .exp := by simpa using hf
  rcases hcases with h | h | h | h <;> simp [destsOf, limbCount, h, Format.dests, Format.usesCtx]

theorem usesCtx_of_ringFormat {i : Instr} (hf : formatOf i ∈ ringFormats) : (formatOf i).usesCtx = true := by
  have hall : ∀ f ∈ ringFormats, f.usesCtx = true := by decide
  exact hall _ hf

/-- Step 8 of R130: a source with an uninitialised word is model fault UNINIT. -/
theorem performed_of_readRanges_none {i : Instr} {s : State} (h : PassesChecks i s)
    (hv : s.readRanges (sourcesOf i s) = none) (body : Operands → Effect) :
    performed i s body = s.recordFault .uninit := by
  obtain ⟨h1, h2, h3, h4, h5, h6⟩ := h
  simp [performed, h1, h2, h3, h4, h5, h6, hv]

/-- A command that meets a model fault stays latched. -/
@[simp] theorem State.recordFault_busy (s : State) (k : ModelFault) : (s.recordFault k).busy = s.busy := by
  simp [State.busy]

/-- Settles O53: a ring command's body rejects an unreduced element and stores only reduced values. -/
theorem ringElementsStayBelowTheModulus : Obligations.RingElementsStayBelowTheModulus := by
  intro i s hslot hfaulted hlen hranges halias n p
  have hpasses : formatOf i ∈ ringFormats → PassesChecks i s := fun hring =>
    ⟨hfaulted, slotOk_of_slotReady hslot, hlen, hranges, halias,
      selectorOk_of_usesCtx (usesCtx_of_ringFormat hring)⟩
  have hp : p ≤ 2 ^ (s.w * n) := (Slot.modulus_lt_radix hslot.wellBuilt).le
  refine ⟨fun hf vs hvs hbig => ?_, fun hf hbusy t ht hidle hok => ?_⟩
  case refine_1 =>
    have hring : formatOf i ∈ ringFormats := (by decide : [.r1, .r1r, .r2, .exp] ⊆ ringFormats) hf
    obtain ⟨body, hbody⟩ := exists_ringBody hring
    rw [hbody.runs, perform, performed_of_passes (hpasses hring) hvs, hbody.rejects hf _ hbig, conclude_param]
  case refine_2 =>
    have hring : formatOf i ∈ ringFormats := (by decide : [.r1, .r2, .rw, .exp] ⊆ ringFormats) hf
    obtain ⟨body, hbody⟩ := exists_ringBody hring
    obtain rfl : performed i s body = t := Host.Outcome.next.inj ((hbody.runs s).symm.trans ht)
    cases hvs : s.readRanges (sourcesOf i s) with
    | none =>
      have hfault := performed_of_readRanges_none (hpasses hring) hvs body
      rw [hfault, State.recordFault_busy, hbusy] at hidle
      cases hidle
    | some vs =>
      rw [performed_of_passes (hpasses hring) hvs] at hok ⊢
      exact readRange_of_conclude_ok (destsOf_of_ringFormat s hf) hp (hbody.stores hf s vs hslot) hok

end Sys2Proof.Machine
end

section
/-!
PROOFS. The word comparisons that write a mask (45_constant_time.md R350–R352).
-/

namespace Sys2Proof.Machine

/-! ## The mask of a condition -/

theorem maskOf_true (w : Nat) : maskOf w true = 2 ^ w - 1 := rfl

theorem maskOf_false (w : Nat) : maskOf w false = 0 := rfl

/-- RESULT tells the two masks apart, since a word has at least one bit (00_scope.md R6). -/
theorem maskResult_maskOf {w : Nat} (hw : 0 < w) (c : Bool) : maskResult w (maskOf w c) = boolResult c := by
  have hmask : 1 < 2 ^ w := Nat.one_lt_two_pow hw.ne'
  have hc : maskOf w c = 2 ^ w - 1 ↔ c = true := by
    cases c
    · simp only [maskOf_false, Bool.false_eq_true, iff_false]; omega
    · simp only [maskOf_true]
  simp [maskResult, hc]

theorem writeMask_eq {w : Nat} (hw : 0 < w) (c : Bool) : writeMask w c = .write (boolResult c) [maskOf w c] := by
  rw [writeMask, maskResult_maskOf hw]

/-! ## A ready command on two words -/

section
variable {ctx sel a b : Nat} {i : Instr} {s : State}

theorem sourcesOf_of_w1 (hf : formatOf i = .w1) : sourcesOf i s = [s.atA 1, s.atB 1] := by
  simp [sourcesOf, hf, Format.sources]

theorem destsOf_of_w1 (hf : formatOf i = .w1) : destsOf i s = [s.atDst0 1] := by
  simp [destsOf, hf, Format.dests]

/-- A W1 command takes one word at each address and names no slot, so R130 checks no length and no slot for it
(30_encoding.md R112). -/
theorem exec_w1_of_ready {body : Operands → Effect} (he : exec i s = perform i s body) (hf : formatOf i = .w1)
    (hsel : selectorOk i = true) (h : Ready i s [(s.atA 1, a), (s.atB 1, b)] [s.atDst0 1]) :
    exec i s = .next (s.conclude i (body (operandsOf i s [a, b]))) := by
  have hslot : slotOk i s = true := by simp [slotOk, hf, Format.usesCtx]
  have hlen : lengthsOk i s = true := by simp [lengthsOk, hf, Format.lengthsOk]
  have halias := aliasFree_of_ready h (f := formatOf i) (by simp [hf]) rfl
  rw [he, perform, performed_of_ready h (sourcesOf_of_w1 hf) (destsOf_of_w1 hf) hslot hlen hsel halias]
  rfl

/-- A comparison stores its mask and returns its truth value. -/
theorem exec_comparison_of_ready {c : Nat → Nat → Bool}
    (he : exec i s = perform i s fun o => writeMask o.w (c o.a o.b)) (hf : formatOf i = .w1)
    (hsel : selectorOk i = true) (h : Ready i s [(s.atA 1, a), (s.atB 1, b)] [s.atDst0 1]) :
    exec i s = .next (s.okWith (boolResult (c a b)) (s.put (s.atDst0 1) (maskOf s.w (c a b)))) := by
  have hw : 0 < (operandsOf i s [a, b]).w := one_le_w s.params
  rw [exec_w1_of_ready he hf hsel h, writeMask_eq hw, conclude_store_of_ready h (destsOf_of_w1 hf)]
  rfl

theorem exec_ctEq_of_ready (h : Ready (.ctEq ctx sel) s [(s.atA 1, a), (s.atB 1, b)] [s.atDst0 1]) :
    exec (.ctEq ctx sel) s =
      .next (s.okWith (boolResult (decide (a = b))) (s.put (s.atDst0 1) (maskOf s.w (decide (a = b))))) :=
  exec_comparison_of_ready (c := fun x y => decide (x = y)) rfl rfl rfl h

theorem exec_ctLt_of_ready (h : Ready (.ctLt ctx sel) s [(s.atA 1, a), (s.atB 1, b)] [s.atDst0 1]) :
    exec (.ctLt ctx sel) s =
      .next (s.okWith (boolResult (decide (a < b))) (s.put (s.atDst0 1) (maskOf s.w (decide (a < b))))) :=
  exec_comparison_of_ready (c := fun x y => decide (x < y)) rfl rfl rfl h

theorem exec_ctGt_of_ready (h : Ready (.ctGt ctx sel) s [(s.atA 1, a), (s.atB 1, b)] [s.atDst0 1]) :
    exec (.ctGt ctx sel) s =
      .next (s.okWith (boolResult (decide (b < a))) (s.put (s.atDst0 1) (maskOf s.w (decide (b < a))))) :=
  exec_comparison_of_ready (c := fun x y => decide (y < x)) rfl rfl rfl h

end

/-- Settles O54: each command stores the mask of its comparison, which is all ones or zero. -/
theorem maskResults : Obligations.MaskResults := by
  intro ctx sel s a b i holds hi h
  obtain ⟨c, hc, he⟩ : ∃ c : Bool, (holds ↔ c = true) ∧
      exec i s = .next (s.okWith (boolResult c) (s.put (s.atDst0 1) (maskOf s.w c))) := by
    rcases hi with ⟨rfl, hc⟩ | ⟨rfl, hc⟩ | ⟨rfl, hc⟩
    · exact ⟨_, hc.trans decide_eq_true_iff.symm, exec_ctEq_of_ready h⟩
    · exact ⟨_, hc.trans decide_eq_true_iff.symm, exec_ctLt_of_ready h⟩
    · exact ⟨_, hc.trans decide_eq_true_iff.symm, exec_ctGt_of_ready h⟩
  refine ⟨fun hh => ?_, fun hn => ?_⟩
  · obtain rfl := hc.mp hh
    exact he
  · obtain rfl := Bool.eq_false_iff.mpr (mt hc.mpr hn)
    exact he

end Sys2Proof.Machine
end

section
/-!
PROOFS. The three exponentiation commands: one value, φ_c(x^e mod p), or PARAM (46_modexp.md R384).
-/

namespace Sys2Proof.Machine

/-! ## The power of a ring element -/

section
variable {P : Params} {c : Slot} {b : Nat}

/-- one_c by strategy, as the slot stores it (43_ring.md R290; 10_state.md R40). -/
theorem Slot.one_eq_ite (c : Slot) : c.one = if c.strat = .plain then 1 else c.rone := by
  unfold Slot.one
  cases c.strat <;> rfl

theorem expValue_eq (w : Nat) (c : Slot) (b e : Nat) :
    expValue w c b e = c.toRing w (c.ofRing w b ^ e % c.modulus) := by
  rw [expValue, powMod_spec]

theorem expValue_of_plain (h : c.wellBuilt P) (hb : b < c.modulus) (hs : c.strat = .plain) (e : Nat) :
    expValue P.w c b e = b ^ e % c.modulus := by
  obtain ⟨-, hplain, -⟩ := Slot.ofRing_spec h hb
  rw [expValue_eq, Slot.toRing_of_plain hs, hplain hs]

theorem expValue_of_montgomery (hs : c.strat = .montgomery) (w b e : Nat) :
    expValue w c b e = c.ofRing w b ^ e % c.modulus * radix w c.n % c.modulus := by
  rw [expValue_eq, Slot.toRing_of_montgomery hs]

theorem expValue_exp_zero (h : c.wellBuilt P) (b : Nat) : expValue P.w c b 0 = c.one := by
  rw [expValue_eq, Nat.pow_zero, Nat.mod_eq_of_lt (Slot.two_le_modulus h), (Slot.one_spec h).2]

theorem expValue_exp_one (h : c.wellBuilt P) (hb : b < c.modulus) : expValue P.w c b 1 = b := by
  obtain ⟨hlt, -, -⟩ := Slot.ofRing_spec h hb
  rw [expValue_eq, Nat.pow_one, Nat.mod_eq_of_lt hlt, Slot.toRing_ofRing h hb]

end

/-! ## How a ready exponentiation ends -/

section
variable {ctx sel b e : Nat} {s : State} {i : Instr}

/-- The format EXP limits LENB alone (30_encoding.md R112). -/
theorem lengthsOk_of_exp (hf : formatOf i = .exp) (hl : s.LenOk s.lenB) : lengthsOk i s = true := by
  simpa [lengthsOk, hf, Format.lengthsOk, lenIn] using hl

/-- The three commands differ in their method only, not in what they write (R384). -/
theorem exec_exp_of_ready (hi : i = .expLadder ctx sel ∨ i = .expFast ctx sel ∨ i = .expSsma ctx sel)
    (hslot : s.SlotReady ctx) (hl : s.LenOk s.lenB)
    (h : Ready i s [(s.atA (s.slot ctx).n, b), (s.atB s.lenB, e)] [s.atDst0 (s.slot ctx).n]) :
    exec i s = .next (s.conclude i
      (withElement (s.slot ctx) b (.write 0#32 [expValue s.w (s.slot ctx) b e]))) := by
  rcases hi with rfl | rfl | rfl <;>
    exact exec_onSlot_of_ready rfl rfl hslot (lengthsOk_of_exp rfl hl) h rfl rfl

end

/-- Settles O59: each command writes φ_c(x^e mod p) with x = φ_c^{-1}(b), or ends with PARAM. -/
theorem exponentiationResults : Obligations.ExponentiationResults := by
  intro ctx sel s b e i hslot hl hi h n p
  have hexp : i = .expLadder ctx sel ∨ i = .expFast ctx sel ∨ i = .expSsma ctx sel := by simpa using hi
  have hd : destsOf i s = [s.atDst0 n] := by rcases hexp with rfl | rfl | rfl <;> rfl
  have hc : (s.slot ctx).wellBuilt s.params := hslot.wellBuilt
  have he := exec_exp_of_ready hexp hslot hl h
  refine ⟨fun hb => ?_, fun hb => ?_⟩
  case refine_1 =>
    refine ⟨expValue s.w (s.slot ctx) b e, expValue_lt hc b e, fun hs => expValue_of_plain hc hb hs e,
      fun hs => ?_, fun h0 => ?_, fun h1 => ?_, ?_⟩
    · obtain ⟨hlt, -, hmont⟩ := Slot.ofRing_spec hc hb
      exact ⟨_, hlt, hmont hs, expValue_of_montgomery hs s.w b e⟩
    · rw [h0, expValue_exp_zero hc b, Slot.one_eq_ite]
    · rw [h1, expValue_exp_one hc hb]
    · rw [he, withElement_of_lt hb, conclude_store_of_ready h hd]
  case refine_2 => rw [he, withElement_of_le hb, conclude_param]

end Sys2Proof.Machine
end

section
/-!
PROOFS. How commands end: the completions of R400–R408, the interrupt line and the FAULTED block
(60_exceptions.md R402–R408, R412).
-/

namespace Sys2Proof.Machine

/-! ## RESOURCE, field by field -/

section
variable (s : State) (i : Instr)

@[simp] theorem State.failResource_err : (s.failResource i).err = .resource := by
  rcases failResource_cases s i with ⟨-, h⟩ | ⟨-, h⟩ <;> simp [h]

@[simp] theorem State.failResource_done : (s.failResource i).done = true := by
  rcases failResource_cases s i with ⟨-, h⟩ | ⟨-, h⟩ <;> simp [h]

@[simp] theorem State.failResource_ie : (s.failResource i).ie = s.ie := by
  rcases failResource_cases s i with ⟨-, h⟩ | ⟨-, h⟩ <;> simp [h]

@[simp] theorem State.failResource_latch : (s.failResource i).latch = none := by
  rcases failResource_cases s i with ⟨-, h⟩ | ⟨-, h⟩ <;> simp [h]

@[simp] theorem State.failResource_mem : (s.failResource i).mem = eraseRanges s.mem (destsOf i s) := by
  rcases failResource_cases s i with ⟨-, h⟩ | ⟨-, h⟩ <;> simp [h]

/-- RING_INIT is the one command of its format (30_encoding.md R116). -/
theorem formatOf_eq_init_iff : formatOf i = .init ↔ ∃ ctx sel, i = .ringInit ctx sel := by
  cases i <;> simp [formatOf]

theorem State.failResource_slots (h : formatOf i ≠ .init) : (s.failResource i).slots = s.slots := by
  rcases failResource_cases s i with ⟨-, hr⟩ | ⟨hinit, -⟩
  · simp [hr]
  · exact absurd hinit h

theorem State.failResource_slots_ringInit (ctx sel : Nat) :
    (s.failResource (.ringInit ctx sel)).slots = s.slots.set ctx { s.slot ctx with valid := false } := rfl

end

/-! ## The completions of a command -/

/-- The states in which command i can leave BUSY = 0, by status code, each with why it is reached (R400–R408). -/
inductive Completion (i : Instr) (s : State) : State → Prop
  | aborted : s.faulted = true → Completion i s (s.endedWith .aborted)
  | param : s.faulted = false → Completion i s (s.endedWith .param)
  | resource : s.faulted = false → Completion i s (s.failResource i)
  | noInverse {body : Operands → Effect} {vs : List Nat} : PassesChecks i s → BodyShape i body →
      s.readRanges (sourcesOf i s) = some vs → body (operandsOf i s vs) = .noInverse →
      Completion i s (s.spoiledWith .noInverse (destsOf i s))
  | invariant {body : Operands → Effect} {vs : List Nat} : PassesChecks i s → BodyShape i body →
      body (operandsOf i s vs) = .invariant →
      Completion i s { s.spoiledWith .invariant (destsOf i s) with faulted := true }
  | ok (r : BitVec 32) (m : Memory) (cs : List Slot) : s.faulted = false →
      Completion i s { s.okWith r m with slots := cs }

/-- A latched command that leaves BUSY = 0 met no model fault: step 1 of R130 ended it, or steps 3 to 5, or its body. -/
theorem performed_idle_cases {i : Instr} {s : State} {body : Operands → Effect} (hbusy : s.busy = true)
    (hidle : (performed i s body).busy = false) :
    (s.faulted = true ∧ performed i s body = s.endedWith .aborted) ∨
    (s.faulted = false ∧ (slotOk i s = false ∨ lengthsOk i s = false ∨ rangesOk i s = false) ∧
      performed i s body = s.endedWith .param) ∨
    (PassesChecks i s ∧ ∃ vs, s.readRanges (sourcesOf i s) = some vs ∧
      performed i s body = s.conclude i (body (operandsOf i s vs))) := by
  have hlatched : ∀ k, performed i s body ≠ s.recordFault k := fun k hk => by
    rw [hk, State.recordFault_busy, hbusy] at hidle
    cases hidle
  rcases performed_cases i s body with h | h | ⟨-, -, -, -, -, h⟩ | ⟨-, -, -, -, -, -, h⟩ | ⟨-, -, h⟩ | h
  · exact .inl h
  · exact .inr (.inl h)
  · exact absurd h (hlatched _)
  · exact absurd h (hlatched _)
  · exact absurd h (hlatched _)
  · exact .inr (.inr h)

/-- Every way a latched command leaves BUSY = 0 is a completion. -/
theorem exec_completion {i : Instr} {s t : State} (hbusy : s.busy = true) (h : exec i s = .next t)
    (hidle : t.busy = false) : Completion i s t := by
  obtain ⟨body, hperforms, hshape⟩ := exec_performs i
  obtain rfl : performed i s body = t := Host.Outcome.next.inj ((hperforms s).symm.trans h)
  rcases performed_idle_cases hbusy hidle with ⟨hf, ht⟩ | ⟨hf, -, ht⟩ | ⟨hpass, vs, hvs, ht⟩ <;> rw [ht]
  · exact .aborted hf
  · exact .param hf
  · have hf : s.faulted = false := hpass.1
    rcases conclude_cases s i (body (operandsOf i s vs)) with ⟨-, hc⟩ | ⟨-, -, hc⟩ |
      ⟨-, ⟨he, hc⟩ | ⟨he, hc⟩ | ⟨r, ws, -, hc⟩ | ⟨c, -, hc⟩⟩ <;> rw [hc]
    · exact .param hf
    · exact .resource hf
    · exact .noInverse hpass hshape hvs he
    · exact .invariant hpass hshape he
    · exact .ok r _ s.slots hf
    · exact .ok 0 s.mem _ hf

/-! ## The interrupt line (R412) -/

theorem Completion.done {i : Instr} {s t : State} (h : Completion i s t) : t.done = true := by
  cases h <;> simp

theorem Completion.ie {i : Instr} {s t : State} (h : Completion i s t) : t.ie = s.ie := by
  cases h <;> simp

theorem State.irq_of_done {t : State} (h : t.done = true) : t.irq = t.ie := by simp [State.irq, h]

/-- Settles O15: every completion and every rejection sets DONE and keeps IE; the two host writes clear one factor of
the line. -/
theorem interruptLine : Obligations.InterruptLine := by
  refine ⟨fun s => rfl, fun i s t hbusy h hidle => ?_, fun s => ⟨rfl, State.irq_of_done rfl⟩, fun s v hv => ?_,
    fun s v hv => ?_⟩
  · have hc := exec_completion hbusy h hidle
    exact ⟨hc.done, (State.irq_of_done hc.done).trans hc.ie⟩
  · have hw : s.writeCsr 0x03 v = { s with done := false } := if_pos hv
    rw [hw, State.irq, Bool.false_and]
  · have hw : s.writeCsr 0x0F v = { s with ie := false } := by rw [← hv]; rfl
    rw [hw, State.irq, Bool.and_false]

/-! ## What a failed command leaves (R407) -/

/-- PARAM and ABORTED change no word and no slot. -/
theorem Completion.unchanged {i : Instr} {s t : State} (h : Completion i s t)
    (herr : t.err = .param ∨ t.err = .aborted) : t.mem = s.mem ∧ t.slots = s.slots := by
  cases h
  case aborted => exact ⟨rfl, rfl⟩
  case param => exact ⟨rfl, rfl⟩
  all_goals simp at herr

/-- NO_INVERSE, RESOURCE and INVARIANT spoil the destinations. -/
theorem Completion.mem_of_spoilt {i : Instr} {s t : State} (h : Completion i s t)
    (herr : t.err = .noInverse ∨ t.err = .resource ∨ t.err = .invariant) :
    t.mem = eraseRanges s.mem (destsOf i s) := by
  cases h
  case resource => exact s.failResource_mem i
  case noInverse => rfl
  case invariant => rfl
  all_goals simp at herr

/-- A command other than RING_INIT that fails changes no slot. -/
theorem Completion.slots_of_failed {i : Instr} {s t : State} (h : Completion i s t) (herr : t.err ≠ .ok)
    (hi : formatOf i ≠ .init) : t.slots = s.slots := by
  cases h
  case resource => exact s.failResource_slots i hi
  case ok => exact absurd rfl herr
  all_goals rfl

theorem Completion.eq_failResource {i : Instr} {s t : State} (h : Completion i s t) (herr : t.err = .resource) :
    t = s.failResource i := by
  cases h
  case resource => rfl
  all_goals simp at herr

/-- The words of spoilt ranges are uninitialised, and no other word changes. -/
theorem read_eraseRanges_eq_ite (m : Memory) (rs : List Range) (a : Nat) :
    (eraseRanges m rs).read a = if ∃ r ∈ rs, r.base ≤ a ∧ a < r.base + r.len then none else m.read a := by
  simp only [read_eraseRanges, List.any_eq_true, Range.covers_iff]

/-- Settles O17: the four clauses hold of every completion. -/
theorem failedCommandsSpoilTheirDestinations : Obligations.FailedCommandsSpoilTheirDestinations := by
  refine ⟨fun i s t hbusy h hidle => ?_, fun s => ⟨rfl, rfl⟩⟩
  have hc := exec_completion hbusy h hidle
  refine ⟨hc.unchanged, fun herr a => ?_, fun herr hi => ?_, ?_⟩
  · rw [hc.mem_of_spoilt herr, read_eraseRanges_eq_ite]
  · refine hc.slots_of_failed herr fun hinit => ?_
    obtain ⟨ctx, sel, rfl⟩ := (formatOf_eq_init_iff i).mp hinit
    exact hi ctx sel rfl
  · rintro ctx sel rfl herr
    rw [hc.eq_failResource herr]
    exact ⟨{ s.slot ctx with valid := false }, rfl, s.failResource_slots_ringInit ctx sel⟩

end Sys2Proof.Machine
end

section
/-!
PROOFS. The FAULTED block (60_exceptions.md R408).
-/

namespace Sys2Proof.Machine

/-! ## The engine of a FAULTED block -/

theorem Completion.faulted_of_invariant {i : Instr} {s t : State} (h : Completion i s t) (herr : t.err = .invariant) :
    t.faulted = true := by
  cases h
  case invariant => rfl
  all_goals simp at herr

/-- Step 1 of R130 comes before every other check. -/
theorem performed_of_faulted (i : Instr) {s : State} (h : s.faulted = true) (body : Operands → Effect) :
    performed i s body = s.endedWith .aborted := by
  rw [performed, if_pos h, State.complete_eq_endedWith s (by decide)]

theorem exec_of_faulted (i : Instr) {s : State} (h : s.faulted = true) : exec i s = .next (s.endedWith .aborted) := by
  obtain ⟨body, hperforms, -⟩ := exec_performs i
  rw [hperforms, performed_of_faulted i h]

theorem rejectIllegal_of_faulted {s : State} (h : s.faulted = true) : s.rejectIllegal = s.endedWith .aborted := by
  rw [State.rejectIllegal_eq, if_pos h]

/-! ## The host's accesses to a FAULTED block -/

/-- The same block with FAULTED set or clear. -/
def State.withFaulted (s : State) (b : Bool) : State := { s with faulted := b }

section
variable (s : State) (b : Bool)

@[simp] theorem State.withFaulted_busy : (s.withFaulted b).busy = s.busy := rfl

@[simp] theorem State.withFaulted_mem : (s.withFaulted b).mem = s.mem := rfl

@[simp] theorem State.withFaulted_memAccessFaults (a : Nat) :
    (s.withFaulted b).memAccessFaults a = s.memAccessFaults a := rfl

/-- STATUS alone shows FAULTED. -/
theorem State.csr_withFaulted {k : BitVec 8} (hk : k ≠ 0x03) : (s.withFaulted b).csr k = s.csr k := by
  unfold State.csr
  split
  case h_4 => exact absurd rfl hk
  all_goals rfl

theorem State.recordFault_withFaulted (k : ModelFault) :
    (s.withFaulted b).recordFault k = (s.recordFault k).withFaulted b := by
  unfold State.recordFault State.withFaulted
  split <;> rfl

theorem State.foldl_recordFault_withFaulted (ks : List ModelFault) :
    ks.foldl State.recordFault (s.withFaulted b) = (ks.foldl State.recordFault s).withFaulted b := by
  induction ks generalizing s with
  | nil => rfl
  | cons k ks ih => rw [List.foldl_cons, State.recordFault_withFaulted, ih, List.foldl_cons]

theorem State.writeCmd_withFaulted (v : BitVec 32) : (s.withFaulted b).writeCmd v = (s.writeCmd v).withFaulted b := by
  unfold State.writeCmd
  rw [State.withFaulted_busy]
  split
  · exact s.recordFault_withFaulted b _
  · rfl

theorem State.writeCsr_withFaulted (k : BitVec 8) (v : BitVec 32) :
    (s.withFaulted b).writeCsr k v = (s.writeCsr k v).withFaulted b := by
  unfold State.writeCsr
  split
  case h_1 => split <;> rfl
  case h_2 => exact s.writeCmd_withFaulted b v
  all_goals rfl

theorem State.withMemAccess_withFaulted (a : Nat) (f : State → State)
    (hf : f (s.withFaulted b) = (f s).withFaulted b) :
    (s.withFaulted b).withMemAccess a f = (s.withMemAccess a f).withFaulted b := by
  unfold State.withMemAccess
  rw [State.withFaulted_memAccessFaults]
  split
  · exact hf
  · exact s.foldl_recordFault_withFaulted b _

theorem State.hostReadMem_withFaulted (a : Nat) :
    (s.withFaulted b).hostReadMem a = (s.hostReadMem a).withFaulted b := by
  unfold State.hostReadMem
  rw [State.withFaulted_mem]
  split <;> rfl

/-- No host access but a read of STATUS depends on FAULTED, and none writes it. -/
theorem State.hostAccess_withFaulted {a : HostAction} (ha : a ≠ .csrRead 0x03) :
    (s.withFaulted b).hostAccess a = (s.hostAccess a).withFaulted b := by
  cases a with
  | csrRead k => rw [State.hostAccess, s.csr_withFaulted b (by rintro rfl; exact ha rfl)]; rfl
  | csrWrite k v => exact s.writeCsr_withFaulted b k v
  | memRead a => exact s.withMemAccess_withFaulted b a (fun t => t.hostReadMem a) (s.hostReadMem_withFaulted b a)
  | memWrite a v => exact s.withMemAccess_withFaulted b a (fun t => t.hostWriteMem a v) rfl

@[simp] theorem State.hostAccess_faulted (a : HostAction) : (s.hostAccess a).faulted = s.faulted := by
  by_cases ha : a = .csrRead 0x03
  · rw [ha]; rfl
  · have hsame : s.hostAccess a = (s.hostAccess a).withFaulted s.faulted := s.hostAccess_withFaulted s.faulted ha
    rw [hsame]; rfl

end

/-! ## FAULTED over every step -/

/-- Host and engine keep FAULTED = 1: the engine only aborts, and the host has no way to write the bit. -/
theorem step_keeps_faulted {s t : State} (h : step s = .next t) (hf : s.faulted = true)
    (hr : ∀ rest, s.turns ≠ .reset :: rest) : t.faulted = true := by
  rcases step_cases h with ⟨rest, ht, -⟩ |
    ⟨-, rest, -, ⟨-, hidle⟩ | ⟨l, i, -, -, hexec⟩ | ⟨l, e, -, -, hreject⟩⟩ | ⟨-, rest, a, -, hhost⟩
  · exact absurd ht (hr rest)
  · rw [hidle]; exact hf
  · cases (exec_of_faulted i (s := { s with turns := rest }) hf).symm.trans hexec
    exact hf
  · rw [hreject]; exact hf
  · rw [hhost, State.hostAccess_faulted]; exact hf

theorem step_of_reset {s : State} {rest : List Turn} (h : s.turns = .reset :: rest) :
    step s = .next (State.resetBlock { s with turns := rest }) := by
  simp [step, nextTurn, h]

/-- Settles O18: INVARIANT sets the bit, the engine's first check reads it, no host access but a read of STATUS sees it,
and only reset clears it. -/
theorem faultedBlockAborts : Obligations.FaultedBlockAborts :=
  ⟨fun _ _ _ hbusy h hidle => (exec_completion hbusy h hidle).faulted_of_invariant,
    fun i _ => exec_of_faulted i,
    fun _ => rejectIllegal_of_faulted,
    fun s _ => s.hostAccess_withFaulted true,
    fun _ _ => step_keeps_faulted,
    fun _ _ h => ⟨_, step_of_reset h, State.resetBlock_faulted _⟩⟩

end Sys2Proof.Machine
end

section
/-!
PROOFS. Which status a command can end with: ILLEGAL and ABORTED, INVARIANT, NO_INVERSE, RESOURCE
(60_exceptions.md R402–R404, R413).
-/

namespace Sys2Proof.Machine

/-! ## INVARIANT (R404) -/

/-- In a state that meets the invariant, a command past step 3 of R130 has a slot as R41 describes it. -/
theorem slotReady_of_passes {i : Instr} {s : State} (hi : s.Inv) (hpass : PassesChecks i s)
    (hctx : (formatOf i).usesCtx = true) (hinit : formatOf i ≠ .init) : s.SlotReady (ctxOf i) := by
  obtain ⟨-, -, -, hlen, hbuilt, -⟩ := hi
  obtain ⟨-, hslot, -⟩ := hpass
  obtain ⟨hlt, hvalid⟩ : ctxOf i < s.params.ctxSlots ∧ (s.slot (ctxOf i)).valid = true := by
    simpa [slotOk, hctx, hinit] using hslot
  have hmem : s.slot (ctxOf i) ∈ s.slots := by
    rw [State.slot, List.getD_eq_getElem _ _ (hlen ▸ hlt)]
    exact List.getElem_mem _
  exact ⟨hlt, hvalid, hbuilt _ hmem hvalid⟩

/-- On a plain slot the wide reduction is a remainder, and no REDC runs. -/
theorem Slot.strat_of_reduce_none {w t : Nat} {c : Slot} (h : c.reduce w t = none) : c.strat = .montgomery := by
  cases hs : c.strat with
  | plain => simp [Slot.reduce, hs] at h
  | montgomery => rfl

/-- The REDC of a product or a conversion of ring elements is defined (44_montgomery.md R324), so INVARIANT is left to
RREDUCE. -/
theorem rreduce_of_body_invariant {i : Instr} {s : State} {body : Operands → Effect} {vs : List Nat} (hi : s.Inv)
    (hpass : PassesChecks i s) (hshape : BodyShape i body) (he : body (operandsOf i s vs) = .invariant) :
    ∃ ctx sel, i = .rreduce ctx sel ∧ (s.slot ctx).strat = .montgomery := by
  rcases hshape.invariant _ he with ⟨⟨ctx, sel, rfl⟩, hnone⟩ | ⟨hf, ha, hnone⟩
  · exact ⟨ctx, sel, rfl, Slot.strat_of_reduce_none hnone⟩
  · have hslot : s.SlotReady (ctxOf i) := by
      rcases hf with hf | hf <;> exact slotReady_of_passes hi hpass (by rw [hf]; rfl) (by simp [hf])
    have hc := hslot.wellBuilt
    rcases hnone with ⟨hb, hnone⟩ | hnone | hnone | hnone
    · obtain ⟨v, hv, -⟩ := Slot.mul_spec hc ha hb
      cases hnone.symm.trans hv
    · obtain ⟨v, hv, -⟩ := Slot.mul_spec hc ha ha
      cases hnone.symm.trans hv
    · cases hnone.symm.trans (Slot.convertIn_spec hc ha)
    · cases hnone.symm.trans (Slot.convertOut_spec hc ha)

theorem Completion.err_ne_illegal {i : Instr} {s t : State} (h : Completion i s t) : t.err ≠ .illegal := by
  cases h <;> simp

theorem Completion.err_eq_aborted_iff {i : Instr} {s t : State} (h : Completion i s t) :
    t.err = .aborted ↔ s.faulted = true := by
  cases h
  case aborted hf => simp [hf]
  case param hf => simp [hf]
  case resource hf => simp [hf]
  case noInverse hpass _ _ _ => simp [hpass.1]
  case invariant hpass _ _ => simp [hpass.1]
  case ok hf => simp [hf]

theorem Completion.rreduce_of_invariant {i : Instr} {s t : State} (h : Completion i s t) (hi : s.Inv)
    (herr : t.err = .invariant) : ∃ ctx sel, i = .rreduce ctx sel ∧ (s.slot ctx).strat = .montgomery := by
  cases h
  case invariant hpass hshape he => exact rreduce_of_body_invariant hi hpass hshape he
  all_goals simp at herr

/-- Settles O19: ABORTED is step 1's answer alone, and every REDC but RREDUCE's stays below the modulus. -/
theorem onlyRreduceRaisesInvariant : Obligations.OnlyRreduceRaisesInvariant := by
  intro i s t hi hbusy h hidle
  have hc := exec_completion hbusy h hidle
  exact ⟨hc.err_ne_illegal, hc.err_eq_aborted_iff, hc.rreduce_of_invariant hi⟩

/-! ## NO_INVERSE (R402) -/

theorem State.readRange_of_readRanges {s : State} {r : Range} {vs : List Nat} (h : s.readRanges [r] = some vs) :
    s.readRange r = some (vs.getD 0 0) := by
  cases hr : s.readRange r with
  | none => simp [State.readRanges, hr] at h
  | some v =>
    obtain rfl : [v] = vs := by simpa [State.readRanges, hr] using h
    rfl

/-- An inverter's one source is the element, and what it inverts shares the element's factors with p. -/
theorem inverter_element {i : Instr} {s : State} {vs : List Nat} {x : Nat} (hi : s.Inv) (hpass : PassesChecks i s)
    (hx : Inverter i (operandsOf i s vs) x) (ha : vs.getD 0 0 < (s.slot (ctxOf i)).modulus) :
    ∃ ctx sel, (i = .modinvCt ctx sel ∨ i = .modinvVt ctx sel ∨ i = .rinv ctx sel) ∧ ctxOf i = ctx ∧
      sourcesOf i s = [s.atA (s.slot ctx).n] ∧
      Nat.gcd x (s.slot ctx).modulus = Nat.gcd (vs.getD 0 0) (s.slot ctx).modulus := by
  rcases hx with ⟨⟨ctx, sel, rfl⟩ | ⟨ctx, sel, rfl⟩, rfl⟩ | ⟨⟨ctx, sel, rfl⟩, rfl⟩
  · exact ⟨ctx, sel, .inl rfl, rfl, rfl, rfl⟩
  · exact ⟨ctx, sel, .inr (.inl rfl), rfl, rfl, rfl⟩
  · have hslot := slotReady_of_passes hi hpass rfl (by simp [formatOf])
    exact ⟨ctx, sel, .inr (.inr rfl), rfl, rfl, Slot.gcd_ofRing hslot.wellBuilt ha⟩

/-- Settles O21: NO_INVERSE is the answer of an inverter's body to an element that shares a factor with p. -/
theorem noInverseOnlyFromInverters : Obligations.NoInverseOnlyFromInverters := by
  intro i s t hi hbusy h hidle herr
  cases exec_completion hbusy h hidle
  case noInverse body vs hpass hshape hvs he =>
    obtain ⟨x, hx, ha, hgcd⟩ := hshape.noInverse _ he
    obtain ⟨ctx, sel, hinv, rfl, hsrc, hfactors⟩ := inverter_element hi hpass hx ha
    refine ⟨hpass.1, ctxOf i, sel, vs.getD 0 0, hinv, State.readRange_of_readRanges (hsrc ▸ hvs), ?_⟩
    rw [← hfactors]
    exact hgcd
  all_goals simp at herr

/-! ## RESOURCE (R403) -/

/-- The same block with scratch for every command (00_scope.md R10). -/
def State.withAmpleScratch (s : State) : State := { s with params := { s.params with scratchFails := [] } }

@[simp] theorem scratchOk_withAmpleScratch (i : Instr) (s : State) : scratchOk i s.withAmpleScratch = true := rfl

@[simp] theorem State.readRanges_withAmpleScratch (s : State) (rs : List Range) :
    s.withAmpleScratch.readRanges rs = s.readRanges rs := by
  induction rs with
  | nil => rfl
  | cons r rs ih => simp only [State.readRanges, ih]; rfl

/-- Steps 3 to 5 of R130 end with PARAM. -/
theorem performed_of_structural {i : Instr} {s : State} (hf : s.faulted = false)
    (h : slotOk i s = false ∨ lengthsOk i s = false ∨ rangesOk i s = false) (body : Operands → Effect) :
    performed i s body = s.endedWith .param := by
  have hp := State.complete_eq_endedWith s (code := .param) (by decide)
  rcases h with h | h | h <;> simp [performed, hf, h, hp]

/-- The status a body's outcome stands for, when scratch suffices. -/
def Effect.status : Effect → StatusCode
  | .param => .param
  | .noInverse => .noInverse
  | .invariant => .invariant
  | .write _ _ | .build _ => .ok

/-- No body asks for RESOURCE or ABORTED: those are the common procedure's. -/
theorem Effect.status_ne (e : Effect) : e.status ≠ .resource ∧ e.status ≠ .aborted := by
  cases e <;> simp [Effect.status]

@[simp] theorem conclude_busy (s : State) (i : Instr) (e : Effect) : (s.conclude i e).busy = false := by
  cases e <;> cases h : scratchOk i s <;> simp [State.conclude, State.busy, h]

/-- With scratch a command ends as its body answers. -/
theorem conclude_err_of_scratchOk {s : State} {i : Instr} (h : scratchOk i s = true) (e : Effect) :
    (s.conclude i e).err = e.status := by
  cases e <;> simp [State.conclude, Effect.status, h]

/-- Without it RESOURCE takes the place of every outcome but PARAM (R413). -/
theorem conclude_err_of_not_scratchOk {s : State} {i : Instr} (h : scratchOk i s = false) (e : Effect) :
    (s.conclude i e).err = if e.status = .param then .param else .resource := by
  cases e <;> simp [State.conclude, Effect.status, h]

/-- Settles O20: steps 1 to 8 of R130 do not ask for scratch, and step 9 asks for it after the body's PARAM checks. -/
theorem scratchShortageEndsInResource : Obligations.ScratchShortageEndsInResource := by
  refine ⟨rfl, fun i s t' hbusy h hidle => ?_⟩
  obtain ⟨body, hperforms, -⟩ := exec_performs i
  obtain rfl : performed i s.withAmpleScratch body = t' := Host.Outcome.next.inj ((hperforms _).symm.trans h)
  rcases performed_idle_cases (s := s.withAmpleScratch) hbusy hidle with
    ⟨hf, ht'⟩ | ⟨hf, hbad, ht'⟩ | ⟨hpass, vs, hvs, ht'⟩
  · refine ⟨by simp [ht'], _, exec_of_faulted i hf, rfl, ?_, ?_⟩ <;> simp [ht']
  · have ht : exec i s = .next (s.endedWith .param) := by
      rw [hperforms, performed_of_structural (s := s) hf hbad]
    refine ⟨by simp [ht'], _, ht, rfl, ?_, ?_⟩ <;> simp [ht']
  · have hvs : s.readRanges (sourcesOf i s) = some vs := (s.readRanges_withAmpleScratch _).symm.trans hvs
    set e := body (operandsOf i s vs)
    have ht : exec i s = .next (s.conclude i e) := by
      rw [hperforms, performed_of_passes (s := s) hpass hvs]
    have herr' : (performed i s.withAmpleScratch body).err = e.status := by
      rw [ht']; exact conclude_err_of_scratchOk rfl e
    obtain ⟨hres, hab⟩ := e.status_ne
    rw [herr']
    refine ⟨hres, _, ht, conclude_busy s i e, fun hs => conclude_err_of_scratchOk hs e, fun hs => ?_⟩
    rw [conclude_err_of_not_scratchOk hs]
    by_cases hp : e.status = .param <;> simp [hp, hab]

end Sys2Proof.Machine
end

section
/-!
PROOFS. Decoding and encoding are inverse to each other (30_encoding.md R111, R116, R117).
-/

namespace Sys2Proof.Machine

/-! ## From a command to its word and back -/

theorem Instr.wellFormed_eq (i : Instr) : i.wellFormed = (ctxFits (ctxOf i) && selFits (selOf i)) := by
  cases i <;> rfl

/-- The word of a well-formed command holds its three fields, and zeros in the reserved bits (R111). -/
theorem encode_fields {i : Instr} (h : i.wellFormed = true) :
    (opcField (encode i)).toNat = opcodeOf i ∧ (ctxField (encode i)).toNat = ctxOf i ∧
      (selField (encode i)).toNat = selOf i ∧ rsvdField (encode i) = 0 := by
  obtain ⟨hctx, hsel⟩ := Bool.and_eq_true_iff.mp (Instr.wellFormed_eq i ▸ h)
  exact Laws.word_fields (Laws.opcodeOf_lt i) hctx hsel

/-- The opcode map takes the opcode of each command to that command (R116). -/
theorem instrOf_opcodeOf (i : Instr) : instrOf (BitVec.ofNat 8 (opcodeOf i)) (ctxOf i) (selOf i) = some i := by
  cases i <;> rfl

/-- A word with no reserved bit set decodes to what the opcode map says. -/
theorem decode_eq_ok_iff (cmd : BitVec 32) (i : Instr) :
    decode cmd = .ok i ↔
      rsvdField cmd = 0 ∧ instrOf (opcField cmd) (ctxField cmd).toNat (selField cmd).toNat = some i := by
  unfold decode
  by_cases hr : rsvdField cmd = 0#19
  · cases instrOf (opcField cmd) (ctxField cmd).toNat (selField cmd).toNat <;> simp [hr]
  · simp [hr]

theorem decode_encode {i : Instr} (h : i.wellFormed = true) : decode (encode i) = .ok i := by
  obtain ⟨hopc, hctx, hsel, hrsvd⟩ := encode_fields h
  have hopc' : opcField (encode i) = BitVec.ofNat 8 (opcodeOf i) := by
    rw [← hopc, BitVec.ofNat_toNat, BitVec.setWidth_eq]
  rw [decode_eq_ok_iff, hopc', hctx, hsel]
  exact ⟨hrsvd, instrOf_opcodeOf i⟩

/-- Settles O1: the word holds the command's fields, and the opcode map inverts `opcodeOf`. -/
theorem encodedCommandsDecodeBack : Obligations.EncodedCommandsDecodeBack := fun _ => decode_encode

/-! ## From a word to its command and back -/

/-- The opcode map keeps CTX and SEL, and gives a command of the opcode it was asked for. -/
theorem fields_of_instrOf {opc : BitVec 8} {ctx sel : Nat} {i : Instr} (h : instrOf opc ctx sel = some i) :
    opcodeOf i = opc.toNat ∧ ctxOf i = ctx ∧ selOf i = sel := by
  unfold instrOf at h
  split at h <;> cases h <;> exact ⟨rfl, rfl, rfl⟩

/-- A word without reserved bits is the sum of its three fields. -/
theorem word_eq_fields {cmd : BitVec 32} (h : rsvdField cmd = 0) :
    cmd = BitVec.ofNat 32
      ((selField cmd).toNat * 2 ^ 11 + (ctxField cmd).toNat * 2 ^ 8 + (opcField cmd).toNat) := by
  have hctx : (ctxField cmd).toNat = cmd.toNat / 2 ^ 8 % 2 ^ 3 := by
    rw [ctxField, BitVec.extractLsb'_toNat, Nat.shiftRight_eq_div_pow]
  have hsel : (selField cmd).toNat = cmd.toNat / 2 ^ 11 % 2 ^ 2 := by
    rw [selField, BitVec.extractLsb'_toNat, Nat.shiftRight_eq_div_pow]
  have hhigh := (rsvdField_eq_zero_iff cmd).mp h
  have hlt := cmd.isLt
  rw [← BitVec.toNat_inj, BitVec.toNat_ofNat, hctx, hsel, opcField_toNat]
  omega

/-- Settles O2: each bit of a legal word lies in a field, and the opcode map keeps every field. -/
theorem decodedWordsEncodeBack : Obligations.DecodedWordsEncodeBack := by
  intro cmd i h
  obtain ⟨hrsvd, hi⟩ := (decode_eq_ok_iff cmd i).mp h
  obtain ⟨hopc, hctx, hsel⟩ := fields_of_instrOf hi
  have hctxFits : ctxFits (ctxField cmd).toNat = true := decide_eq_true (ctxField cmd).isLt
  have hselFits : selFits (selField cmd).toNat = true := decide_eq_true (selField cmd).isLt
  refine ⟨?_, ?_⟩
  · rw [encode, hopc, hctx, hsel]
    exact (word_eq_fields hrsvd).symm
  · rw [Instr.wellFormed_eq, hctx, hsel, hctxFits, hselFits, Bool.and_self]

/-- Settles O3: eight fixed words, each decoded by evaluation. -/
theorem writtenWordsDecode : Obligations.WrittenWordsDecode := by
  unfold Obligations.WrittenWordsDecode
  decide

end Sys2Proof.Machine
end

section
/-!
PROOFS. Reset and the machine's invariant: every step keeps it (10_state.md R40, R41, R43, R48; 70_reset_and_hazards.md
R440).
-/

namespace Sys2Proof.Machine

/-! ## Every way a command ends -/

/-- The states a command can lead to, model faults included, each with what is known when it is reached (30_encoding.md
R130; 60_exceptions.md R400–R411). -/
inductive Ending (i : Instr) (s : State) : State → Prop
  | aborted : s.faulted = true → Ending i s (s.endedWith .aborted)
  | param : Ending i s (s.endedWith .param)
  | fault {k : ModelFault} : k ∈ [ModelFault.uninit, .aliasing, .selector] → Ending i s (s.recordFault k)
  | resource : Ending i s (s.failResource i)
  | noInverse : Ending i s (s.spoiledWith .noInverse (destsOf i s))
  | invariant : (∃ ctx sel, i = .rreduce ctx sel) ∨ formatOf i = .r1 ∨ formatOf i = .r2 →
      Ending i s { s.spoiledWith .invariant (destsOf i s) with faulted := true }
  | stored (r : BitVec 32) (ws : List Nat) : PassesChecks i s → formatOf i ≠ .init →
      Ending i s (s.okWith r (writeRanges s.w s.mem (destsOf i s) ws))
  | built {ctx sel : Nat} {st : Strategy} {vs : List Nat} : i = .ringInit ctx sel → PassesChecks i s →
      s.readRanges (sourcesOf i s) = some vs → 2 ^ (s.w * (s.lenA - 1)) ≤ vs.getD 0 0 → 2 ≤ vs.getD 0 0 →
      (st = .montgomery → vs.getD 0 0 % 2 = 1) →
      Ending i s { s.okWith 0 s.mem with slots := s.slots.set ctx (builtSlot s.w st s.lenA (vs.getD 0 0)) }

theorem exec_ending {i : Instr} {s t : State} (h : exec i s = .next t) : Ending i s t := by
  rcases exec_cases h with ⟨hf, rfl⟩ | ⟨-, rfl | ⟨k, hk, rfl⟩ | ⟨hpass, vs, hvs, ⟨-, rfl⟩ |
    ⟨-, ⟨x, -, -, -, rfl⟩ | ⟨rfl, hredc⟩ | ⟨hinit, r, ws, -, rfl⟩ | ⟨ctx, sel, st, a, hi, rfl, -, hlo, h2, hodd, rfl⟩⟩⟩⟩
  · exact .aborted hf
  · exact .param
  · exact .fault hk
  · exact .resource
  · exact .noInverse
  · exact .invariant (hredc.imp (·.1) (·.1))
  · exact .stored r ws hpass hinit
  · exact .built hi hpass hvs hlo h2 hodd

/-! ## Reset -/

theorem resetWith_inv {p : Params} (hp : p.wf) : (State.resetWith p).Inv := by
  refine ⟨hp, List.Pairwise.nil, fun x hx => absurd hx List.not_mem_nil, List.length_replicate, fun c hc hv => ?_,
    List.nodup_nil⟩
  rw [List.eq_of_mem_replicate hc, Slot.reset_valid] at hv
  cases hv

/-- Settles O35: no slot is valid and no word listed, so only the parameters are left to check. -/
theorem resetMeetsTheInvariant : Obligations.ResetMeetsTheInvariant := by
  have hdefault : Params.default.wf := by decide
  refine ⟨?_, fun _ => resetWith_inv⟩
  rw [State.reset]
  exact resetWith_inv hdefault

theorem State.statusWord_resetBlock (s : State) : s.resetBlock.statusWord = 0#32 := by
  simp [State.statusWord, State.busy, StatusCode.code]

/-- The reset block shows the reset values, whatever the model's own fields hold. -/
theorem State.resetBlock_atReset (s : State) : s.resetBlock.AtReset := by
  refine ⟨⟨rfl, rfl, rfl⟩, ?_, rfl, rfl, rfl, ⟨List.length_replicate, fun c hc => ?_⟩, fun _ => rfl⟩
  · simp only [List.forall_mem_cons, List.not_mem_nil, false_imp_iff, implies_true, and_true]
    exact ⟨s.statusWord_resetBlock, rfl, rfl, rfl, rfl, rfl, rfl, rfl, rfl, rfl, rfl, rfl, rfl⟩
  · rw [List.eq_of_mem_replicate hc, Slot.reset_valid]

/-- Settles O34: the reset input's step is `resetBlock`, and power-up is the reset of a block with nothing recorded. -/
theorem resetState : Obligations.ResetState :=
  ⟨fun _ _ h => ⟨_, step_of_reset h, State.resetBlock_atReset _, rfl, rfl⟩, State.reset.resetBlock_atReset⟩

/-! ## Memory stays in canonical form, with W-bit words inside MEM_WORDS -/

section
variable {p : Params} {m : Memory}

theorem Memory.fits_eraseRanges (h : Memory.fits p m) (rs : List Range) : Memory.fits p (eraseRanges m rs) :=
  fun x hx => h x (mem_eraseRanges hx)

theorem Memory.fits_write (h : Memory.fits p m) {a v : Nat} (ha : a < p.memWords) (hv : v < 2 ^ p.w) :
    Memory.fits p (m.write a v) := by
  intro x hx
  rcases Memory.mem_write hx with rfl | hx
  · exact ⟨ha, hv⟩
  · exact h x hx

theorem Memory.fits_writeRanges (h : Memory.fits p m) {rs : List Range} (hr : ∀ r ∈ rs, r.legal p = true)
    (vs : List Nat) : Memory.fits p (writeRanges p.w m rs vs) := by
  intro x hx
  rcases mem_writeRanges p.w hx with hx | ⟨r, hmem, -, hlt, hv⟩
  · exact h x hx
  · obtain ⟨-, hend⟩ := (Range.legal_iff p r).mp (hr r hmem)
    exact ⟨hlt.trans_le hend, hv⟩

end

theorem dests_legal_of_rangesOk {i : Instr} {s : State} (h : rangesOk i s = true) :
    ∀ r ∈ destsOf i s, r.legal s.params = true := by
  obtain ⟨-, hd⟩ := Bool.and_eq_true_iff.mp h
  exact List.all_eq_true.mp hd

/-! ## The invariant, by what a step changes -/

section
variable {s t : State} (hi : s.Inv) (hparams : t.params = s.params)
include hi hparams

/-- A step that changes memory only. -/
theorem inv_of_mem (hslots : t.slots = s.slots) (hrec : t.modelFaults = s.modelFaults) (hwf : t.mem.wf)
    (hfits : Memory.fits s.params t.mem) : t.Inv := by
  obtain ⟨hp, -, -, hlen, hbuilt, hnodup⟩ := hi
  unfold State.Inv
  rw [hparams, hslots, hrec]
  exact ⟨hp, hwf, hfits, hlen, hbuilt, hnodup⟩

/-- A step that makes destinations uninitialised. -/
theorem inv_of_erased (hslots : t.slots = s.slots) (hrec : t.modelFaults = s.modelFaults) {rs : List Range}
    (hmem : t.mem = eraseRanges s.mem rs) : t.Inv := by
  obtain ⟨-, hwf, hfits, -⟩ := id hi
  refine inv_of_mem hi hparams hslots hrec ?_ ?_ <;> rw [hmem]
  · exact eraseRanges_wf hwf rs
  · exact Memory.fits_eraseRanges hfits rs

/-- A step that changes one slot only, to an invalid or a well-built one. -/
theorem inv_of_slot (hmem : t.mem = s.mem) (hrec : t.modelFaults = s.modelFaults) {k : Nat} {c : Slot}
    (hslots : t.slots = s.slots.set k c) (hc : c.valid = true → c.wellBuilt s.params) : t.Inv := by
  obtain ⟨hp, hwf, hfits, hlen, hbuilt, hnodup⟩ := hi
  unfold State.Inv
  rw [hparams, hslots, hrec, hmem, List.length_set]
  refine ⟨hp, hwf, hfits, hlen, fun x hx => ?_, hnodup⟩
  rcases List.mem_or_eq_of_mem_set hx with hx | rfl
  · exact hbuilt x hx
  · exact hc

/-- A step that adds to the model-fault record only. -/
theorem inv_of_record (hslots : t.slots = s.slots) (hmem : t.mem = s.mem) (hnodup : t.modelFaults.Nodup) : t.Inv := by
  obtain ⟨hp, hwf, hfits, hlen, hbuilt, -⟩ := hi
  unfold State.Inv
  rw [hparams, hslots, hmem]
  exact ⟨hp, hwf, hfits, hlen, hbuilt, hnodup⟩

end

/-! ## Commands keep the invariant -/

/-- RING_INIT ending with RESOURCE leaves its slot invalid; every other command leaves the slots. -/
theorem failResource_inv {s : State} (hi : s.Inv) (i : Instr) : (s.failResource i).Inv := by
  rcases failResource_cases s i with ⟨-, h⟩ | ⟨hinit, h⟩ <;> rw [h]
  · exact inv_of_erased hi rfl rfl rfl rfl
  · have hmem : eraseRanges s.mem (destsOf i s) = s.mem := by rw [destsOf, hinit]; rfl
    exact inv_of_slot hi rfl hmem rfl rfl nofun

/-- The modulus RING_INIT reads fills its LENA limbs, so the slot it builds is R41's. -/
theorem builtSlot_of_passes {ctx sel : Nat} {s : State} {st : Strategy} {vs : List Nat} (hi : s.Inv)
    (hpass : PassesChecks (.ringInit ctx sel) s)
    (hvs : s.readRanges (sourcesOf (.ringInit ctx sel) s) = some vs)
    (hlo : 2 ^ (s.w * (s.lenA - 1)) ≤ vs.getD 0 0) (h2 : 2 ≤ vs.getD 0 0)
    (hodd : st = .montgomery → vs.getD 0 0 % 2 = 1) :
    (builtSlot s.w st s.lenA (vs.getD 0 0)).wellBuilt s.params := by
  obtain ⟨-, -, hlen, -⟩ := hpass
  have hlenA : s.LenOk s.lenA := by simpa [lengthsOk, formatOf, Format.lengthsOk, lenIn] using hlen
  have hread : s.readRange (s.atA s.lenA) = some (vs.getD 0 0) := State.readRange_of_readRanges hvs
  exact builtSlot_wellBuilt hlenA h2 hlo (State.readRange_lt hi hread) hodd

theorem exec_keeps_inv {i : Instr} {s t : State} (hi : s.Inv) (h : exec i s = .next t) : t.Inv := by
  obtain ⟨-, hwf, hfits, -, -, hnodup⟩ := id hi
  cases exec_ending h
  case aborted => exact hi
  case param => exact hi
  case fault => exact inv_of_record hi (by simp) (by simp) (by simp) (State.recordFault_nodup hnodup _)
  case resource => exact failResource_inv hi i
  case noInverse => exact inv_of_erased hi rfl rfl rfl rfl
  case invariant => exact inv_of_erased hi rfl rfl rfl rfl
  case stored r ws hpass _ =>
    obtain ⟨-, -, -, hranges, -⟩ := hpass
    exact inv_of_mem hi rfl rfl rfl (writeRanges_wf _ hwf _ _)
      (Memory.fits_writeRanges hfits (dests_legal_of_rangesOk hranges) ws)
  case built ctx sel st vs hinit hpass hvs hlo h2 hodd =>
    subst hinit
    exact inv_of_slot hi rfl rfl rfl rfl fun _ => builtSlot_of_passes hi hpass hvs hlo h2 hodd

/-! ## The host and the reset input keep the invariant -/

theorem hostAccess_keeps_inv {s : State} (hi : s.Inv) (a : HostAction) : (s.hostAccess a).Inv := by
  obtain ⟨-, hwf, hfits, -, -, hnodup⟩ := id hi
  rcases s.hostAccess_cases a with ⟨v, -, -, h⟩ | ⟨d, e, done, -, h⟩ | ⟨r, n, h⟩ | ⟨b, v, -, hb, -, h⟩ | ⟨ks, -, h⟩ <;>
    rw [h]
  · exact hi
  · exact hi
  · exact hi
  · exact inv_of_mem hi rfl rfl rfl (Memory.write_wf hwf b _)
      (Memory.fits_write hfits hb (Nat.mod_lt _ (Nat.two_pow_pos _)))
  · obtain ⟨fs, hfs, -, -, hkeep⟩ := State.foldl_recordFault ks s
    rw [hfs]
    exact inv_of_record hi rfl rfl rfl (hkeep hnodup)

theorem resetBlock_keeps_inv {s : State} (hi : s.Inv) : s.resetBlock.Inv := by
  obtain ⟨hp, -, -, -, -, hnodup⟩ := hi
  exact inv_of_record (resetWith_inv hp) rfl rfl rfl hnodup

/-- Settles O36: the reset input, the engine and the host each keep it, from any state that meets it. -/
theorem stepKeepsTheInvariant : Obligations.StepKeepsTheInvariant := by
  intro s t hi h
  have hturns : ∀ rest, State.Inv { s with turns := rest } := fun _ => hi
  rcases step_cases h with ⟨rest, -, rfl⟩ |
    ⟨-, rest, -, ⟨-, rfl⟩ | ⟨l, i, -, -, hexec⟩ | ⟨l, e, -, -, rfl⟩⟩ | ⟨-, rest, a, -, rfl⟩
  · exact resetBlock_keeps_inv (hturns rest)
  · exact hturns rest
  · exact exec_keeps_inv (hturns rest) hexec
  · exact hturns rest
  · exact hostAccess_keeps_inv (hturns rest) a

end Sys2Proof.Machine
end

section
/-!
PROOFS. The engine's turn, and what commands leave unchanged (10_state.md R40; 20_memory.md R85, R94; 30_encoding.md
R130; 60_exceptions.md R405, R406, R421).
-/

namespace Sys2Proof.Machine

/-! ## The engine's turn -/

/-- With no turn left the engine moves (log 5). -/
theorem step_of_no_turn {s : State} (hm : s.modelFaults = []) (ht : s.turns = []) : step s = engineTurn s := by
  simp [step, nextTurn, ht, agentTurn, hm]

theorem engineTurn_of_latch {s : State} {l : Latch} (hl : s.latch = some l) : engineTurn s = performWord s l.cmd := by
  simp [engineTurn, State.pendingCommand, hl]

/-- Settles O5: in either case the engine performs the latched word, which is its command. -/
theorem stepRunsTheLatchedCommand : Obligations.StepRunsTheLatchedCommand := by
  intro s l i hm hl hd
  refine ⟨fun rest ht => ?_, fun ht => ?_⟩
  · rw [step_of_latch hm hl ht, performWord_of_ok _ hd]
  · rw [step_of_no_turn hm ht, engineTurn_of_latch hl, performWord_of_ok _ hd]

theorem State.busy_eq_false_iff (s : State) : s.busy = false ↔ s.latch = none := by
  simp [State.busy]

theorem engineTurn_of_idle {s : State} (h : s.busy = false) : engineTurn s = .next s := by
  simp [engineTurn, State.pendingCommand, (s.busy_eq_false_iff).mp h]

theorem step_of_engine {s : State} (hm : s.modelFaults = []) {rest : List Turn} (ht : s.turns = .engine :: rest) :
    step s = engineTurn { s with turns := rest } := by
  simp [step, nextTurn, ht, agentTurn, hm]

/-- Settles O8: an idle engine's turn is the identity, and only a CMD write fills the latch. -/
theorem idleBlockRetainsItsState : Obligations.IdleBlockRetainsItsState := by
  intro s hm hb
  refine ⟨fun ht => ?_, fun rest ht => ?_, fun a ha => ?_⟩
  · rw [step_of_no_turn hm ht, engineTurn_of_idle hb]
  · rw [step_of_engine hm ht, engineTurn_of_idle (s := { s with turns := rest }) hb]
  · rw [State.busy_eq_false_iff, s.hostAccess_latch ha]
    exact (s.busy_eq_false_iff).mp hb

/-! ## RESOURCE, the other fields -/

section
variable (s : State) (i : Instr)

@[simp] theorem State.failResource_params : (s.failResource i).params = s.params := by
  rcases failResource_cases s i with ⟨-, h⟩ | ⟨-, h⟩ <;> simp [h]

@[simp] theorem State.failResource_faulted : (s.failResource i).faulted = s.faulted := by
  rcases failResource_cases s i with ⟨-, h⟩ | ⟨-, h⟩ <;> simp [h]

@[simp] theorem State.failResource_result : (s.failResource i).result = 0 := by
  rcases failResource_cases s i with ⟨-, h⟩ | ⟨-, h⟩ <;> simp [h]

@[simp] theorem State.failResource_cmd : (s.failResource i).cmd = s.cmd := by
  rcases failResource_cases s i with ⟨-, h⟩ | ⟨-, h⟩ <;> simp [h]

@[simp] theorem State.failResource_desc : (s.failResource i).desc = s.desc := by
  rcases failResource_cases s i with ⟨-, h⟩ | ⟨-, h⟩ <;> simp [h]

@[simp] theorem State.failResource_modelFaults : (s.failResource i).modelFaults = s.modelFaults := by
  rcases failResource_cases s i with ⟨-, h⟩ | ⟨-, h⟩ <;> simp [h]

@[simp] theorem State.failResource_turns : (s.failResource i).turns = s.turns := by
  rcases failResource_cases s i with ⟨-, h⟩ | ⟨-, h⟩ <;> simp [h]

@[simp] theorem State.failResource_hostReads : (s.failResource i).hostReads = s.hostReads := by
  rcases failResource_cases s i with ⟨-, h⟩ | ⟨-, h⟩ <;> simp [h]

@[simp] theorem State.failResource_draws : (s.failResource i).draws = s.draws := by
  rcases failResource_cases s i with ⟨-, h⟩ | ⟨-, h⟩ <;> simp [h]

end

/-! ## Completion or model fault -/

section
variable {i : Instr} {s t : State}

/-- A command completes with RESULT 0 unless OK, or records one model fault (R405, R406). -/
theorem Ending.completes_or_faults (h : Ending i s t) :
    (t.busy = false ∧ t.done = true ∧ t.modelFaults = s.modelFaults ∧ (t.err ≠ .ok → t.result = 0#32)) ∨
      ∃ k ∈ [ModelFault.uninit, .aliasing, .selector], t = s.recordFault k := by
  cases h
  case fault k hk => exact .inr ⟨k, hk, rfl⟩
  all_goals exact .inl (by simp [State.busy])

/-! ## Frames -/

/-- No command touches the configuration, CMD, the live descriptors, IRQCTL or the model's own fields. -/
theorem Ending.sameOutside (h : Ending i s t) : SameOutside s t := by
  cases h <;> simp [SameOutside]

/-- A command writes, or makes uninitialised, no word outside its destinations (20_memory.md R85). -/
theorem Ending.read_outside (h : Ending i s t) {a : Nat} (ha : Outside (destsOf i s) a) :
    t.mem.read a = s.mem.read a := by
  have herased : (eraseRanges s.mem (destsOf i s)).read a = s.mem.read a := by
    rw [read_eraseRanges_eq_ite, if_neg]
    rintro ⟨r, hr, hlo, hhi⟩
    have := ha r hr
    omega
  cases h
  case resource => rw [State.failResource_mem, herased]
  case noInverse => exact herased
  case invariant => exact herased
  case stored r ws _ _ => exact read_writeRanges_outside s.w s.mem ws ha
  case fault => rw [State.recordFault_mem]
  all_goals rfl

/-- Only RING_INIT writes a slot. -/
theorem Ending.slots_eq (h : Ending i s t) (hi : formatOf i ≠ .init) : t.slots = s.slots := by
  cases h
  case fault => exact s.recordFault_slots _
  case resource => exact s.failResource_slots i hi
  case built ctx sel _ _ hinit _ _ _ _ _ => exact absurd (hinit ▸ rfl) hi
  all_goals rfl

/-- FAULTED is set by INVARIANT alone, which a command with a REDC alone can raise (60_exceptions.md R408). -/
theorem Ending.faulted_eq (h : Ending i s t) : t.faulted = s.faulted ∨
    (t.err = .invariant ∧ ((∃ ctx sel, i = .rreduce ctx sel) ∨ formatOf i = .r1 ∨ formatOf i = .r2)) := by
  cases h
  case invariant hredc => exact .inr ⟨rfl, hredc⟩
  all_goals exact .inl (by simp)

theorem Ending.faulted_eq_of_no_redc (h : Ending i s t) (hi : formatOf i ∈ [.n2r, .n1r, .r1r, .init]) :
    t.faulted = s.faulted := by
  rcases h.faulted_eq with hf | ⟨-, ⟨ctx, sel, rfl⟩ | hf | hf⟩
  · exact hf
  · simp [formatOf] at hi
  · simp [hf] at hi
  · simp [hf] at hi

/-- The formats without a destination in memory (30_encoding.md R112). -/
theorem destsOf_eq_nil (hi : formatOf i ∈ [.n2r, .n1r, .r1r, .init]) : destsOf i s = [] := by
  have hf : formatOf i = .n2r ∨ formatOf i = .n1r ∨ formatOf i = .r1r ∨ formatOf i = .init := by simpa using hi
  rcases hf with h | h | h | h <;> simp [destsOf, h, Format.dests]

theorem Ending.read_eq_of_no_dests (h : Ending i s t) (hi : formatOf i ∈ [.n2r, .n1r, .r1r, .init]) (a : Nat) :
    t.mem.read a = s.mem.read a :=
  h.read_outside (by rw [destsOf_eq_nil hi]; exact fun r hr => absurd hr List.not_mem_nil)

/-- RING_INIT leaves the slots, or sets its own. -/
theorem Ending.slots_ringInit {ctx sel : Nat} (h : Ending (.ringInit ctx sel) s t) :
    t.slots = s.slots ∨ ∃ c, t.slots = s.slots.set ctx c := by
  cases h
  case fault => exact .inl (s.recordFault_slots _)
  case resource => exact .inr ⟨_, s.failResource_slots_ringInit ctx sel⟩
  case built ctx' sel' st vs hinit _ _ _ _ _ =>
    obtain ⟨rfl, -⟩ := Instr.ringInit.inj hinit
    exact .inr ⟨_, rfl⟩
  all_goals exact .inl rfl

end

/-- Settles O16: exec always goes on, to one of the endings. -/
theorem everyCommandCompletesOrRecordsAFault : Obligations.EveryCommandCompletesOrRecordsAFault := by
  intro i s
  obtain ⟨t, ht⟩ := exec_next i s
  exact ⟨t, ht, (exec_ending ht).completes_or_faults⟩

/-- Settles O28: the six commands have no destination, no REDC and no slot to build. -/
theorem resultCommandsWriteNoMemory : Obligations.ResultCommandsWriteNoMemory := by
  intro i s t ctx sel hi h
  have hf : formatOf i ∈ [.n2r, .n1r, .r1r] := by
    have hcases : i = .cmp ctx sel ∨ i = .bittest ctx sel ∨ i = .iszero ctx sel ∨ i = .clz ctx sel ∨
        i = .ctz ctx sel ∨ i = .risone ctx sel := by simpa using hi
    rcases hcases with rfl | rfl | rfl | rfl | rfl | rfl <;> simp [formatOf]
  have hsubset : [.n2r, .n1r, .r1r] ⊆ [.n2r, .n1r, .r1r, Format.init] := by decide
  have hnone : formatOf i ∈ [.n2r, .n1r, .r1r, .init] := hsubset hf
  have hend := exec_ending h
  refine ⟨hend.read_eq_of_no_dests hnone, hend.slots_eq fun hinit => ?_, hend.faulted_eq_of_no_redc hnone,
    hend.sameOutside⟩
  simp [hinit] at hf

/-- Settles O29: none of the 35 commands is RING_INIT. -/
theorem storingCommandsWriteOnlyTheirDestinations : Obligations.StoringCommandsWriteOnlyTheirDestinations := by
  intro i s t ctx sel hi h
  have hinit : formatOf i ≠ .init := by
    intro hf
    obtain ⟨ctx', sel', rfl⟩ := (formatOf_eq_init_iff i).mp hf
    simp at hi
  have hend := exec_ending h
  exact ⟨fun a => hend.read_outside, hend.slots_eq hinit, hend.sameOutside, hend.faulted_eq.imp_right (·.1)⟩

/-- Settles O30: RING_INIT has no destination in memory and sets at most the slot CTX names. -/
theorem ringInitWritesOnlyItsSlot : Obligations.RingInitWritesOnlyItsSlot := by
  intro ctx sel s t h
  have hend := exec_ending h
  have hf : formatOf (.ringInit ctx sel) ∈ [.n2r, .n1r, .r1r, .init] := by simp [formatOf]
  have hslots : t.slots.length = s.slots.length ∧ ∀ c, c ≠ ctx → t.slots[c]? = s.slots[c]? := by
    rcases hend.slots_ringInit with hs | ⟨x, hs⟩ <;> rw [hs]
    · exact ⟨rfl, fun _ _ => rfl⟩
    · exact ⟨List.length_set, fun c hc => List.getElem?_set_ne hc.symm⟩
  exact ⟨hend.read_eq_of_no_dests hf, hslots.1, hslots.2, hend.faulted_eq_of_no_redc hf, hend.sameOutside⟩

/-! ## Slots over every step -/

/-- The host has no way to a slot. -/
@[simp] theorem State.hostAccess_slots (s : State) (a : HostAction) : (s.hostAccess a).slots = s.slots := by
  rcases s.hostAccess_cases a with ⟨v, -, -, h⟩ | ⟨d, e, done, -, h⟩ | ⟨r, n, h⟩ | ⟨b, v, -, -, -, h⟩ | ⟨ks, -, h⟩ <;>
    rw [h]
  · rfl
  · obtain ⟨fs, hfs, -⟩ := State.foldl_recordFault ks s
    rw [hfs]

/-- Settles O32: of the engine's commands only RING_INIT changes a slot. -/
theorem slotsChangeOnlyByRingInit : Obligations.SlotsChangeOnlyByRingInit := by
  intro s t h hne
  rcases step_cases h with ⟨rest, ht, -⟩ |
    ⟨-, rest, ht, ⟨-, rfl⟩ | ⟨l, i, hl, hd, hexec⟩ | ⟨l, e, -, -, rfl⟩⟩ | ⟨-, rest, a, -, rfl⟩
  · exact .inl ⟨rest, ht⟩
  · exact absurd rfl hne
  · by_cases hf : formatOf i = .init
    · obtain ⟨ctx, sel, rfl⟩ := (formatOf_eq_init_iff i).mp hf
      exact .inr ⟨rest, l, ctx, sel, ht, hl, hd, hexec⟩
    · exact absurd ((exec_ending hexec).slots_eq hf) hne
  · exact absurd rfl hne
  · exact absurd (State.hostAccess_slots _ a) hne

end Sys2Proof.Machine
end

section
/-!
PROOFS. The checks of the common execution procedure, each with the outcome it stands for (30_encoding.md R130, R131;
20_memory.md R83, R84; 70_reset_and_hazards.md R452).
-/

namespace Sys2Proof.Machine

/-! ## Steps 3 to 5: slot, lengths, ranges -/

section
variable {i : Instr} {s : State}

theorem slotOk_eq_false (hctx : (formatOf i).usesCtx = true)
    (h : s.params.ctxSlots ≤ ctxOf i ∨ (formatOf i ≠ .init ∧ (s.slot (ctxOf i)).valid = false)) :
    slotOk i s = false := by
  rcases h with h | ⟨hinit, hvalid⟩
  · simp [slotOk, hctx, Nat.not_lt.mpr h]
  · simp [slotOk, hctx, hinit, hvalid]

/-- The formats that limit LENA to 1..N_MAX (R112). -/
theorem lenA_of_lengthsOk
    (hf : formatOf i ∈ [.n2r, .n2, .mul, .sqr, .n1, .n1r, .rcp, .div, .init, .swp, .shc, .mx2, .mx4])
    (h : lengthsOk i s = true) : s.LenOk s.lenA := by
  unfold lengthsOk at h
  cases hi : formatOf i <;> simp_all [Format.lengthsOk, lenIn, State.LenOk]

/-- The formats that limit LENB to 1..N_MAX (R112). -/
theorem lenB_of_lengthsOk (hf : formatOf i ∈ [.mul, .div, .exp]) (h : lengthsOk i s = true) : s.LenOk s.lenB := by
  unfold lengthsOk at h
  cases hi : formatOf i <;> simp_all [Format.lengthsOk, lenIn, State.LenOk]

theorem limbCount_of_usesCtx (hctx : (formatOf i).usesCtx = true) (hinit : formatOf i ≠ .init) :
    limbCount i s = (s.slot (ctxOf i)).n := by
  simp [limbCount, hctx, hinit]

/-- A wide operand has one to 2n limbs (R112). -/
theorem lengthsOk_of_rw (hf : formatOf i = .rw) :
    lengthsOk i s = true ↔ 1 ≤ s.lenA ∧ s.lenA ≤ 2 * (s.slot (ctxOf i)).n := by
  rw [lengthsOk, limbCount_of_usesCtx (by rw [hf]; rfl) (by simp [hf]), hf]
  simp [Format.lengthsOk, lenIn]

/-- The fields above 7 do not exist (43_ring.md R271). -/
theorem ctxFieldLen_eq_none {n f : Nat} (h : 7 < f) : ctxFieldLen n f = none := by
  unfold ctxFieldLen
  split
  case h_9 => rfl
  all_goals omega

theorem lengthsOk_of_crd (hf : formatOf i = .crd) (h : 7 < s.imm) : lengthsOk i s = false := by
  simp [lengthsOk, hf, Format.lengthsOk, ctxFieldLen_eq_none h]

theorem rangesOk_iff : rangesOk i s = true ↔ ∀ r ∈ sourcesOf i s ++ destsOf i s, r.InMemory s := by
  simp only [rangesOk, Bool.and_eq_true, List.all_eq_true, Range.legal_iff, List.forall_mem_append]

end

/-- Settles O22: each clause fails one of the checks of steps 3 to 5. -/
theorem structuralChecksEndInParam : Obligations.StructuralChecksEndInParam := by
  intro i s hf h
  obtain ⟨body, hperforms, -⟩ := exec_performs i
  have hfails : slotOk i s = false ∨ lengthsOk i s = false ∨ rangesOk i s = false := by
    rcases h with ⟨hfmt, hslot⟩ | ⟨hfmt, hlen⟩ | ⟨hfmt, hlen⟩ | ⟨hfmt, hlen⟩ | ⟨hfmt, himm⟩ | ⟨r, hr, hout⟩
    · have huses : ∀ f ∈ [Format.init, .crd, .r1, .r1r, .r2, .rw, .exp], f.usesCtx = true := by decide
      exact .inl (slotOk_eq_false (huses _ hfmt) hslot)
    · exact .inr (.inl (Bool.eq_false_iff.mpr fun hok => hlen (lenA_of_lengthsOk hfmt hok)))
    · exact .inr (.inl (Bool.eq_false_iff.mpr fun hok => hlen (lenB_of_lengthsOk hfmt hok)))
    · exact .inr (.inl (Bool.eq_false_iff.mpr fun hok => hlen ((lengthsOk_of_rw hfmt).mp hok)))
    · exact .inr (.inl (lengthsOk_of_crd hfmt himm))
    · exact .inr (.inr (Bool.eq_false_iff.mpr fun hok => hout (rangesOk_iff.mp hok r hr)))
  rw [hperforms, performed_of_structural hf hfails]

/-! ## Step 6: the overlap rule (R131) -/

/-- The overlaps R131 forbids: for MUL and SQR any of the destination with a source; for the others a partial one; for
DIVMOD one of the destinations with each other. -/
def ForbiddenOverlap (i : Instr) (s : State) : Prop :=
  (formatOf i ∈ [.mul, .sqr] ∧ ∃ d ∈ destsOf i s, ∃ r ∈ sourcesOf i s, ¬d.Apart r) ∨
  (formatOf i ∉ [.mul, .sqr] ∧ ∃ d ∈ destsOf i s, ∃ r ∈ sourcesOf i s, d ≠ r ∧ ¬d.Apart r) ∨
  (formatOf i = .div ∧ ¬(s.atDst0 s.lenA).Apart (s.atDst1 s.lenB))

section
variable {i : Instr} {s : State}

theorem destAgainstSources_strict {f : Format} (hf : f ∈ [.mul, .sqr]) (d : Range) (srcs : List Range) :
    f.destAgainstSources d srcs = true ↔ ∀ r ∈ srcs, d.Apart r := by
  have hcases : f = .mul ∨ f = .sqr := by simpa using hf
  rcases hcases with rfl | rfl <;>
    simp only [Format.destAgainstSources, List.all_eq_true, Bool.not_eq_true', Range.overlaps_eq_false]

theorem destAgainstSources_lax {f : Format} (hf : f ∉ [.mul, .sqr]) (d : Range) (srcs : List Range) :
    f.destAgainstSources d srcs = true ↔ ∀ r ∈ srcs, d = r ∨ d.Apart r := by
  have hlax : f.destAgainstSources d srcs = srcs.all fun src => d.apartOrSame src := by
    cases f <;> simp_all [Format.destAgainstSources]
  simp only [hlax, List.all_eq_true, Range.apartOrSame_iff]

/-- DIVMOD's destinations may not overlap. SWP's are its sources too, so the rule on a destination and a source covers
them; no other format has two. -/
theorem destsApart_iff (hlax : formatOf i = .swp → ∀ d ∈ destsOf i s, ∀ r ∈ sourcesOf i s, d = r ∨ d.Apart r) :
    (formatOf i).destsApart (destsOf i s) = true ↔ (formatOf i = .div → (s.atDst0 s.lenA).Apart (s.atDst1 s.lenB)) := by
  cases hf : formatOf i
  case div => simp [destsOf, hf, Format.dests, Format.destsApart, Range.overlaps_eq_false]
  case swp =>
    have h := hlax hf (s.atA s.lenA) (by simp [destsOf, hf, Format.dests]) (s.atB s.lenA)
      (by simp [sourcesOf, hf, Format.sources])
    simpa [destsOf, hf, Format.dests, Format.destsApart, Range.apartOrSame_iff] using h
  all_goals simp [destsOf, hf, Format.dests, Format.destsApart]

theorem aliasOk_iff : aliasOk i s = true ↔ ¬ForbiddenOverlap i s := by
  rw [aliasOk, Format.aliasFree, Bool.and_eq_true, List.all_eq_true]
  unfold ForbiddenOverlap
  by_cases hf : formatOf i ∈ [.mul, .sqr]
  · have hne : formatOf i ≠ .swp ∧ formatOf i ≠ .div := by constructor <;> intro h <;> simp [h] at hf
    simp only [destAgainstSources_strict hf, destsApart_iff fun h => absurd h hne.1, hf, hne.2, true_and, false_and,
      not_true_eq_false, or_false, false_imp_iff, and_true, not_exists, not_and, not_not]
  · simp only [destAgainstSources_lax hf]
    constructor
    · rintro ⟨hdst, hapart⟩
      have hdiv := (destsApart_iff fun _ => hdst).mp hapart
      rintro (⟨hmem, -⟩ | ⟨-, d, hd, r, hr, hne, hover⟩ | ⟨hi, hover⟩)
      · exact hf hmem
      · exact (hdst d hd r hr).elim hne hover
      · exact hover (hdiv hi)
    · intro h
      have hdst : ∀ d ∈ destsOf i s, ∀ r ∈ sourcesOf i s, d = r ∨ d.Apart r := by
        intro d hd r hr
        by_contra hbad
        exact h (.inr (.inl ⟨hf, d, hd, r, hr, fun he => hbad (.inl he), fun ha => hbad (.inr ha)⟩))
      refine ⟨hdst, (destsApart_iff fun _ => hdst).mpr fun hi => ?_⟩
      by_contra hover
      exact h (.inr (.inr ⟨hi, hover⟩))

theorem performed_of_overlap (hf : s.faulted = false) (hslot : slotOk i s = true) (hlen : lengthsOk i s = true)
    (hranges : rangesOk i s = true) (halias : aliasOk i s = false) (body : Operands → Effect) :
    performed i s body = s.recordFault .aliasing := by
  simp [performed, hf, hslot, hlen, hranges, halias]

@[simp] theorem conclude_modelFaults (s : State) (i : Instr) (e : Effect) :
    (s.conclude i e).modelFaults = s.modelFaults := by
  cases e <;> cases h : scratchOk i s <;> simp [State.conclude, h]

@[simp] theorem conclude_latch (s : State) (i : Instr) (e : Effect) : (s.conclude i e).latch = none := by
  cases e <;> cases h : scratchOk i s <;> simp [State.conclude, h]

/-- ALIAS is step 6's record alone. -/
theorem performed_not_aliasing (halias : aliasOk i s = true) (hrec : .aliasing ∉ s.modelFaults)
    (body : Operands → Effect) : .aliasing ∉ (performed i s body).modelFaults := by
  rcases performed_cases i s body with ⟨-, h⟩ | ⟨-, -, h⟩ | ⟨-, -, -, -, hbad, -⟩ | ⟨-, -, -, -, -, -, h⟩ |
    ⟨-, -, h⟩ | ⟨-, vs, -, h⟩
  · simpa [h] using hrec
  · simpa [h] using hrec
  · rw [halias] at hbad; cases hbad
  · simpa [h, State.mem_recordFault] using hrec
  · simpa [h, State.mem_recordFault] using hrec
  · simpa [h] using hrec

end

/-- Settles O23: step 6 fails exactly on the forbidden overlaps, and no later step records ALIAS. -/
theorem forbiddenOverlapsAreAliasFaults : Obligations.ForbiddenOverlapsAreAliasFaults := by
  intro i s hf hslot hlen hranges forbidden
  obtain ⟨body, hperforms, -⟩ := exec_performs i
  rw [hperforms]
  refine ⟨fun hbad => ?_, fun hgood hrec heq => ?_⟩
  · have halias : aliasOk i s = false := Bool.eq_false_iff.mpr fun hok => aliasOk_iff.mp hok hbad
    rw [performed_of_overlap hf hslot hlen hranges halias]
  · have hnot := performed_not_aliasing (aliasOk_iff.mpr hgood) hrec body
    rw [Host.Outcome.next.inj heq, State.mem_recordFault] at hnot
    exact hnot (.inr rfl)

/-! ## Steps 7 and 8: selector and sources -/

theorem selectorOk_eq_false {i : Instr} (h : hasOneBitSelector i = true) (hsel : 2 ≤ selOf i) :
    selectorOk i = false := by
  simp only [selectorOk, h, Bool.not_true, Bool.false_or]
  exact decide_eq_false (by omega)

theorem performed_of_bad_selector {i : Instr} {s : State} (hf : s.faulted = false) (hslot : slotOk i s = true)
    (hlen : lengthsOk i s = true) (hranges : rangesOk i s = true) (halias : aliasOk i s = true)
    (hsel : selectorOk i = false) (body : Operands → Effect) : performed i s body = s.recordFault .selector := by
  simp [performed, hf, hslot, hlen, hranges, halias, hsel]

/-- Settles O24: SEL 2 and 3 fail step 7 on the commands of R113. -/
theorem badSelectorsAreSelectorFaults : Obligations.BadSelectorsAreSelectorFaults := by
  intro ctx sel s i hsel hi hf hslot hlen hranges halias
  obtain ⟨body, hperforms, -⟩ := exec_performs i
  have hbad : selectorOk i = false := by
    have hcases : i = .bitset ctx sel ∨ i = .ctSel ctx sel ∨ i = .cswap ctx sel ∨ i = .cneg ctx sel ∨
        i = .cshr ctx sel ∨ i = .mux2 ctx sel := by simpa using hi
    have hwide : 2 ≤ sel := by omega
    rcases hcases with rfl | rfl | rfl | rfl | rfl | rfl <;> exact selectorOk_eq_false rfl hwide
  rw [hperforms, performed_of_bad_selector hf hslot hlen hranges halias hbad]

/-- Settles O25: step 8 reads every word of every source range. -/
theorem uninitialisedSourcesAreUninitFaults : Obligations.UninitialisedSourcesAreUninitFaults := by
  intro i s r a hf hslot hlen hranges halias hsel hr hlo hhi hnone
  obtain ⟨body, hperforms, -⟩ := exec_performs i
  have hread : s.readRanges (sourcesOf i s) = none :=
    State.readRanges_eq_none.mpr ⟨r, hr, a, (r.covers_iff a).mpr ⟨hlo, hhi⟩, hnone⟩
  rw [hperforms, performed_of_readRanges_none ⟨hf, hslot, hlen, hranges, halias, hsel⟩ hread]

/-! ## ADD through every step -/

section
variable {ctx sel : Nat} {s : State}

theorem lengthsOk_add : lengthsOk (.add ctx sel) s = true ↔ s.LenOk s.lenA := by
  simp [lengthsOk, formatOf, Format.lengthsOk, lenIn]

theorem rangesOk_add : rangesOk (.add ctx sel) s = true ↔
    (s.atA s.lenA).InMemory s ∧ (s.atB s.lenA).InMemory s ∧ (s.atDst0 s.lenA).InMemory s := by
  simp [rangesOk_iff, sourcesOf, destsOf, formatOf, Format.sources, Format.dests]

theorem aliasOk_add : aliasOk (.add ctx sel) s = true ↔
    (s.atDst0 s.lenA = s.atA s.lenA ∨ (s.atDst0 s.lenA).Apart (s.atA s.lenA)) ∧
      (s.atDst0 s.lenA = s.atB s.lenA ∨ (s.atDst0 s.lenA).Apart (s.atB s.lenA)) := by
  rw [← Range.apartOrSame_iff, ← Range.apartOrSame_iff]
  simp [aliasOk, Format.aliasFree, Format.destAgainstSources, Format.destsApart, sourcesOf, destsOf, formatOf,
    Format.sources, Format.dests]

/-- The end of ADD once its operands are read: the sum, or RESOURCE. -/
theorem conclude_add (a b : Nat) :
    s.conclude (.add ctx sel) (.write (carryOut (s.w * s.lenA) a b) [(a + b) % 2 ^ (s.w * s.lenA)]) =
      if scratchOk (.add ctx sel) s = true then
        s.okWith (BitVec.ofNat 32 ((a + b) / 2 ^ (s.w * s.lenA)))
          (s.put (s.atDst0 s.lenA) ((a + b) % 2 ^ (s.w * s.lenA)))
      else s.spoiledWith .resource [s.atDst0 s.lenA] := by
  by_cases hs : scratchOk (.add ctx sel) s = true
  · simp only [State.conclude, hs, if_true]
    rfl
  · simp only [State.conclude, hs]
    rcases failResource_cases s (.add ctx sel) with ⟨-, h⟩ | ⟨hinit, -⟩
    · exact h
    · cases hinit

end

/-- Settles O27: ADD's own conditions are the checks of R130, in their order. -/
theorem addFollowsTheCommonProcedure : Obligations.AddFollowsTheCommonProcedure := by
  intro ctx sel s A B D
  have hexec : exec (.add ctx sel) s = .next (performed (.add ctx sel) s
      fun o => .write (carryOut o.bits o.a o.b) [(o.a + o.b) % 2 ^ o.bits]) := rfl
  rw [hexec]
  congr 1
  split
  case isTrue hf => exact performed_of_faulted _ hf _
  case isFalse hf =>
    have hf : s.faulted = false := Bool.eq_false_iff.mpr hf
    split
    case isTrue hbad =>
      refine performed_of_structural hf (.inr ?_) _
      rw [← Bool.not_eq_true, ← Bool.not_eq_true, lengthsOk_add, rangesOk_add]
      tauto
    case isFalse hok =>
      have hlen : lengthsOk (.add ctx sel) s = true := lengthsOk_add.mpr (by tauto)
      have hranges : rangesOk (.add ctx sel) s = true := rangesOk_add.mpr (by tauto)
      split
      case isTrue hover =>
        refine performed_of_overlap hf rfl hlen hranges ?_ _
        rw [← Bool.not_eq_true, aliasOk_add]
        tauto
      case isFalse hapart =>
        have hpass : PassesChecks (.add ctx sel) s :=
          ⟨hf, rfl, hlen, hranges, aliasOk_add.mpr (by tauto), rfl⟩
        have hsrcs : sourcesOf (.add ctx sel) s = [A, B] := rfl
        split
        case h_1 a b ha hb =>
          have hread : s.readRanges (sourcesOf (.add ctx sel) s) = some [a, b] := by
            simp [hsrcs, State.readRanges, ha, hb]
          rw [performed_of_passes hpass hread]
          exact conclude_add a b
        case h_2 hnone =>
          refine performed_of_readRanges_none hpass ?_ _
          rw [hsrcs]
          cases ha : s.readRange A with
          | none => simp [State.readRanges, ha]
          | some a =>
            cases hb : s.readRange B with
            | none => simp [State.readRanges, ha, hb]
            | some b => exact absurd hb (hnone a b ha)

end Sys2Proof.Machine
end

section
/-!
PROOFS. What a command's outcome does not depend on: the live descriptors while one is latched, words that are no
source, and, for a conditional primitive, the values and the selector (10_state.md R45; 20_memory.md R85; 45_constant_time.md
R360).
-/

namespace Sys2Proof.Machine

/-! ## Two commands that meet the same checks -/

/-- Commands i in s and i' in s' look the same to the checks of 30_encoding.md R130: same opcode and slot number, same
configuration, slots, snapshot and FAULTED. Memory and SEL may differ. -/
structure SameView (i i' : Instr) (s s' : State) : Prop where
  format : formatOf i' = formatOf i
  ctx : ctxOf i' = ctxOf i
  opcode : opcodeOf i' = opcodeOf i
  params : s'.params = s.params
  slots : s'.slots = s.slots
  desc : s'.operandDesc = s.operandDesc
  faulted : s'.faulted = s.faulted

namespace SameView
variable {i i' : Instr} {s s' : State} (h : SameView i i' s s')
include h

theorem slot (c : Nat) : s'.slot c = s.slot c := by rw [State.slot, State.slot, h.slots]

theorem limbCount : limbCount i' s' = limbCount i s := by
  simp only [Machine.limbCount, h.format, h.ctx, h.slot]

theorem sourcesOf : sourcesOf i' s' = sourcesOf i s := by
  simp only [Machine.sourcesOf, h.format, h.desc, h.limbCount]

theorem destsOf : destsOf i' s' = destsOf i s := by
  simp only [Machine.destsOf, h.format, h.desc, h.limbCount]

theorem slotOk : slotOk i' s' = slotOk i s := by
  simp only [Machine.slotOk, h.format, h.ctx, h.params, h.slot]

theorem lengthsOk : lengthsOk i' s' = lengthsOk i s := by
  simp only [Machine.lengthsOk, h.format, h.params, h.desc, h.limbCount]

theorem rangesOk : rangesOk i' s' = rangesOk i s := by
  simp only [Machine.rangesOk, h.params, h.sourcesOf, h.destsOf]

theorem aliasOk : aliasOk i' s' = aliasOk i s := by
  simp only [Machine.aliasOk, h.format, h.sourcesOf, h.destsOf]

theorem scratchOk : scratchOk i' s' = scratchOk i s := by
  simp only [Machine.scratchOk, scratchQuery, h.format, h.opcode, h.params, h.desc, h.limbCount]

theorem passesChecks (hsel : selectorOk i' = selectorOk i) (hpass : PassesChecks i s) : PassesChecks i' s' := by
  obtain ⟨hf, hslot, hlen, hranges, halias, hs⟩ := hpass
  exact ⟨h.faulted.trans hf, h.slotOk.trans hslot, h.lengthsOk.trans hlen, h.rangesOk.trans hranges,
    h.aliasOk.trans halias, hsel.trans hs⟩

/-- The two commands end in the same branch of R130, so their outcomes are related as each branch relates them. -/
theorem performed_rel {R : State → State → Prop} {body body' : Operands → Effect} (hsel : selectorOk i' = selectorOk i)
    (hread : s'.readRanges (Machine.sourcesOf i s) = none ↔ s.readRanges (Machine.sourcesOf i s) = none)
    (hended : ∀ code, code ≠ .ok → R (s.endedWith code) (s'.endedWith code))
    (hfault : ∀ k, R (s.recordFault k) (s'.recordFault k))
    (hbody : ∀ vs vs', s.readRanges (Machine.sourcesOf i s) = some vs →
      s'.readRanges (Machine.sourcesOf i s) = some vs' →
      R (s.conclude i (body (operandsOf i s vs))) (s'.conclude i' (body' (operandsOf i' s' vs')))) :
    R (performed i s body) (performed i' s' body') := by
  rcases performed_cases i s body with ⟨hf, he⟩ | ⟨hf, hbad, he⟩ | ⟨hf, hslot, hlen, hranges, halias, he⟩ |
    ⟨hf, hslot, hlen, hranges, halias, hs, he⟩ | ⟨hpass, hnone, he⟩ | ⟨hpass, vs, hvs, he⟩ <;> rw [he]
  · rw [performed_of_faulted i' (h.faulted.trans hf)]
    exact hended _ (by decide)
  · rw [← h.slotOk, ← h.lengthsOk, ← h.rangesOk] at hbad
    rw [performed_of_structural (h.faulted.trans hf) hbad]
    exact hended _ (by decide)
  · rw [performed_of_overlap (h.faulted.trans hf) (h.slotOk.trans hslot) (h.lengthsOk.trans hlen)
      (h.rangesOk.trans hranges) (h.aliasOk.trans halias)]
    exact hfault _
  · rw [performed_of_bad_selector (h.faulted.trans hf) (h.slotOk.trans hslot) (h.lengthsOk.trans hlen)
      (h.rangesOk.trans hranges) (h.aliasOk.trans halias) (hsel.trans hs)]
    exact hfault _
  · have hpass' := h.passesChecks hsel hpass
    rw [performed_of_readRanges_none hpass' (h.sourcesOf ▸ hread.mpr hnone)]
    exact hfault _
  · have hpass' := h.passesChecks hsel hpass
    obtain ⟨vs', hvs'⟩ : ∃ vs', s'.readRanges (Machine.sourcesOf i s) = some vs' :=
      Option.ne_none_iff_exists'.mp fun hn => by simp [hread.mp hn] at hvs
    rw [performed_of_passes hpass' (h.sourcesOf ▸ hvs')]
    exact hbody vs vs' hvs hvs'

end SameView

/-! ## The live descriptors -/

/-- The same block with other live descriptor registers. -/
def State.withDesc (s : State) (d : Descriptors) : State := { s with desc := d }

section
variable {s : State} {i : Instr}

/-- While a command is latched its descriptors are the snapshot's (10_state.md R45). -/
theorem sameView_withDesc (hbusy : s.busy = true) (i : Instr) (d : Descriptors) : SameView i i s (s.withDesc d) := by
  obtain ⟨l, hl⟩ := s.busy_iff.mp hbusy
  refine ⟨rfl, rfl, rfl, rfl, rfl, ?_, rfl⟩
  simp [State.operandDesc, State.withDesc, hl]

theorem State.recordFault_withDesc (s : State) (d : Descriptors) (k : ModelFault) :
    (s.withDesc d).recordFault k = (s.recordFault k).withDesc d := by
  unfold State.recordFault State.withDesc
  split <;> rfl

theorem State.readRanges_withDesc (s : State) (d : Descriptors) (rs : List Range) :
    (s.withDesc d).readRanges rs = s.readRanges rs := by
  induction rs with
  | nil => rfl
  | cons r rs ih => simp only [State.readRanges, ih]; rfl

theorem conclude_withDesc {d : Descriptors} (h : SameView i i s (s.withDesc d)) (e : Effect) :
    (s.withDesc d).conclude i e = (s.conclude i e).withDesc d := by
  have hresource : (s.withDesc d).failResource i = (s.failResource i).withDesc d := by
    unfold State.failResource
    rw [h.destsOf]
    split <;> rfl
  cases hs : scratchOk i s <;> cases e <;>
    simp only [State.conclude, h.scratchOk, h.destsOf, hresource, hs, if_true] <;> rfl

end

/-- Settles O7: the same branch of R130 with the same operands, and no branch reads or writes the live descriptors. -/
theorem latchedCommandIgnoresDescriptorWrites : Obligations.LatchedCommandIgnoresDescriptorWrites := by
  intro i s t d hbusy h
  obtain ⟨body, hperforms, -⟩ := exec_performs i
  obtain rfl : performed i s body = t := Host.Outcome.next.inj ((hperforms s).symm.trans h)
  have hview := sameView_withDesc hbusy i d
  have hread : (s.withDesc d).readRanges (sourcesOf i s) = s.readRanges (sourcesOf i s) := s.readRanges_withDesc d _
  have hsame : performed i (s.withDesc d) body = (performed i s body).withDesc d := by
    refine hview.performed_rel (R := fun t t' => t' = t.withDesc d) rfl (by rw [hread]) (fun _ _ => rfl)
      (s.recordFault_withDesc d) fun vs vs' hvs hvs' => ?_
    obtain rfl : vs' = vs := Option.some.inj (hvs'.symm.trans (hread.trans hvs))
    rw [conclude_withDesc hview]
    simp only [operandsOf, hview.desc, hview.slot]
    rfl
  exact (hperforms _).trans (congrArg _ hsame)

/-! ## What a command's end does to memory -/

/-- What the end of a command does to its destinations: nothing, spoil them, or write one value to each. -/
inductive MemoryEdit where
  | keep
  | spoil
  | store (vs : List Nat)

/-- The edit made on the ranges `ds`. -/
def MemoryEdit.apply (w : Nat) (ds : List Range) : MemoryEdit → Memory → Memory
  | .keep, m => m
  | .spoil, m => eraseRanges m ds
  | .store vs, m => writeRanges w m ds vs

/-- The edit a body's outcome makes, given whether scratch suffices (60_exceptions.md R405–R407, R413). -/
def Effect.edit (scratch : Bool) : Effect → MemoryEdit
  | .param => .keep
  | .noInverse | .invariant => .spoil
  | .write _ vs => if scratch then .store vs else .spoil
  | .build _ => if scratch then .keep else .spoil

/-- The same block with another memory. -/
def State.withMem (s : State) (m : Memory) : State := { s with mem := m }

theorem sameView_withMem (i : Instr) (s : State) (m : Memory) : SameView i i s (s.withMem m) :=
  ⟨rfl, rfl, rfl, rfl, rfl, rfl, rfl⟩

theorem conclude_mem (s : State) (i : Instr) (e : Effect) :
    (s.conclude i e).mem = (e.edit (scratchOk i s)).apply s.w (destsOf i s) s.mem := by
  cases e <;> cases h : scratchOk i s <;> simp [State.conclude, Effect.edit, MemoryEdit.apply, h]

/-- The memory a command starts from matters to the memory it leaves, and to nothing else of its end. -/
theorem conclude_withMem (s : State) (i : Instr) (e : Effect) (m : Memory) :
    (s.withMem m).conclude i e =
      (s.conclude i e).withMem ((e.edit (scratchOk i s)).apply s.w (destsOf i s) m) := by
  have hview := sameView_withMem i s m
  have hresource : (s.withMem m).failResource i = (s.failResource i).withMem (eraseRanges m (destsOf i s)) := by
    unfold State.failResource
    rw [hview.destsOf]
    split <;> rfl
  cases h : scratchOk i s <;> cases e <;>
    simp only [State.conclude, Effect.edit, hview.scratchOk, hview.destsOf, hresource, h, if_true] <;> rfl

/-! ## What an edit reads and where it writes -/

section
variable {w : Nat} {m m' : Memory} {a : Nat}

theorem read_writeRanges_congr (h : m'.read a = m.read a) (rs : List Range) (vs : List Nat) :
    (writeRanges w m' rs vs).read a = (writeRanges w m rs vs).read a := by
  induction rs generalizing m m' vs with
  | nil => exact h
  | cons r rs ih =>
    cases vs with
    | nil => exact h
    | cons v vs => exact ih (by rw [Memory.read_writeLimbs, Memory.read_writeLimbs, h]) vs

/-- A word of a written range does not depend on what stood there. -/
theorem read_writeRanges_covered {rs : List Range} {vs : List Nat} (hlen : vs.length = rs.length)
    (h : ∃ r ∈ rs, r.base ≤ a ∧ a < r.base + r.len) :
    (writeRanges w m' rs vs).read a = (writeRanges w m rs vs).read a := by
  induction rs generalizing m m' vs with
  | nil => simp at h
  | cons r rs ih =>
    cases vs with
    | nil => simp at hlen
    | cons v vs =>
      rw [writeRanges, writeRanges]
      obtain ⟨q, hq, hin⟩ := h
      rcases List.mem_cons.mp hq with rfl | hq
      · refine read_writeRanges_congr ?_ rs vs
        rw [Memory.read_writeLimbs, Memory.read_writeLimbs, if_pos hin, if_pos hin]
      · exact ih (by simpa using hlen) ⟨q, hq, hin⟩

/-- Which words are initialised after a write does not depend on the values. -/
theorem isSome_read_writeRanges (h : (m'.read a).isSome = (m.read a).isSome) {rs : List Range} {vs vs' : List Nat}
    (hlen : vs'.length = vs.length) :
    ((writeRanges w m' rs vs').read a).isSome = ((writeRanges w m rs vs).read a).isSome := by
  induction rs generalizing m m' vs vs' with
  | nil => exact h
  | cons r rs ih =>
    cases vs with
    | nil =>
      obtain rfl := List.length_eq_zero_iff.mp hlen
      exact h
    | cons v vs =>
      cases vs' with
      | nil => simp at hlen
      | cons v' vs' =>
        refine ih ?_ (by simpa using hlen)
        rw [Memory.read_writeLimbs, Memory.read_writeLimbs]
        split
        · rfl
        · exact h

theorem MemoryEdit.read_congr (h : m'.read a = m.read a) (ds : List Range) (ed : MemoryEdit) :
    (ed.apply w ds m').read a = (ed.apply w ds m).read a := by
  cases ed with
  | keep => exact h
  | spoil => simp only [MemoryEdit.apply, read_eraseRanges, h]
  | store vs => exact read_writeRanges_congr h ds vs

end

/-! ## Words that are no source -/

theorem State.readRanges_withMem {s : State} {m : Memory} {rs : List Range}
    (h : ∀ r ∈ rs, ∀ a, r.base ≤ a → a < r.base + r.len → m.read a = s.mem.read a) :
    (s.withMem m).readRanges rs = s.readRanges rs := by
  induction rs with
  | nil => rfl
  | cons r rs ih =>
    have hr : (s.withMem m).readRange r = s.readRange r := Memory.readLimbs_congr s.w (h r List.mem_cons_self)
    simp only [State.readRanges, hr, ih fun q hq => h q (List.mem_cons_of_mem _ hq)]

/-- t' is t but for words on which the memories m and s.mem differ, which are no destinations if t ended with OK. -/
def SameOutcome (i : Instr) (s : State) (m : Memory) (t t' : State) : Prop :=
  t'.withMem t.mem = t ∧
    (t.busy = false → t.err = .ok →
      ∀ r ∈ destsOf i s, ∀ a, r.base ≤ a → a < r.base + r.len → t'.mem.read a = t.mem.read a) ∧
    ∀ a, m.read a = s.mem.read a → t'.mem.read a = t.mem.read a

section
variable {i : Instr} {s : State} {m : Memory} {body : Operands → Effect}

theorem sameOutcome_endedWith {code : StatusCode} (h : code ≠ .ok) :
    SameOutcome i s m (s.endedWith code) ((s.withMem m).endedWith code) :=
  ⟨rfl, fun _ hok => absurd hok h, fun _ ha => ha⟩

theorem sameOutcome_recordFault (hbusy : s.busy = true) (k : ModelFault) :
    SameOutcome i s m (s.recordFault k) ((s.withMem m).recordFault k) := by
  have hfault : (s.withMem m).recordFault k = (s.recordFault k).withMem m := by
    unfold State.recordFault State.withMem
    split <;> rfl
  rw [hfault]
  refine ⟨rfl, fun hidle => ?_, fun a ha => ?_⟩
  · rw [State.recordFault_busy, hbusy] at hidle
    cases hidle
  · rw [State.recordFault_mem]
    exact ha

/-- OK comes with a value for every destination, or from RING_INIT, which has none. -/
theorem edit_of_ok (hshape : BodyShape i body) {o : Operands} (hok : (s.conclude i (body o)).err = .ok) :
    (∃ vs, (body o).edit (scratchOk i s) = .store vs ∧ vs.length = (destsOf i s).length) ∨ destsOf i s = [] := by
  cases hs : scratchOk i s with
  | false =>
    rw [conclude_err_of_not_scratchOk hs] at hok
    split at hok <;> cases hok
  | true =>
    rw [conclude_err_of_scratchOk hs] at hok
    cases he : body o with
    | write r vs => exact .inl ⟨vs, rfl, hshape.write o r vs he _ _⟩
    | build c =>
      obtain ⟨ctx, sel, st, rfl, -⟩ := hshape.build o c he
      exact .inr rfl
    | param => rw [he] at hok; cases hok
    | noInverse => rw [he] at hok; cases hok
    | invariant => rw [he] at hok; cases hok

theorem sameOutcome_conclude (hshape : BodyShape i body) (o : Operands) :
    SameOutcome i s m (s.conclude i (body o)) ((s.withMem m).conclude i (body o)) := by
  rw [conclude_withMem]
  refine ⟨rfl, fun _ hok r hr a hlo hhi => ?_, fun a ha => ?_⟩
  · rw [conclude_mem]
    rcases edit_of_ok hshape hok with ⟨vs, hedit, hlen⟩ | hnil
    · rw [hedit]
      exact read_writeRanges_covered hlen ⟨r, hr, hlo, hhi⟩
    · rw [hnil] at hr
      exact absurd hr List.not_mem_nil
  · rw [conclude_mem]
    exact MemoryEdit.read_congr ha _ _

end

/-- Settles O31: with the same source words the body gets the same operands, and its end edits memory the same way. -/
theorem commandsReadOnlyTheirSources : Obligations.CommandsReadOnlyTheirSources := by
  intro i s t m hbusy hsrcs h
  obtain ⟨body, hperforms, hshape⟩ := exec_performs i
  obtain rfl : performed i s body = t := Host.Outcome.next.inj ((hperforms s).symm.trans h)
  have hread := State.readRanges_withMem hsrcs
  refine ⟨performed i (s.withMem m) body, hperforms _, ?_⟩
  refine (sameView_withMem i s m).performed_rel (R := SameOutcome i s m) rfl (by rw [hread])
    (fun _ => sameOutcome_endedWith) (sameOutcome_recordFault hbusy) fun vs vs' hvs hvs' => ?_
  obtain rfl : vs' = vs := Option.some.inj (hvs'.symm.trans (hread.trans hvs))
  exact sameOutcome_conclude hshape _

/-! ## Conditional primitives -/

/-- Two outcomes of a body that differ in values only. -/
def Effect.SameShape : Effect → Effect → Prop
  | .param, .param => True
  | .write _ vs, .write _ vs' => vs'.length = vs.length
  | _, _ => False

/-- The commands i and i' differ in SEL only, and whether their bodies write depends on no value and no selector. -/
structure SelectorVariants (i i' : Instr) (body body' : Operands → Effect) : Prop where
  format : formatOf i' = formatOf i
  ctx : ctxOf i' = ctxOf i
  opcode : opcodeOf i' = opcodeOf i
  runs : ∀ s, exec i s = .next (performed i s body)
  runs' : ∀ s, exec i' s = .next (performed i' s body')
  shape : ∀ o o' : Operands, o'.k = o.k → o'.w = o.w → (body o).SameShape (body' o')

/-- The primitives of 45_constant_time.md §1 and §2 are such commands; CSHR's PARAM depends on IMM alone. -/
theorem exists_selectorVariants {mk : Nat → Nat → Instr}
    (hmk : mk ∈ [Instr.ctEq, .ctLt, .ctGt, .ctSel, .cswap, .cneg, .cshr, .mux2, .mux4]) (ctx sel sel' : Nat) :
    ∃ body body', SelectorVariants (mk ctx sel) (mk ctx sel') body body' := by
  obtain rfl | hrest : mk = .cshr ∨ mk = .ctEq ∨ mk = .ctLt ∨ mk = .ctGt ∨ mk = .ctSel ∨ mk = .cswap ∨ mk = .cneg ∨
      mk = .mux2 ∨ mk = .mux4 := by
    simp only [List.mem_cons, List.not_mem_nil, or_false] at hmk
    tauto
  · refine ⟨_, _, rfl, rfl, rfl, fun _ => rfl, fun _ => rfl, fun o o' hk hw => ?_⟩
    simp only [hk, hw]
    by_cases h : o.k < o.w <;> simp [h, Effect.SameShape]
  · rcases hrest with rfl | rfl | rfl | rfl | rfl | rfl | rfl | rfl <;>
      exact ⟨_, _, rfl, rfl, rfl, fun _ => rfl, fun _ => rfl, fun _ _ _ _ => rfl⟩

/-- The same status or model fault, the same command latched, the same words initialised. -/
def SameTouch (t t' : State) : Prop :=
  t'.err = t.err ∧ t'.latch = t.latch ∧ t'.modelFaults = t.modelFaults ∧
    ∀ a, (t'.mem.read a).isSome = (t.mem.read a).isSome

section
variable {s : State} {m : Memory} (hm : ∀ a, (m.read a).isSome = (s.mem.read a).isSome)
include hm

theorem sameTouch_recordFault (k : ModelFault) : SameTouch (s.recordFault k) ((s.withMem m).recordFault k) := by
  refine ⟨by simp [State.withMem], by simp [State.withMem], ?_, fun a => ?_⟩
  · unfold State.recordFault State.withMem
    split <;> rfl
  · rw [State.recordFault_mem, State.recordFault_mem]
    exact hm a

theorem sameTouch_conclude {i i' : Instr} (hview : SameView i i' s (s.withMem m)) {e e' : Effect}
    (he : e.SameShape e') : SameTouch (s.conclude i e) ((s.withMem m).conclude i' e') := by
  have hstatus : e'.status = e.status ∧ ∀ scratch a,
      (((e'.edit scratch).apply s.w (destsOf i s) m).read a).isSome =
        (((e.edit scratch).apply s.w (destsOf i s) s.mem).read a).isSome := by
    unfold Effect.SameShape at he
    split at he
    · exact ⟨rfl, fun _ => hm⟩
    · refine ⟨rfl, fun scratch a => ?_⟩
      cases scratch with
      | true => exact isSome_read_writeRanges (hm a) he
      | false =>
        simp only [Effect.edit, MemoryEdit.apply, Bool.false_eq_true, if_false, read_eraseRanges]
        split
        · rfl
        · exact hm a
    · exact he.elim
  obtain ⟨hst, hmem⟩ := hstatus
  refine ⟨?_, by rw [conclude_latch, conclude_latch], by rw [conclude_modelFaults, conclude_modelFaults]; rfl,
    fun a => ?_⟩
  · cases hs : scratchOk i s with
    | true => rw [conclude_err_of_scratchOk hs, conclude_err_of_scratchOk (hview.scratchOk.trans hs), hst]
    | false => rw [conclude_err_of_not_scratchOk hs, conclude_err_of_not_scratchOk (hview.scratchOk.trans hs), hst]
  · rw [conclude_mem, conclude_mem, hview.scratchOk, hview.destsOf]
    exact hmem _ a

theorem readRanges_eq_none_withMem (rs : List Range) :
    (s.withMem m).readRanges rs = none ↔ s.readRanges rs = none := by
  have hnone : ∀ a, (s.withMem m).mem.read a = none ↔ s.mem.read a = none := fun a => by
    rw [← Option.isNone_iff_eq_none, ← Option.isNone_iff_eq_none, ← Option.isSome_eq_false_iff,
      ← Option.isSome_eq_false_iff, ← hm a]
    rfl
  simp only [State.readRanges_eq_none, hnone]

end

/-- Settles O58: both commands take the same branch of R130, and the branch of the body writes or not as SEL and the
values do not decide. -/
theorem conditionalPrimitivesTouchTheSameWords : Obligations.ConditionalPrimitivesTouchTheSameWords := by
  intro mk hmk ctx sel sel' s m hsel hsel' hm
  obtain ⟨body, body', hv⟩ := exists_selectorVariants hmk ctx sel sel'
  have hview : SameView (mk ctx sel) (mk ctx sel') s (s.withMem m) :=
    ⟨hv.format, hv.ctx, hv.opcode, rfl, rfl, rfl, rfl⟩
  have htouch : SameTouch (performed (mk ctx sel) s body) (performed (mk ctx sel') (s.withMem m) body') :=
    hview.performed_rel (hsel'.trans hsel.symm) (readRanges_eq_none_withMem hm _) (fun _ _ => ⟨rfl, rfl, rfl, hm⟩)
      (sameTouch_recordFault hm) fun vs vs' _ _ => sameTouch_conclude hm hview (hv.shape _ _ rfl rfl)
  obtain ⟨herr, hlatch, hrec, hinit⟩ := htouch
  refine ⟨_, _, hv.runs s, hv.runs' _, herr, hlatch, hrec, hinit, fun a ha => ⟨?_, ?_⟩⟩
  · exact (exec_ending (hv.runs s)).read_outside ha
  · exact (exec_ending (hv.runs' (s.withMem m))).read_outside (hview.destsOf ▸ ha)

end Sys2Proof.Machine
end

section
/-!
PROOFS. The host's accesses: the registers, STATUS, operand memory, the busy hazard, and a command program (10_state.md
R36–R39, R46, R49, R50; 30_encoding.md R110, R120, R121; 70_reset_and_hazards.md R450).
-/

namespace Sys2Proof.Machine

/-! ## STATUS (R36) -/

/-- The fields of STATUS: an error code below 8 and three bits, so it is checked value by value. -/
theorem statusWord_table : ∀ code < 7, ∀ busy done faulted : Bool,
    let x := BitVec.ofNat 32 (code + busy.toNat * 2 ^ 8 + done.toNat * 2 ^ 9 + faulted.toNat * 2 ^ 10)
    x.extractLsb' 0 4 = BitVec.ofNat 4 code ∧ x.extractLsb' 4 4 = 0#4 ∧ x.getLsbD 8 = busy ∧ x.getLsbD 9 = done ∧
      x.getLsbD 10 = faulted ∧ x.extractLsb' 11 21 = 0#21 := by
  decide

theorem StatusCode.code_le (c : StatusCode) : c.code ≤ 6 := by
  cases c <;> decide

theorem State.writeCsr_status (s : State) (v : BitVec 32) :
    s.writeCsr 0x03#8 v = if v.getLsbD 9 then { s with done := false } else s := rfl

@[simp] theorem State.writeCmd_done (s : State) (v : BitVec 32) : (s.writeCmd v).done = s.done := by
  unfold State.writeCmd
  split <;> simp

section
variable (s : State)

theorem State.hostAccess_csrWrite (k : BitVec 8) (v : BitVec 32) : s.hostAccess (.csrWrite k v) = s.writeCsr k v :=
  rfl

theorem State.hostAccess_memRead (a : Nat) :
    s.hostAccess (.memRead a) = s.withMemAccess a (fun t => t.hostReadMem a) :=
  rfl

theorem State.hostAccess_memWrite (a v : Nat) :
    s.hostAccess (.memWrite a v) = s.withMemAccess a (fun t => t.hostWriteMem a v) :=
  rfl

/-- An operand-memory access keeps DONE when what it does inside memory keeps it. -/
theorem State.withMemAccess_done (a : Nat) {f : State → State} (hf : (f s).done = s.done) :
    (s.withMemAccess a f).done = s.done := by
  rcases s.withMemAccess_cases a f with ⟨-, -, h⟩ | ⟨-, h | h | h⟩ <;> rw [h]
  · exact hf
  all_goals simp

end

/-- Of the host's accesses only a write of STATUS bit 9 clears DONE. -/
theorem State.hostAccess_done (s : State) (a : HostAction) :
    (s.hostAccess a).done = s.done ∨ ∃ v, a = .csrWrite 0x03 v ∧ v.getLsbD 9 = true := by
  cases a with
  | csrRead k => exact .inl rfl
  | csrWrite k v =>
    by_cases hk : k = 0x05
    · subst hk
      exact .inl (s.writeCmd_done v)
    · rw [State.hostAccess_csrWrite]
      rcases s.writeCsr_cases hk v with (h | ⟨rfl, hv, -⟩) | ⟨d, h⟩ | ⟨-, h⟩
      · exact .inl (by rw [h])
      · exact .inr ⟨v, rfl, hv⟩
      · exact .inl (by rw [h])
      · exact .inl (by rw [h])
  | memRead b =>
    have hread : (s.hostReadMem b).done = s.done := by
      unfold State.hostReadMem
      split <;> rfl
    exact .inl (s.withMemAccess_done b hread)
  | memWrite b v => exact .inl (s.withMemAccess_done b rfl)

/-- A command never clears DONE: it sets it, or records a model fault. -/
theorem Ending.done_of_done {i : Instr} {s t : State} (h : Ending i s t) (hd : s.done = true) : t.done = true := by
  cases h <;> simp [hd]

/-- Settles O10: the word is made of the four fields, and of the ways a step can go only two clear DONE. -/
theorem statusRegister : Obligations.StatusRegister := by
  refine ⟨fun s => ?_, State.writeCsr_status, fun s t h hdone hclear => ?_⟩
  · obtain ⟨herr, hlow, hbusy, hdone, hfaulted, hhigh⟩ :=
      statusWord_table s.err.code (by have := s.err.code_le; omega) s.busy s.done s.faulted
    exact ⟨⟨herr, s.err.code_le⟩, hlow, hbusy, hdone, hfaulted, hhigh⟩
  · rcases step_cases h with ⟨rest, ht, -⟩ |
      ⟨-, rest, -, ⟨-, rfl⟩ | ⟨l, i, -, -, hexec⟩ | ⟨l, e, -, -, rfl⟩⟩ | ⟨-, rest, a, ht, rfl⟩
    · exact ⟨rest, .inl ht⟩
    · cases hclear.symm.trans hdone
    · cases hclear.symm.trans ((exec_ending hexec).done_of_done hdone)
    · cases hclear
    · rcases State.hostAccess_done { s with turns := rest } a with hkeep | ⟨v, rfl, hv⟩
      · cases hclear.symm.trans (hkeep.trans hdone)
      · exact ⟨rest, .inr ⟨v, ht, hv⟩⟩

/-! ## The other registers (R37–R39, R46, R49) -/

/-- The registers whose 32 bits are all kept. -/
theorem State.csr_writeCsr_word (s : State) (v : BitVec 32) :
    ∀ k ∈ [0x06, 0x07, 0x08, 0x09, 0x0A, 0x0B, (0x0E : BitVec 8)], (s.writeCsr k v).csr k = v := by
  simp only [List.forall_mem_cons, List.not_mem_nil, false_imp_iff, implies_true, and_true]
  exact ⟨rfl, rfl, rfl, rfl, rfl, rfl, rfl⟩

theorem setWidth_16_32 (v : BitVec 32) : (v.setWidth 16).setWidth 32 = v &&& 0x0000FFFF#32 := by
  ext j hj
  have hmask : (0x0000FFFF#32).getLsbD j = decide (j < 16) := by
    have hall : ∀ j < 32, (0x0000FFFF#32).getLsbD j = decide (j < 16) := by decide
    exact hall j hj
  simp [← BitVec.getLsbD_eq_getElem, hmask, hj, Bool.and_comm]

/-- LENA and LENB keep their low 16 bits. -/
theorem State.csr_writeCsr_length (s : State) (v : BitVec 32) :
    ∀ k ∈ [0x0C, (0x0D : BitVec 8)], (s.writeCsr k v).csr k = v &&& 0x0000FFFF#32 := by
  simp only [List.forall_mem_cons, List.not_mem_nil, false_imp_iff, implies_true, and_true]
  exact ⟨setWidth_16_32 v, setWidth_16_32 v⟩

/-- IRQCTL keeps bit 0. -/
theorem State.csr_writeCsr_irqctl (s : State) (v : BitVec 32) : (s.writeCsr 0x0F#8 v).csr 0x0F#8 = v &&& 1#32 := by
  have hread : (s.writeCsr 0x0F#8 v).csr 0x0F#8 = BitVec.ofNat 32 (v.getLsbD 0).toNat := rfl
  rw [hread, ← BitVec.toNat_inj, BitVec.toNat_ofNat, BitVec.toNat_and, BitVec.toNat_ofNat, BitVec.getLsbD,
    Nat.testBit_zero]
  rcases Nat.mod_two_eq_zero_or_one v.toNat with h | h <;> simp [h, Nat.and_one_is_mod]

/-- The reserved numbers. -/
theorem State.csr_reserved (s : State) {k : BitVec 8} (hk : 0x10 ≤ k.toNat) (v : BitVec 32) :
    s.writeCsr k v = s ∧ s.csr k = 0 := by
  constructor
  · unfold State.writeCsr
    split
    case h_13 => rfl
    all_goals simp at hk
  · unfold State.csr
    split
    case h_17 => rfl
    all_goals simp at hk

/-- A write to a register other than STATUS and CMD changes the reading of no other register. -/
theorem State.csr_writeCsr_ne (s : State) {k j : BitVec 8} (hstatus : k ≠ 0x03) (hcmd : k ≠ 0x05) (hj : j ≠ k)
    (v : BitVec 32) : (s.writeCsr k v).csr j = s.csr j := by
  unfold State.writeCsr
  split
  case h_1 => exact absurd rfl hstatus
  case h_2 => exact absurd rfl hcmd
  case h_13 => rfl
  all_goals
    unfold State.csr
    split
    case h_4 => rfl
    all_goals simp_all

/-- Such a write changes nothing of the block but the descriptor registers and IRQCTL. -/
theorem State.writeCsr_frame (s : State) {k : BitVec 8} (hstatus : k ≠ 0x03) (hcmd : k ≠ 0x05) (v : BitVec 32) :
    { s.writeCsr k v with desc := s.desc, ie := s.ie } = s := by
  rcases s.writeCsr_cases hcmd v with (h | ⟨hk, -⟩) | ⟨d, h⟩ | ⟨-, h⟩
  · rw [h]
  · exact absurd hk hstatus
  · rw [h]
  · rw [h]

theorem State.csr_lengths (s : State) :
    (s.csr 0x0C#8).toNat = s.desc.lenA.toNat ∧ (s.csr 0x0D#8).toNat = s.desc.lenB.toNat :=
  ⟨BitVec.toNat_setWidth_of_le (by decide), BitVec.toNat_setWidth_of_le (by decide)⟩

theorem State.csr_irqctl (s : State) : s.csr 0x0F#8 = if s.ie then 1#32 else 0#32 := by
  have hread : s.csr 0x0F#8 = BitVec.ofNat 32 s.ie.toNat := rfl
  rw [hread]
  cases s.ie <;> rfl

/-- Settles O12: each register by its number, and the host's turn is the access. -/
theorem registersReadBackWhatTheyKeep : Obligations.RegistersReadBackWhatTheyKeep := by
  refine ⟨fun s => ?_, fun s v => ⟨s.csr_writeCsr_word v, s.csr_writeCsr_length v, s.csr_writeCsr_irqctl v, rfl,
    fun k hk => s.csr_reserved hk v,
    fun k h3 h5 => ⟨fun j hj => s.csr_writeCsr_ne h3 h5 hj v, s.writeCsr_frame h3 h5 v⟩⟩,
    fun s k v rest hm => ⟨fun ht => ?_, fun ht => ?_⟩⟩
  · obtain ⟨hlenA, hlenB⟩ := s.csr_lengths
    exact ⟨rfl, rfl, rfl, rfl, rfl, rfl, rfl, rfl, hlenA, hlenB, rfl, s.csr_irqctl⟩
  · rw [step_of_host hm ht]
    rfl
  · rw [step_of_host hm ht]
    rfl

/-! ## Operand memory on an idle block (R50) -/

section
variable {s : State} {a : Nat}

theorem State.withMemAccess_idle (hb : s.busy = false) (f : State → State) (ha : a < s.params.memWords) :
    s.withMemAccess a f = f s := by
  simp [State.withMemAccess, State.memAccessFaults, hb, ha]

theorem State.withMemAccess_beyond (hm : s.modelFaults = []) (hb : s.busy = false) (f : State → State)
    (ha : s.params.memWords ≤ a) : s.withMemAccess a f = { s with modelFaults := [.bus] } := by
  have hfaults : s.memAccessFaults a = [.bus] := by simp [State.memAccessFaults, hb, ha]
  rw [State.withMemAccess, hfaults]
  exact State.recordFault_of_nil hm .bus

theorem State.hostReadMem_of_some {x : Nat} (h : s.mem.read a = some x) :
    s.hostReadMem a = { s with hostReads := .mem a x :: s.hostReads } := by
  simp [State.hostReadMem, h]

theorem State.hostReadMem_of_none (h : s.mem.read a = none) :
    s.hostReadMem a = { s with
      hostReads := .mem a (Config.unspecifiedWord s.draws % 2 ^ s.w) :: s.hostReads, draws := s.draws + 1 } := by
  simp [State.hostReadMem, h]

end

/-- Settles O13: on an idle block the access goes through inside memory, and records BUS beyond it. -/
theorem hostAccessesOperandMemory : Obligations.HostAccessesOperandMemory := by
  intro s a v rest hm hb
  have hidle := State.withMemAccess_idle (s := { s with turns := rest }) (a := a) hb
  have hbeyond := State.withMemAccess_beyond (s := { s with turns := rest }) (a := a) hm hb
  refine ⟨fun ht => ?_, fun ht => ?_⟩
  · rw [step_of_host hm ht, State.hostAccess_memWrite]
    refine ⟨fun ha hv => ⟨s.mem.write a v, ?_, Memory.read_write_same .., fun b hne => ?_⟩, fun ha => ?_⟩
    · rw [hidle _ ha, State.hostWriteMem]
      exact congrArg (fun x => Host.Outcome.next { s with mem := s.mem.write a x, turns := rest })
        (Nat.mod_eq_of_lt hv)
    · exact Memory.read_write_ne _ _ hne.symm
    · rw [hbeyond _ ha]
  · rw [step_of_host hm ht, State.hostAccess_memRead]
    refine ⟨fun ha x hx => ?_, fun ha hx => ?_, fun ha => ?_⟩
    · rw [hidle _ ha]
      exact congrArg _ (State.hostReadMem_of_some hx)
    · refine ⟨Config.unspecifiedWord s.draws % 2 ^ s.w, s.draws + 1, Nat.mod_lt _ (Nat.two_pow_pos s.w), ?_⟩
      rw [hidle _ ha]
      exact congrArg _ (State.hostReadMem_of_none hx)
    · rw [hbeyond _ ha]

/-! ## The busy hazard (R450) -/

/-- While BUSY = 1 every operand-memory access is the hazard; beyond memory BUS joins it (log 9). -/
theorem State.withMemAccess_busy {s : State} (hm : s.modelFaults = []) (hb : s.busy = true) (a : Nat)
    (f : State → State) : ∃ ks, s.withMemAccess a f = { s with modelFaults := ks } ∧ .hostHazard ∈ ks ∧
      (a < s.params.memWords → ks = [.hostHazard]) := by
  by_cases ha : a < s.params.memWords
  · have hfaults : s.memAccessFaults a = [.hostHazard] := by simp [State.memAccessFaults, hb, ha]
    refine ⟨[.hostHazard], ?_, List.mem_singleton_self _, fun _ => rfl⟩
    rw [State.withMemAccess, hfaults]
    exact State.recordFault_of_nil hm _
  · have hfaults : s.memAccessFaults a = [.hostHazard, .bus] := by
      simp [State.memAccessFaults, hb, Nat.le_of_not_lt ha]
    refine ⟨[.hostHazard, .bus], ?_, List.mem_cons_self, fun h => absurd h ha⟩
    rw [State.withMemAccess, hfaults, List.foldl_cons, State.recordFault_of_nil hm]
    rfl

/-- What a write of a register other than CMD leaves: everything but the descriptor registers, IRQCTL and DONE. -/
theorem State.writeCsr_keeps (s : State) {k : BitVec 8} (hk : k ≠ 0x05) (v : BitVec 32) :
    (s.writeCsr k v).modelFaults = s.modelFaults ∧ (s.writeCsr k v).latch = s.latch ∧
      (s.writeCsr k v).result = s.result ∧ (s.writeCsr k v).err = s.err ∧ (s.writeCsr k v).cmd = s.cmd ∧
      (s.writeCsr k v).mem = s.mem ∧ (s.writeCsr k v).slots = s.slots := by
  rcases s.writeCsr_cases hk v with (h | ⟨-, -, h⟩) | ⟨d, h⟩ | ⟨-, h⟩ <;> rw [h] <;>
    exact ⟨rfl, rfl, rfl, rfl, rfl, rfl, rfl⟩

/-- The operands of a latched command are the snapshot's, whatever else changes. -/
theorem State.operandDesc_congr {s t : State} (hb : s.busy = true) (h : t.latch = s.latch) :
    t.operandDesc = s.operandDesc := by
  obtain ⟨l, hl⟩ := s.busy_iff.mp hb
  simp [State.operandDesc, h, hl]

theorem State.writeCsr_status_done (s : State) (v : BitVec 32) :
    (s.writeCsr 0x03#8 v).done = (s.done && !v.getLsbD 9) := by
  rw [State.writeCsr_status]
  cases v.getLsbD 9 <;> simp

/-- Settles O14: a hazard records and changes nothing else; a write of another register is the idle block's. -/
theorem busyHazard : Obligations.BusyHazard := by
  intro s act rest hm hb ht
  have hstep := step_of_host hm ht
  refine ⟨?_, ?_, ?_, ?_⟩
  · rintro v rfl
    rw [hstep, State.hostAccess_cmd_busy (s := { s with turns := rest }) hb]
    exact congrArg _ (State.recordFault_of_nil (s := { s with turns := rest }) hm _)
  · intro a v hact
    have haccess : ∃ f, State.hostAccess { s with turns := rest } act =
        State.withMemAccess { s with turns := rest } a f := by
      rcases hact with rfl | rfl
      · exact ⟨_, State.hostAccess_memRead _ a⟩
      · exact ⟨_, State.hostAccess_memWrite _ a v⟩
    obtain ⟨f, hf⟩ := haccess
    obtain ⟨ks, hks, hmem, hin⟩ := State.withMemAccess_busy (s := { s with turns := rest }) hm hb a f
    exact ⟨ks, hstep.trans (congrArg _ (hf.trans hks)), hmem, hin⟩
  · rintro k rfl
    exact hstep
  · rintro k v hk rfl t
    obtain ⟨hrec, hlatch, hres, herr, hcmd, hmem, hslots⟩ := State.writeCsr_keeps { s with turns := rest } hk v
    refine ⟨hstep, hrec.trans hm, hlatch, State.operandDesc_congr hb hlatch, hres, herr, hcmd, hmem, hslots,
      fun hword => State.csr_writeCsr_word _ v k hword, fun hlen => State.csr_writeCsr_length _ v k hlen, ?_, ?_⟩
    · rintro rfl
      exact State.csr_writeCsr_irqctl _ v
    · rintro rfl
      exact State.writeCsr_status_done _ v

/-! ## A command program (R121) -/

section
variable {s t : State} {k : Nat}

theorem run_succ_of_next (h : step s = .next t) : Host.Core.run core (k + 1) s = Host.Core.run core k t := by
  have hcore : core.step s = .next t := h
  simp only [Host.Core.run, hcore]

theorem run_one (s : State) : Host.Core.run core 1 s = step s := by
  have hcore : core.step s = step s := rfl
  simp only [Host.Core.run, hcore]
  cases step s <;> rfl

end

/-- The same block with other turns to come. -/
def State.withTurns (s : State) (ts : List Turn) : State := { s with turns := ts }

/-- The writes of a list of keys, in order (R121). -/
def State.writeKeys (s : State) (keys : List (Key × BitVec 32)) : State :=
  keys.foldl (fun t kv => t.writeCsr kv.1.register.number kv.2) s

section
variable (s : State)

theorem State.recordFault_withTurns (ts : List Turn) (k : ModelFault) :
    (s.withTurns ts).recordFault k = (s.recordFault k).withTurns ts := by
  unfold State.recordFault State.withTurns
  split <;> rfl

/-- A register write neither reads nor spends a turn. -/
theorem State.writeCsr_withTurns (ts : List Turn) (k : BitVec 8) (v : BitVec 32) :
    (s.withTurns ts).writeCsr k v = (s.writeCsr k v).withTurns ts := by
  have hcmd : (s.withTurns ts).writeCmd v = (s.writeCmd v).withTurns ts := by
    have hbusy : (s.withTurns ts).busy = s.busy := rfl
    unfold State.writeCmd
    rw [hbusy]
    split
    · exact s.recordFault_withTurns ts _
    · rfl
  unfold State.writeCsr
  split
  case h_1 => split <;> rfl
  case h_2 => exact hcmd
  all_goals rfl

theorem State.writeKeys_withTurns (ts : List Turn) (keys : List (Key × BitVec 32)) :
    (s.withTurns ts).writeKeys keys = (s.writeKeys keys).withTurns ts := by
  induction keys generalizing s with
  | nil => rfl
  | cons kv keys ih =>
    unfold State.writeKeys at ih ⊢
    rw [List.foldl_cons, List.foldl_cons, State.writeCsr_withTurns, ih]

/-- A key names a descriptor register. -/
theorem Key.number_ne_cmd (key : Key) : key.register.number ≠ 0x05 := by
  cases key <;> decide

theorem State.writeKeys_keeps (keys : List (Key × BitVec 32)) :
    (s.writeKeys keys).modelFaults = s.modelFaults ∧ (s.writeKeys keys).latch = s.latch := by
  induction keys generalizing s with
  | nil => exact ⟨rfl, rfl⟩
  | cons kv keys ih =>
    obtain ⟨hrec, hlatch, -⟩ := s.writeCsr_keeps kv.1.number_ne_cmd kv.2
    obtain ⟨hrec', hlatch'⟩ := ih (s.writeCsr kv.1.register.number kv.2)
    exact ⟨hrec'.trans hrec, hlatch'.trans hlatch⟩

end

/-- The turns of the key writes come to the key writes. -/
theorem run_keys {s : State} {keys : List (Key × BitVec 32)} {tail : List Turn} (hm : s.modelFaults = [])
    (ht : s.turns = keys.map (fun kv => hostWR kv.1.register kv.2) ++ tail) (k : Nat) :
    Host.Core.run core (keys.length + k) s = Host.Core.run core k ((s.writeKeys keys).withTurns tail) := by
  induction keys generalizing s with
  | nil =>
    have hs : s.withTurns tail = s := by rw [State.withTurns, ← show s.turns = tail from ht]
    rw [List.length_nil, Nat.zero_add]
    exact congrArg (Host.Core.run core k) hs.symm
  | cons kv keys ih =>
    have hstep := step_of_host hm ht
    obtain ⟨hrec, -⟩ := s.writeCsr_keeps kv.1.number_ne_cmd kv.2
    rw [List.length_cons, Nat.add_right_comm, run_succ_of_next hstep]
    have hnext : State.hostAccess { s with turns := keys.map (fun kv => hostWR kv.1.register kv.2) ++ tail }
        (.csrWrite kv.1.register.number kv.2) = (s.writeCsr kv.1.register.number kv.2).withTurns _ :=
      s.writeCsr_withTurns _ _ _
    refine (congrArg _ hnext).trans ((ih (by simpa [State.withTurns] using hrec.trans hm) rfl).trans ?_)
    rw [State.writeKeys_withTurns]
    rfl

/-- The CMD write and the engine's turn after it come to exec of the issued command. -/
theorem run_issue {s : State} {i : Instr} {rest : List Turn} (hi : i.wellFormed = true) (hm : s.modelFaults = [])
    (hb : s.busy = false) (ht : s.turns = hostWR .cmd (encode i) :: .engine :: rest) :
    Host.Core.run core 2 s = exec i (State.issue (s.withTurns rest) (encode i)) := by
  let issued := State.issue (s.withTurns (.engine :: rest)) (encode i)
  have hissue : step s = .next issued :=
    (step_of_host hm ht).trans
      (congrArg _ (State.hostAccess_cmd_idle (s := s.withTurns (.engine :: rest)) hb (encode i)))
  have hengine : step issued = exec i (State.issue (s.withTurns rest) (encode i)) :=
    (step_of_latch (s := issued) hm rfl rfl).trans (performWord_of_ok _ (decode_encode hi))
  exact (run_succ_of_next hissue).trans ((run_one issued).trans hengine)

/-- Settles O9: the key writes, then the CMD write, then the engine's turn. -/
theorem commandProgramPerformsItsCommand : Obligations.CommandProgramPerformsItsCommand := by
  intro i keys s rest hi hm hb ht
  obtain ⟨hrec, hlatch⟩ := s.writeKeys_keeps keys
  have hbusy : ((s.writeKeys keys).withTurns (hostWR .cmd (encode i) :: hostWAIT ++ rest)).busy = false :=
    (State.busy_eq_false_iff _).mpr (hlatch.trans ((s.busy_eq_false_iff).mp hb))
  have hturns : s.turns =
      keys.map (fun kv => hostWR kv.1.register kv.2) ++ (hostWR .cmd (encode i) :: hostWAIT ++ rest) := by
    rw [ht, hostCommand, List.append_assoc]
  refine (run_keys hm hturns 2).trans ((run_issue hi ?_ hbusy rfl).trans ?_)
  · exact hrec.trans hm
  · exact congrArg (fun t => exec i (State.issue t (encode i)))
      (s.writeKeys_withTurns (hostRD .status :: rest) keys).symm

end Sys2Proof.Machine
end

section
/-!
PROOFS. Memory order (20_memory.md R15, R80) and what the commands without a slot compute: the products, the bits, the
quotients and the conditional primitives (41_bigint.md R204, R205, R208, R209; 42_division.md R250–R252;
45_constant_time.md R353–R358).
-/

namespace Sys2Proof.Machine

/-! ## Little-endian memory -/

/-- The value of a range in terms of its words, least significant first. -/
theorem Memory.readLimbs_eq_sum {w : Nat} {m : Memory} {base n v : Nat} (h : Memory.readLimbs w m base n = some v) :
    v = ((List.range n).map fun i => (m.read (base + i)).getD 0 * 2 ^ (w * i)).sum := by
  induction n generalizing base v with
  | zero => exact (Option.some.inj h).symm
  | succ n ih =>
    rw [Memory.readLimbs_succ] at h
    obtain ⟨lo, hlo, h⟩ := Option.bind_eq_some_iff.mp h
    obtain ⟨hi, hhi, rfl⟩ := Option.map_eq_some_iff.mp h
    have hshift : ∀ i, (m.read (base + (i + 1))).getD 0 * 2 ^ (w * (i + 1)) =
        2 ^ w * ((m.read (base + 1 + i)).getD 0 * 2 ^ (w * i)) := by
      intro i
      rw [show base + (i + 1) = base + 1 + i by omega, Nat.mul_succ, pow_add]
      ring
    have htail : ((List.range n).map fun i => (m.read (base + (i + 1))).getD 0 * 2 ^ (w * (i + 1))).sum =
        2 ^ w * hi := by
      rw [ih hhi, ← List.sum_map_mul_left]
      exact congrArg List.sum (List.map_congr_left fun i _ => hshift i)
    rw [List.range_succ_eq_map, List.map_cons, List.sum_cons, List.map_map]
    simpa [hlo, Function.comp_def] using htail.symm

/-- Settles O33: a written word is its limb, and a value is the sum of its words. -/
theorem memoryIsLittleEndian : Obligations.MemoryIsLittleEndian := by
  intro s r v
  refine ⟨fun hv => ⟨fun i hi => ?_, fun a ha => ?_, Memory.readLimbs_writeLimbs_same _ _ _ _ hv⟩,
    fun h => ⟨Memory.readLimbs_eq_sum h, fun i hi => Option.isSome_iff_ne_none.mpr fun hnone => ?_⟩⟩
  · rw [State.put, Memory.read_writeLimbs, if_pos (by omega), Nat.add_sub_cancel_left]
  · rw [State.put, Memory.read_writeLimbs, if_neg (by omega)]
  · have hread : s.readRange r = none :=
      (Memory.readLimbs_eq_none ..).mpr ⟨r.base + i, by omega, by omega, hnone⟩
    cases hread.symm.trans h

/-! ## A ready command -/

section
variable {i : Instr} {s : State} {srcs : List (Range × Nat)} {dsts : List Range} {body : Operands → Effect}

/-- A ready command that passes the checks of R130 ends as its body answers on the values of its sources. -/
theorem exec_of_ready (he : exec i s = perform i s body) (h : Ready i s srcs dsts) (hslot : slotOk i s = true)
    (hlen : lengthsOk i s = true) (hsel : selectorOk i = true)
    (halias : (formatOf i).aliasFree (srcs.map Prod.fst) dsts = true) (hs : sourcesOf i s = srcs.map Prod.fst)
    (hd : destsOf i s = dsts) :
    exec i s = .next (s.conclude i (body (operandsOf i s (srcs.map Prod.snd)))) := by
  rw [he, perform, performed_of_ready h hs hd hslot hlen hsel halias]

/-- `exec_of_ready` for the formats whose operands all have LENA limbs. -/
theorem exec_lenAOnly_of_ready (he : exec i s = perform i s body) (h : Ready i s srcs dsts) (hl : s.LenOk s.lenA)
    (hf : (formatOf i).lenAOnly = true) (hsel : selectorOk i = true) (hs : sourcesOf i s = srcs.map Prod.fst)
    (hd : destsOf i s = dsts) :
    exec i s = .next (s.conclude i (body (operandsOf i s (srcs.map Prod.snd)))) :=
  exec_of_ready he h (slotOk_of_lenAOnly hf) (lengthsOk_of_lenAOnly hf hl) hsel (aliasFree_of_lenAOnly hf hd h) hs hd

theorem slotOk_of_noSlot (hf : (formatOf i).usesCtx = false) : slotOk i s = true := by
  simp [slotOk, hf]

/-- The formats whose lengths are all LENA or fixed (30_encoding.md R112). -/
theorem lengthsOk_of_lenA (hf : formatOf i ∈ [.sqr, .rcp, .init, .swp, .shc, .mx2, .mx4]) (hl : s.LenOk s.lenA) :
    lengthsOk i s = true := by
  unfold lengthsOk
  cases hi : formatOf i <;> simp_all [Format.lengthsOk, lenIn]

/-- The formats of LENA and LENB limbs (30_encoding.md R112). -/
theorem lengthsOk_of_lenA_lenB (hf : formatOf i ∈ [.mul, .div]) (hl : s.LenOk s.lenA) (hl' : s.LenOk s.lenB) :
    lengthsOk i s = true := by
  unfold lengthsOk
  cases hi : formatOf i <;> simp_all [Format.lengthsOk, lenIn]

theorem selectorOk_of_bit (h : selOf i = 0 ∨ selOf i = 1) : selectorOk i = true := by
  have hlt : selOf i < 2 := by omega
  simp [selectorOk, hlt]

/-- MUL and SQR: the one destination lies apart from every source (R131). -/
theorem aliasFree_of_apart {f : Format} {d : Range} {rs : List Range} (hf : f = .mul ∨ f = .sqr)
    (h : ∀ r ∈ rs, d.Apart r) : f.aliasFree rs [d] = true := by
  rcases hf with rfl | rfl <;>
    simpa [Format.aliasFree, Format.destAgainstSources, Format.destsApart, Range.overlaps_eq_false] using h

end

/-! ## The numbers -/

/-- Bit k of a number, as a word (R208). -/
theorem ofNat_bitOf (a k : Nat) : BitVec.ofNat 32 (bitOf a k) = if a.testBit k then 1#32 else 0#32 := by
  rw [Nat.testBit_eq_decide_div_mod_eq, ← bitOf]
  rcases Nat.mod_two_eq_zero_or_one (a / 2 ^ k) with h | h <;> simp [bitOf, h]

/-- BITSET keeps the bits above k and below k, and puts v between them. -/
theorem setBit_eq (a k v : Nat) : setBit a k v = 2 ^ k * (2 * (a / 2 ^ k / 2) + v) + a % 2 ^ k := by
  have hsplit : a = 2 ^ k * (2 * (a / 2 ^ k / 2)) + a % 2 ^ k + bitOf a k * 2 ^ k := by
    calc a = 2 ^ k * (2 * (a / 2 ^ k / 2) + a / 2 ^ k % 2) + a % 2 ^ k := by
          rw [Nat.div_add_mod, Nat.div_add_mod]
      _ = _ := by rw [bitOf]; ring
  rw [setBit, Nat.sub_eq_of_eq_add hsplit]
  ring

/-- BITSET replaces bit k and no other (R209). -/
theorem testBit_setBit (a k j : Nat) {v : Nat} (hv : v < 2) :
    (setBit a k v).testBit j = if j = k then decide (v = 1) else a.testBit j := by
  have hlow : a % 2 ^ k < 2 ^ k := Nat.mod_lt _ (Nat.two_pow_pos k)
  rw [setBit_eq, Nat.testBit_two_pow_mul_add _ hlow]
  rcases Nat.lt_trichotomy j k with hj | rfl | hj
  · rw [if_pos hj, if_neg hj.ne, Nat.testBit_mod_two_pow]
    simp [hj]
  · rw [if_neg (lt_irrefl j), if_pos rfl, Nat.sub_self, Nat.testBit_zero]
    congr 1
    simp only [eq_iff_iff]
    omega
  · obtain ⟨m, rfl⟩ : ∃ m, j = k + 1 + m := ⟨j - (k + 1), by omega⟩
    have hhalf : (2 * (a / 2 ^ k / 2) + v) / 2 = a / 2 ^ k / 2 := by omega
    rw [if_neg (by omega), if_neg (by omega), show k + 1 + m - k = m + 1 by omega, Nat.testBit_succ, hhalf,
      Nat.div_div_eq_div_mul, ← pow_succ, Nat.testBit_div_two_pow, Nat.add_comm m]

/-! ## The commands of LENA limbs, and the products -/

/-- Settles O39: MUL and SQR end with their product; DST0 lies apart from the sources. -/
theorem multiplyAndSquareResults : Obligations.MultiplyAndSquareResults := by
  intro ctx sel s a b hl
  refine ⟨fun hl' hA hB h => ?_, fun hA h => ?_⟩
  · have halias := aliasFree_of_apart (f := .mul) (.inl rfl)
      (show ∀ r ∈ [s.atA s.lenA, s.atB s.lenB], (s.atDst0 (s.lenA + s.lenB)).Apart r by simp [hA, hB])
    rw [exec_of_ready rfl h rfl (lengthsOk_of_lenA_lenB (by simp [formatOf]) hl hl') rfl halias rfl rfl,
      conclude_store_of_ready h rfl]
    rfl
  · have halias := aliasFree_of_apart (f := .sqr) (.inr rfl)
      (show ∀ r ∈ [s.atA s.lenA], (s.atDst0 (2 * s.lenA)).Apart r by simp [hA])
    rw [exec_of_ready rfl h rfl (lengthsOk_of_lenA (by simp [formatOf]) hl) rfl halias rfl rfl,
      conclude_store_of_ready h rfl, pow_two]
    rfl

section
variable {ctx sel a b : Nat} {s : State}

theorem exec_bittest_of_ready (hl : s.LenOk s.lenA) (h : Ready (.bittest ctx sel) s [(s.atA s.lenA, a)] []) :
    exec (.bittest ctx sel) s = .next (s.conclude (.bittest ctx sel)
      (if s.imm < s.w * s.lenA then .write (BitVec.ofNat 32 (bitOf a s.imm)) [] else .param)) :=
  exec_lenAOnly_of_ready rfl h hl rfl rfl rfl rfl

theorem exec_bitset_of_ready (hl : s.LenOk s.lenA) (hsel : sel = 0 ∨ sel = 1)
    (h : Ready (.bitset ctx sel) s [(s.atA s.lenA, a)] [s.atDst0 s.lenA]) :
    exec (.bitset ctx sel) s = .next (s.conclude (.bitset ctx sel)
      (if s.imm < s.w * s.lenA then .write 0 [setBit a s.imm sel] else .param)) :=
  exec_lenAOnly_of_ready rfl h hl rfl (selectorOk_of_bit hsel) rfl rfl

theorem exec_recip_of_ready (hl : s.LenOk s.lenA)
    (h : Ready (.recip ctx sel) s [(s.atA s.lenA, a)] [s.atDst0 (s.lenA + 1)]) :
    exec (.recip ctx sel) s =
      .next (s.conclude (.recip ctx sel) (if a = 0 then .param else .write 0 [recipOf a])) :=
  exec_of_ready rfl h rfl (lengthsOk_of_lenA (by simp [formatOf]) hl) rfl
    (aliasFree_of_ready h (f := .rcp) (by decide) rfl) rfl rfl

theorem exec_divmod_of_ready (hl : s.LenOk s.lenA) (hl' : s.LenOk s.lenB)
    (hapart : (s.atDst0 s.lenA).Apart (s.atDst1 s.lenB))
    (h : Ready (.divmod ctx sel) s [(s.atA s.lenA, a), (s.atB s.lenB, b)] [s.atDst0 s.lenA, s.atDst1 s.lenB]) :
    exec (.divmod ctx sel) s =
      .next (s.conclude (.divmod ctx sel) (if b = 0 then .param else .write 0 [a / b, a % b])) := by
  have hdests : Format.destsApart .div [s.atDst0 s.lenA, s.atDst1 s.lenB] = true := by
    simpa [Format.destsApart, Range.overlaps_eq_false] using hapart
  exact exec_of_ready rfl h rfl (lengthsOk_of_lenA_lenB (by simp [formatOf]) hl hl') rfl
    (aliasFree_of_ready h (f := .div) (by decide) hdests) rfl rfl

theorem exec_cswap_of_ready (hl : s.LenOk s.lenA) (hsel : sel = 0 ∨ sel = 1)
    (h : Ready (.cswap ctx sel) s [(s.atA s.lenA, a), (s.atB s.lenA, b)] [s.atA s.lenA, s.atB s.lenA]) :
    exec (.cswap ctx sel) s = .next (s.conclude (.cswap ctx sel) (.write 0 [choose sel b a, choose sel a b])) := by
  have hpair : s.atA s.lenA = s.atB s.lenA ∨ (s.atA s.lenA).Apart (s.atB s.lenA) := by
    obtain ⟨-, -, -, -, hpairs⟩ := h
    exact hpairs _ List.mem_cons_self _ (List.mem_cons_of_mem _ List.mem_cons_self)
  have hdests : Format.destsApart .swp [s.atA s.lenA, s.atB s.lenA] = true := by
    simpa [Format.destsApart] using Range.apartOrSame_iff.mpr hpair
  exact exec_of_ready rfl h rfl (lengthsOk_of_lenA (by simp [formatOf]) hl) (selectorOk_of_bit hsel)
    (aliasFree_of_ready h (f := .swp) (by decide) hdests) rfl rfl

theorem exec_cneg_of_ready (hl : s.LenOk s.lenA) (hsel : sel = 0 ∨ sel = 1)
    (h : Ready (.cneg ctx sel) s [(s.atA s.lenA, a)] [s.atDst0 s.lenA]) :
    exec (.cneg ctx sel) s =
      .next (s.conclude (.cneg ctx sel) (.write 0 [choose sel (negate (s.w * s.lenA) a) a])) :=
  exec_lenAOnly_of_ready rfl h hl rfl (selectorOk_of_bit hsel) rfl rfl

theorem exec_cshr_of_ready (hl : s.LenOk s.lenA) (hsel : sel = 0 ∨ sel = 1)
    (h : Ready (.cshr ctx sel) s [(s.atA s.lenA, a), (s.atB 1, b)] [s.atDst0 s.lenA]) :
    exec (.cshr ctx sel) s = .next (s.conclude (.cshr ctx sel)
      (if s.imm < s.w then .write 0 [choose sel (shiftRightInject (s.w * s.lenA) a b s.imm) a] else .param)) :=
  exec_of_ready rfl h rfl (lengthsOk_of_lenA (by simp [formatOf]) hl) (selectorOk_of_bit hsel)
    (aliasFree_of_ready h (f := .shc) (by decide) rfl) rfl rfl

theorem exec_mux2_of_ready (hl : s.LenOk s.lenA) (hsel : sel = 0 ∨ sel = 1)
    (h : Ready (.mux2 ctx sel) s [(s.atA s.lenA, a), (s.atB s.lenA, b)] [s.atDst0 s.lenA]) :
    exec (.mux2 ctx sel) s = .next (s.conclude (.mux2 ctx sel) (.write 0 [choose sel a b])) :=
  exec_of_ready rfl h rfl (lengthsOk_of_lenA (by simp [formatOf]) hl) (selectorOk_of_bit hsel)
    (aliasFree_of_ready h (f := .mx2) (by decide) rfl) rfl rfl

theorem exec_mux4_of_ready (hl : s.LenOk s.lenA) {c d : Nat}
    (h : Ready (.mux4 ctx sel) s [(s.atA s.lenA, a), (s.atB s.lenA, b), (s.atC s.lenA, c), (s.atD s.lenA, d)]
      [s.atDst0 s.lenA]) :
    exec (.mux4 ctx sel) s = .next (s.conclude (.mux4 ctx sel) (.write 0 [choose4 sel a b c d])) :=
  exec_of_ready rfl h rfl (lengthsOk_of_lenA (by simp [formatOf]) hl) rfl
    (aliasFree_of_ready h (f := .mx4) (by decide) rfl) rfl rfl

end

/-- Settles O41: BITTEST reads bit k and BITSET replaces it, for k inside the operand. -/
theorem bitResults : Obligations.BitResults := by
  intro ctx sel s a hl
  refine ⟨fun h => ⟨fun hk => ?_, fun hk => ?_⟩, fun hsel h => ⟨fun hk => ?_, fun hk => ?_⟩⟩
  · rw [exec_bittest_of_ready hl h, if_pos hk, ofNat_bitOf]
    exact congrArg _ (conclude_write_of_ready h rfl _ [])
  · rw [exec_bittest_of_ready hl h, if_neg hk.not_gt, conclude_param]
  · refine ⟨setBit a s.imm sel, fun j => testBit_setBit a s.imm j (by omega), ?_⟩
    rw [exec_bitset_of_ready hl hsel h, if_pos hk]
    exact congrArg _ (conclude_store_of_ready h rfl _ _)
  · rw [exec_bitset_of_ready hl hsel h, if_neg hk.not_gt, conclude_param]

/-- Settles O42: the bit length is the b of R250, and the quotient and remainder are the natural numbers'. -/
theorem reciprocalAndDivisionResults : Obligations.ReciprocalAndDivisionResults := by
  intro ctx sel s a d hl
  refine ⟨fun h => ⟨fun hd => ?_, fun hd => ?_⟩, fun hl' hapart h => ⟨fun hd => ?_, fun hd => ?_⟩⟩
  · refine ⟨bitlen d, two_pow_bitlen_le hd, lt_two_pow_bitlen d, ?_⟩
    rw [exec_recip_of_ready hl h, if_neg hd]
    exact congrArg _ (conclude_store_of_ready h rfl _ _)
  · rw [exec_recip_of_ready hl h, if_pos hd, conclude_param]
  · refine ⟨a / d, a % d, (Nat.div_add_mod' a d).symm, Nat.mod_lt _ (Nat.pos_of_ne_zero hd), ?_⟩
    rw [exec_divmod_of_ready hl hl' hapart h, if_neg hd]
    exact congrArg _ (conclude_write_of_ready h rfl _ _)
  · rw [exec_divmod_of_ready hl hl' hapart h, if_pos hd, conclude_param]

/-! ## The conditional primitives -/

theorem choose4_eq {sel v0 v1 v2 v3 v : Nat} (h : [v0, v1, v2, v3][sel]? = some v) : choose4 sel v0 v1 v2 v3 = v := by
  match sel with
  | 0 | 1 | 2 | 3 => exact Option.some.inj h
  | _ + 4 => simp at h

/-- Settles O55: each command stores the operand its selector names. -/
theorem selectResults : Obligations.SelectResults := by
  intro ctx sel s v0 v1 v2 v3
  refine ⟨fun hsel h => ?_, fun hl => ⟨fun hsel h => ?_, fun v hv h => ?_⟩⟩
  · rw [exec_w1_of_ready (i := .ctSel ctx sel) rfl rfl (selectorOk_of_bit hsel) h]
    exact congrArg _ (conclude_store_of_ready h rfl _ _)
  · rw [exec_mux2_of_ready hl hsel h]
    exact congrArg _ (conclude_store_of_ready h rfl _ _)
  · rw [exec_mux4_of_ready hl h, choose4_eq hv]
    exact congrArg _ (conclude_store_of_ready h rfl _ _)

/-- Two ranges written one after the other read back what was written, whether they are apart or one range that is
given one value. -/
theorem readLimbs_writeRanges_pair (w : Nat) (m : Memory) {r q : Range} {x y : Nat} (hx : x < 2 ^ (w * r.len))
    (hy : y < 2 ^ (w * q.len)) (h : r = q ∧ x = y ∨ r.Apart q) :
    Memory.readLimbs w (writeRanges w m [r, q] [x, y]) r.base r.len = some x ∧
      Memory.readLimbs w (writeRanges w m [r, q] [x, y]) q.base q.len = some y := by
  have hq : Memory.readLimbs w (writeRanges w m [r, q] [x, y]) q.base q.len = some y :=
    Memory.readLimbs_writeLimbs_same w _ _ _ hy
  refine ⟨?_, hq⟩
  rcases h with ⟨rfl, rfl⟩ | hapart
  · exact hq
  · exact (Memory.readLimbs_writeLimbs_apart w _ _ hapart).trans (Memory.readLimbs_writeLimbs_same w _ _ _ hx)

/-- Settles O56: the two ranges are apart, or they are one range and x = y. -/
theorem conditionalSwapResults : Obligations.ConditionalSwapResults := by
  intro ctx sel s x y hi hl hsel h
  have hx : x < 2 ^ (s.w * s.lenA) := source_lt_of_ready hi h List.mem_cons_self
  have hy : y < 2 ^ (s.w * s.lenA) := source_lt_of_ready hi h (List.mem_cons_of_mem _ List.mem_cons_self)
  have hpair : s.atA s.lenA = s.atB s.lenA ∧ x = y ∨ (s.atA s.lenA).Apart (s.atB s.lenA) := by
    obtain ⟨-, -, hsrcs, -, hpairs⟩ := h
    refine (hpairs _ List.mem_cons_self _ (List.mem_cons_of_mem _ List.mem_cons_self)).imp_left fun heq => ⟨heq, ?_⟩
    have hreadA := (hsrcs _ List.mem_cons_self).2
    have hreadB := (hsrcs _ (List.mem_cons_of_mem _ List.mem_cons_self)).2
    exact Option.some.inj (hreadA.symm.trans ((congrArg s.readRange heq).trans hreadB))
  have hread := readLimbs_writeRanges_pair s.w s.mem (r := s.atA s.lenA) (q := s.atB s.lenA)
    (x := choose sel y x) (y := choose sel x y)
  obtain ⟨hA, hB⟩ := hread (by unfold choose; split <;> assumption) (by unfold choose; split <;> assumption)
    (hpair.imp_left fun ⟨heq, hxy⟩ => ⟨heq, by rw [hxy]⟩)
  refine ⟨s.okWith 0#32 (writeRanges s.w s.mem [s.atA s.lenA, s.atB s.lenA] [choose sel y x, choose sel x y]), ?_, rfl,
    rfl, rfl, rfl, hA, hB, fun a ha => read_writeRanges_outside _ _ _ ha⟩
  rw [exec_cswap_of_ready hl hsel h]
  exact congrArg _ (conclude_write_of_ready h rfl _ _)

/-- Settles O57: the body's value is the formula's; PARAM for a shift count of W or more. -/
theorem negateAndShiftResults : Obligations.NegateAndShiftResults := by
  intro ctx sel s a c hl hsel
  refine ⟨fun h => ?_, fun h => ⟨fun hk => ?_, fun hk => ?_⟩⟩
  · rw [exec_cneg_of_ready hl hsel h]
    exact congrArg _ (conclude_store_of_ready h rfl _ _)
  · rw [exec_cshr_of_ready hl hsel h, if_pos hk]
    exact congrArg _ (conclude_store_of_ready h rfl _ _)
  · rw [exec_cshr_of_ready hl hsel h, if_neg hk.not_gt, conclude_param]

end Sys2Proof.Machine
end

section
/-!
PROOFS. What the commands on a slot compute that stand alone: RING_INIT, CTX_RD, MODRED and RREDUCE (43_ring.md R270,
R271, R273, R293; 44_montgomery.md R325).
-/

namespace Sys2Proof.Machine

/-! ## RING_INIT (R270) -/

/-- What RING_INIT asks of its modulus p under the strategy `st`. -/
def RingInitAccepts (s : State) (p : Nat) (st : Strategy) : Prop :=
  strategyOf s.imm = some st ∧ 2 ^ (s.w * (s.lenA - 1)) ≤ p ∧ 2 ≤ p ∧ (st = .montgomery → p % 2 = 1)

section
variable {ctx sel p : Nat} {s : State} {st : Strategy}

/-- The strategy codes are 0 and 1 (R272). -/
theorem strategyOf_eq_some {k : Nat} :
    strategyOf k = some st ↔ (k = 0 ∨ k = 1) ∧ st = if k = 1 then .montgomery else .plain := by
  unfold strategyOf
  split <;> simp_all [eq_comm]

theorem slotOk_ringInit (hctx : ctx < s.params.ctxSlots) : slotOk (.ringInit ctx sel) s = true := by
  simp [slotOk, formatOf, ctxOf, Format.usesCtx, hctx]

/-- A ready RING_INIT builds the slot of a strategy that accepts p, or ends with PARAM when none does. -/
theorem exec_ringInit_of_ready (hctx : ctx < s.params.ctxSlots) (hl : s.LenOk s.lenA)
    (h : Ready (.ringInit ctx sel) s [(s.atA s.lenA, p)] []) :
    (∃ st, RingInitAccepts s p st ∧ exec (.ringInit ctx sel) s =
      .next (s.conclude (.ringInit ctx sel) (.build (builtSlot s.w st s.lenA p)))) ∨
    ((∀ st, ¬RingInitAccepts s p st) ∧
      exec (.ringInit ctx sel) s = .next (s.conclude (.ringInit ctx sel) .param)) := by
  rw [exec_of_ready rfl h (slotOk_ringInit hctx) (lengthsOk_of_lenA (by simp [formatOf]) hl) rfl
    (aliasFree_of_ready h (f := .init) (by decide) rfl) rfl rfl]
  have hlow : p / 2 ^ (s.w * (s.lenA - 1)) = 0 ↔ p < 2 ^ (s.w * (s.lenA - 1)) :=
    Nat.div_eq_zero_iff_lt (Nat.two_pow_pos _)
  by_cases haccepts : ∃ st, RingInitAccepts s p st
  · obtain ⟨st, hst, hlo, h2, hodd⟩ := haccepts
    refine .inl ⟨st, ⟨hst, hlo, h2, hodd⟩, congrArg _ (congrArg (s.conclude _) ?_)⟩
    have hk : strategyOf (operandsOf (.ringInit ctx sel) s [p]).k = some st := hst
    have heven : ¬(st = .montgomery ∧ p % 2 = 0) := by
      rintro ⟨hm, h0⟩
      cases h0.symm.trans (hodd hm)
    simp only [List.map_cons, List.map_nil, hk]
    exact (if_neg fun h0 => hlo.not_gt (hlow.mp h0)).trans ((if_neg h2.not_gt).trans (if_neg heven))
  · refine .inr ⟨fun st hst => haccepts ⟨st, hst⟩, congrArg _ (congrArg (s.conclude _) ?_)⟩
    simp only [List.map_cons, List.map_nil]
    split
    case h_1 => rfl
    case h_2 st hst =>
      split
      case isTrue => rfl
      case isFalse hlo =>
        split
        case isTrue => rfl
        case isFalse h2 =>
          split
          case isTrue => rfl
          case isFalse hodd =>
            refine absurd ⟨st, hst, not_lt.mp (mt hlow.mpr hlo), not_lt.mp h2, fun hm => ?_⟩ haccepts
            exact (Nat.mod_two_eq_zero_or_one p).resolve_left fun h0 => hodd ⟨hm, h0⟩

theorem conclude_build_of_ready {i : Instr} {srcs : List (Range × Nat)} {dsts : List Range} (h : Ready i s srcs dsts)
    (c : Slot) : s.conclude i (.build c) = { s.okWith 0#32 s.mem with slots := s.slots.set (ctxOf i) c } := by
  obtain ⟨-, hscratch, -⟩ := h
  rw [State.conclude, if_pos hscratch]
  rfl

end

/-- Settles O43: the accepting strategy, if there is one, is the one IMM names; its slot is well built. -/
theorem ringInitResults : Obligations.RingInitResults := by
  intro ctx sel s p hi hctx hl h accepted
  have hlt : p < 2 ^ (s.w * s.lenA) := source_lt_of_ready hi h List.mem_cons_self
  have haccepts : ∀ st, RingInitAccepts s p st ↔ accepted ∧ st = if s.imm = 1 then .montgomery else .plain := by
    intro st
    unfold RingInitAccepts
    rw [strategyOf_eq_some]
    constructor
    · rintro ⟨⟨hcode, hst⟩, hlo, h2, hodd⟩
      exact ⟨⟨hcode, hlo, h2, fun h1 => hodd (by rw [hst, if_pos h1])⟩, hst⟩
    · rintro ⟨⟨hcode, hlo, h2, hodd⟩, hst⟩
      refine ⟨⟨hcode, hst⟩, hlo, h2, fun hm => hodd ?_⟩
      by_contra h1
      simp [hst, h1] at hm
  rcases exec_ringInit_of_ready hctx hl h with ⟨st, hst, he⟩ | ⟨hnone, he⟩
  · obtain ⟨hacc, heq⟩ := (haccepts st).mp hst
    obtain ⟨-, hlo, h2, hodd⟩ := hst
    refine ⟨fun _ => ⟨builtSlot s.w st s.lenA p, rfl, heq, rfl, rfl, builtSlot_wellBuilt hl h2 hlo hlt hodd, ?_⟩,
      fun hn => absurd hacc hn⟩
    rw [he, conclude_build_of_ready h]
    rfl
  · refine ⟨fun hacc => absurd ((haccepts _).mpr ⟨hacc, rfl⟩) (hnone _), fun _ => ?_⟩
    rw [he, conclude_param]

/-! ## CTX_RD (R271) -/

section
variable {ctx sel f len v : Nat} {s : State} {c : Slot}

theorem Strategy.code_eq (st : Strategy) : st.code = if st = .montgomery then 1 else 0 := by
  cases st <;> rfl

/-- The eight fields of R271, as the obligation lists them. -/
theorem ctxField_of_mem
    (h : (f, len, v) ∈ [(0, c.n, c.modulus), (1, c.n + 1, c.recip), (2, 1, c.n0inv), (3, c.n, c.rone), (4, c.n, c.rr),
      (5, 1, c.n), (6, 1, c.bitlen), (7, 1, if c.strat = .montgomery then 1 else 0)]) :
    ctxFieldLen c.n f = some len ∧ ctxFieldValue c f = v := by
  simp only [List.mem_cons, List.not_mem_nil, or_false, Prod.mk.injEq] at h
  rcases h with ⟨rfl, rfl, rfl⟩ | ⟨rfl, rfl, rfl⟩ | ⟨rfl, rfl, rfl⟩ | ⟨rfl, rfl, rfl⟩ | ⟨rfl, rfl, rfl⟩ |
    ⟨rfl, rfl, rfl⟩ | ⟨rfl, rfl, rfl⟩ | ⟨rfl, rfl, rfl⟩
  case inr.inr.inr.inr.inr.inr.inr => exact ⟨rfl, c.strat.code_eq⟩
  all_goals exact ⟨rfl, rfl⟩

theorem ctxFieldAllowed_eq_false : ctxFieldAllowed c f = false ↔ f ∈ [2, 3, 4] ∧ c.strat = .plain := by
  have hstrat : c.strat ≠ .montgomery ↔ c.strat = .plain := by cases c.strat <;> simp
  simp only [ctxFieldAllowed, Bool.or_eq_false_iff, Bool.not_eq_false', Bool.or_eq_true, decide_eq_true_eq,
    decide_eq_false_iff_not, hstrat, List.mem_cons, List.not_mem_nil, or_false, or_assoc]

/-- A ready CTX_RD of an existing field writes it, or ends with PARAM where the strategy has no such field. -/
theorem exec_ctxRd_of_ready (hslot : s.SlotReady ctx) (hlen : ctxFieldLen (s.slot ctx).n s.imm = some len)
    (h : Ready (.ctxRd ctx sel) s [] [s.atDst0 len]) :
    exec (.ctxRd ctx sel) s = .next (if ctxFieldAllowed (s.slot ctx) s.imm then
      s.okWith 0#32 (s.put (s.atDst0 len) (ctxFieldValue (s.slot ctx) s.imm)) else s.endedWith .param) := by
  have hdests : destsOf (.ctxRd ctx sel) s = [s.atDst0 len] := by
    have hd : destsOf (.ctxRd ctx sel) s = [s.atDst0 ((ctxFieldLen (s.slot ctx).n s.imm).getD 0)] := rfl
    rw [hd, hlen, Option.getD_some]
  have hok : lengthsOk (.ctxRd ctx sel) s = true :=
    (congrArg Option.isSome hlen : (ctxFieldLen (s.slot ctx).n s.imm).isSome = true)
  have he : exec (.ctxRd ctx sel) s = .next (s.conclude (.ctxRd ctx sel)
      (if ctxFieldAllowed (s.slot ctx) s.imm then .write 0 [ctxFieldValue (s.slot ctx) s.imm] else .param)) :=
    exec_onSlot_of_ready rfl rfl hslot hok h rfl hdests
  rw [he]
  split
  · exact congrArg _ (conclude_store_of_ready h hdests _ _)
  · rw [conclude_param]

end

/-- Settles O44: field by field, and PARAM above 7. -/
theorem ctxRdResults : Obligations.CtxRdResults := by
  intro ctx sel s hslot
  refine ⟨fun f len v hmem hf h => ?_, fun hfaulted himm => ?_⟩
  · subst hf
    obtain ⟨hlen, hvalue⟩ := ctxField_of_mem hmem
    rw [exec_ctxRd_of_ready hslot hlen h, hvalue]
    by_cases hplain : s.imm ∈ [2, 3, 4] ∧ (s.slot ctx).strat = .plain
    · rw [if_pos hplain, ctxFieldAllowed_eq_false.mpr hplain]
      rfl
    · rw [if_neg hplain, if_pos (Bool.not_eq_false _ ▸ mt ctxFieldAllowed_eq_false.mp hplain)]
  · exact structuralChecksEndInParam _ s hfaulted (.inr (.inr (.inr (.inr (.inl ⟨rfl, himm⟩)))))

/-! ## MODRED and RREDUCE (R273, R293) -/

section
variable {ctx sel t : Nat} {s : State}

theorem exec_modred_of_ready (hslot : s.SlotReady ctx) (hl : 1 ≤ s.lenA ∧ s.lenA ≤ 2 * (s.slot ctx).n)
    (h : Ready (.modred ctx sel) s [(s.atA s.lenA, t)] [s.atDst0 (s.slot ctx).n]) :
    exec (.modred ctx sel) s =
      .next (s.conclude (.modred ctx sel) (.write 0 [t % (s.slot ctx).modulus])) :=
  exec_onSlot_of_ready rfl rfl hslot ((lengthsOk_of_rw rfl).mpr hl) h rfl rfl

theorem exec_rreduce_of_ready (hslot : s.SlotReady ctx) (hl : 1 ≤ s.lenA ∧ s.lenA ≤ 2 * (s.slot ctx).n)
    (h : Ready (.rreduce ctx sel) s [(s.atA s.lenA, t)] [s.atDst0 (s.slot ctx).n]) :
    exec (.rreduce ctx sel) s =
      .next (s.conclude (.rreduce ctx sel) (writeReduced ((s.slot ctx).reduce s.w t))) :=
  exec_onSlot_of_ready rfl rfl hslot ((lengthsOk_of_rw rfl).mpr hl) h rfl rfl

theorem conclude_invariant_of_ready {i : Instr} {srcs : List (Range × Nat)} {dsts : List Range}
    (h : Ready i s srcs dsts) (hd : destsOf i s = dsts) :
    s.conclude i .invariant = { s.spoiledWith .invariant dsts with faulted := true } := by
  obtain ⟨-, hscratch, -⟩ := h
  rw [State.conclude, if_pos hscratch, hd, State.failInvariant, State.failWith_eq_spoiledWith]

end

/-- Settles O45: MODRED reduces the plain integer on either strategy. -/
theorem modredResults : Obligations.ModredResults := by
  intro ctx sel s t hslot h1 h2 h
  rw [exec_modred_of_ready hslot ⟨h1, h2⟩ h]
  exact congrArg _ (conclude_store_of_ready h rfl _ _)

/-- REDC of any t, by its multiplier m: the exact quotient (t + m·p) / R, one subtraction of p, and then INVARIANT
unless the value is below p (44_montgomery.md R325). -/
theorem redc_eq_quotient {w : Nat} {c : Slot} (hn : (c.n0inv * c.modulus + 1) % 2 ^ w = 0) (t : Nat) :
    ∃ m, m < radix w c.n ∧ (t + m * c.modulus) % radix w c.n = 0 ∧
      ((t + m * c.modulus) / radix w c.n < c.modulus → redc w c t = some ((t + m * c.modulus) / radix w c.n)) ∧
      (c.modulus ≤ (t + m * c.modulus) / radix w c.n → (t + m * c.modulus) / radix w c.n < 2 * c.modulus →
        redc w c t = some ((t + m * c.modulus) / radix w c.n - c.modulus)) ∧
      (2 * c.modulus ≤ (t + m * c.modulus) / radix w c.n → redc w c t = none) := by
  have hR : 0 < radix w c.n := Nat.two_pow_pos _
  obtain ⟨m, hm, hu⟩ := redc_quotient hn t
  set u := cancelLimbs w c.modulus c.n0inv c.n 0 t / radix w c.n with hudef
  have hvalue : redc w c t = if c.modulus ≤ (if c.modulus ≤ u then u - c.modulus else u) then none else
      some (if c.modulus ≤ u then u - c.modulus else u) := rfl
  refine ⟨m, hm, ?_⟩
  rw [← hu, Nat.mul_mod_left, Nat.mul_div_cancel _ hR, hvalue]
  refine ⟨rfl, fun hlt => ?_, fun hle hlt => ?_, fun hle => ?_⟩
  · rw [if_neg hlt.not_ge, if_neg hlt.not_ge]
  · rw [if_pos hle, if_neg (by omega)]
  · rw [if_pos (show c.modulus ≤ u by omega), if_pos (by omega)]

/-- The quotient of a t below p·R needs at most one subtraction (R324). -/
theorem quotient_lt {t m p R : Nat} (hm : m < R) (ht : t < p * R) : (t + m * p) / R < 2 * p := by
  refine Nat.div_lt_of_lt_mul ?_
  have hmp : m * p ≤ R * p := Nat.mul_le_mul_right p hm.le
  calc t + m * p < p * R + R * p := by omega
    _ = R * (2 * p) := by ring

/-- Settles O49: the plain reduction, or REDC by the size of its quotient. -/
theorem rreduceResults : Obligations.RreduceResults := by
  intro ctx sel s t hi hslot h1 h2 h n p R
  have he := exec_rreduce_of_ready hslot ⟨h1, h2⟩ h
  have hstore : ∀ v, (s.slot ctx).reduce s.w t = some v →
      exec (.rreduce ctx sel) s = .next (s.okWith 0#32 (s.put (s.atDst0 n) v)) := by
    intro v hv
    rw [he, hv]
    exact congrArg _ (conclude_store_of_ready h rfl _ _)
  refine ⟨fun hplain => hstore _ ?_, fun hmont => ?_⟩
  · rw [Slot.reduce, hplain]
  obtain ⟨-, -, -, -, hbuilt, -⟩ := hslot.wellBuilt
  obtain ⟨-, -, -, hn0inv, -⟩ := hbuilt hmont
  obtain ⟨m, hm, hdvd, hsmall, hmiddle, hlarge⟩ := redc_eq_quotient hn0inv t
  have hreduce : (s.slot ctx).reduce s.w t = redc s.w (s.slot ctx) t := by rw [Slot.reduce, hmont]
  refine ⟨m, hm, hdvd, quotient_lt hm, fun hlt => hstore _ (hreduce.trans (hsmall hlt)),
    fun hle hlt => hstore _ (hreduce.trans (hmiddle hle hlt)), fun hle => ?_⟩
  rw [he, hreduce, show redc s.w (s.slot ctx) t = none from hlarge hle]
  exact congrArg _ (conclude_invariant_of_ready h rfl)

end Sys2Proof.Machine
end

section
/-!
PROOFS. The three exponentiation listings compute the value of R384 (46_modexp.md R383, R385, R386). One loop invariant
serves all: the register holds ±x^k seen through φ_c, k being the exponent bits read so far; only SSMA uses the sign.
-/

namespace Sys2Proof.Machine

/-! ## Signed powers in the ring -/

/-- 1, or the p − 1 that SSMA multiplies by where another method would not multiply (R383). -/
def signOf (p : Nat) (neg : Bool) : Nat := if neg then p - 1 else 1

/-- ±x^k seen through φ_c, with x = φ_c^{-1}(b). -/
def signedPow (w : Nat) (c : Slot) (b : Nat) (neg : Bool) (k : Nat) : Nat :=
  c.toRing w (signOf c.modulus neg * c.ofRing w b ^ k % c.modulus)

section
variable {P : Params} {c : Slot} {b : Nat}

/-- (p − 1)·(p − 1) ≡ 1 (mod p). -/
theorem signOf_mul {p : Nat} (hp : 1 ≤ p) (neg neg' : Bool) :
    signOf p neg * signOf p neg' ≡ signOf p (neg ^^ neg') [MOD p] := by
  have hsquare : (p - 1) * (p - 1) ≡ 1 [MOD p] := by
    obtain ⟨q, rfl⟩ : ∃ q, p = q + 1 := ⟨p - 1, by omega⟩
    refine Nat.modEq_iff_dvd.mpr ⟨1 - q, ?_⟩
    push_cast
    ring
  cases neg <;> cases neg' <;> simp [signOf, hsquare, Nat.ModEq.refl]

theorem signedPow_false (w : Nat) (c : Slot) (b k : Nat) : signedPow w c b false k = expValue w c b k := by
  rw [expValue_eq, signedPow, signOf, if_neg Bool.false_ne_true, Nat.one_mul]

theorem signedPow_true_zero (h : c.wellBuilt P) : signedPow P.w c b true 0 = c.toRing P.w (c.modulus - 1) := by
  have hlt : c.modulus - 1 < c.modulus := Nat.sub_lt (Slot.modulus_pos h) Nat.one_pos
  rw [signedPow, signOf, if_pos rfl, pow_zero, Nat.mul_one, Nat.mod_eq_of_lt hlt]

/-- The ring multiply adds the exponents and multiplies the signs. -/
theorem mul_signedPow (h : c.wellBuilt P) (neg neg' : Bool) (j k : Nat) :
    c.mul P.w (signedPow P.w c b neg j) (signedPow P.w c b neg' k) =
      some (signedPow P.w c b (neg ^^ neg') (j + k)) := by
  have hp : 0 < c.modulus := Slot.modulus_pos h
  set x := c.ofRing P.w b
  have hprod : signOf c.modulus neg * x ^ j % c.modulus * (signOf c.modulus neg' * x ^ k % c.modulus) % c.modulus =
      signOf c.modulus (neg ^^ neg') * x ^ (j + k) % c.modulus := by
    rw [← Nat.mul_mod, show signOf c.modulus neg * x ^ j * (signOf c.modulus neg' * x ^ k) =
      signOf c.modulus neg * signOf c.modulus neg' * x ^ (j + k) by rw [pow_add]; ring]
    exact (signOf_mul hp neg neg').mul_right _
  rw [signedPow, signedPow, Slot.mul_toRing h (Nat.mod_lt _ hp) (Nat.mod_lt _ hp), hprod, ← signedPow]

theorem mul_expValue (h : c.wellBuilt P) (j k : Nat) :
    c.mul P.w (expValue P.w c b j) (expValue P.w c b k) = some (expValue P.w c b (j + k)) := by
  simpa [signedPow_false] using mul_signedPow (b := b) h false false j k

/-- φ_c is multiplication by a constant modulo p, on either strategy (43_ring.md R290). -/
theorem exists_toRing_mod (w : Nat) (c : Slot) : ∃ r, ∀ x, c.toRing w (x % c.modulus) = x * r % c.modulus := by
  cases hs : c.strat with
  | plain => exact ⟨1, fun x => by rw [Slot.toRing_of_plain hs, Nat.mul_one]⟩
  | montgomery => exact ⟨radix w c.n, fun x => by rw [Slot.toRing_of_montgomery hs, Nat.mod_mul_mod]⟩

/-- Subtracting a residue of (p − 1)·v from p leaves v. -/
theorem sub_mod_signed {p : Nat} (hp : 1 ≤ p) (v : Nat) : (p - (p - 1) * v % p) % p = v % p := by
  have hle : (p - 1) * v % p ≤ p := (Nat.mod_lt _ hp).le
  have hsum : p - (p - 1) * v % p + (p - 1) * v % p ≡ v + (p - 1) * v % p [MOD p] := by
    have hv : v + (p - 1) * v = p * v := by
      obtain ⟨q, rfl⟩ : ∃ q, p = q + 1 := ⟨p - 1, by omega⟩
      rw [Nat.add_sub_cancel]
      ring
    calc p - (p - 1) * v % p + (p - 1) * v % p = p := Nat.sub_add_cancel hle
      _ ≡ p * v [MOD p] := by simp [Nat.ModEq]
      _ = v + (p - 1) * v := hv.symm
      _ ≡ v + (p - 1) * v % p [MOD p] := (Nat.ModEq.refl v).add (Nat.mod_modEq _ _).symm
  exact Nat.ModEq.add_right_cancel' _ hsum

/-- SSMA's final negation removes the sign (R383). -/
theorem neg_signedPow (h : c.wellBuilt P) (w k : Nat) :
    (c.modulus - signedPow w c b true k) % c.modulus = expValue w c b k := by
  obtain ⟨r, hr⟩ := exists_toRing_mod w c
  rw [← signedPow_false, signedPow, signedPow, hr, hr]
  simp only [signOf, if_true, Bool.false_eq_true, if_false, Nat.one_mul, Nat.mul_assoc]
  exact sub_mod_signed (Slot.modulus_pos h) _

end

/-! ## Reading an exponent from the top -/

theorem bit_split (e i : Nat) : e / 2 ^ i = 2 * (e / 2 ^ (i + 1)) + bitOf e i := by
  rw [bitOf, pow_succ, ← Nat.div_div_eq_div_mul, Nat.div_add_mod]

theorem window_split (e i : Nat) : e / 4 ^ i = 4 * (e / 4 ^ (i + 1)) + windowOf e i := by
  rw [windowOf, pow_succ, ← Nat.div_div_eq_div_mul, Nat.div_add_mod]

theorem windowOf_lt (e i : Nat) : windowOf e i < 4 :=
  Nat.mod_lt _ (by decide)

/-- Of the powers of b the window d selects the d-th, the 0-th being given apart. -/
theorem choose4_window (w : Nat) (c : Slot) (b m0 : Nat) {d : Nat} (hd : d < 4) (h0 : d ≠ 0) :
    choose4 d m0 (expValue w c b 1) (expValue w c b 2) (expValue w c b 3) = expValue w c b d := by
  match d with
  | 1 | 2 | 3 => rfl

/-! ## The loops -/

section
variable {P : Params} {c : Slot} {b : Nat}

/-- The ladder keeps x^k and x^(k+1), k being the bits of e above i. -/
theorem ladderFrom_eq (h : c.wellBuilt P) (e i : Nat) :
    ladderFrom (c.mul P.w) e i (expValue P.w c b (e / 2 ^ i)) (expValue P.w c b (e / 2 ^ i + 1)) =
      some (expValue P.w c b e) := by
  induction i with
  | zero => rw [pow_zero, Nat.div_one, ladderFrom]
  | succ i ih =>
    rw [bit_split e i] at ih
    set k := e / 2 ^ (i + 1)
    have hlow : c.mul P.w (expValue P.w c b k) (expValue P.w c b k) = some (expValue P.w c b (2 * k)) := by
      rw [mul_expValue h, ← two_mul]
    have hmid : c.mul P.w (expValue P.w c b k) (expValue P.w c b (k + 1)) = some (expValue P.w c b (2 * k + 1)) := by
      rw [mul_expValue h, ← Nat.add_assoc, ← two_mul]
    have hmid' : c.mul P.w (expValue P.w c b (k + 1)) (expValue P.w c b k) = some (expValue P.w c b (2 * k + 1)) := by
      rw [mul_expValue h, Nat.add_right_comm, ← two_mul]
    have hhigh : c.mul P.w (expValue P.w c b (k + 1)) (expValue P.w c b (k + 1)) =
        some (expValue P.w c b (2 * k + 1 + 1)) := by
      rw [mul_expValue h, show k + 1 + (k + 1) = 2 * k + 1 + 1 by omega]
    have hbits : bitOf e i = 0 ∨ bitOf e i = 1 := Nat.mod_two_eq_zero_or_one (e / 2 ^ i)
    rcases hbits with hbit | hbit
    · simpa [ladderFrom, hbit, choose, hlow, hmid] using ih
    · simpa [ladderFrom, hbit, choose, hhigh, hmid'] using ih

/-- The fast window keeps x^k, k being the windows of e above i. -/
theorem fastWindowFrom_eq (h : c.wellBuilt P) (e i : Nat) :
    fastWindowFrom (c.mul P.w) (expValue P.w c b 1) (expValue P.w c b 2) (expValue P.w c b 3) e i
      (expValue P.w c b (e / 4 ^ i)) = some (expValue P.w c b e) := by
  induction i with
  | zero => rw [pow_zero, Nat.div_one, fastWindowFrom]
  | succ i ih =>
    rw [window_split e i] at ih
    set k := e / 4 ^ (i + 1)
    have hsquares : ((c.mul P.w (expValue P.w c b k) (expValue P.w c b k)).bind fun q => c.mul P.w q q) =
        some (expValue P.w c b (4 * k)) := by
      rw [mul_expValue h, Option.bind_some, mul_expValue h]
      congr 2
      ring
    have hmul := mul_expValue (b := b) h (4 * k) (windowOf e i)
    by_cases h0 : windowOf e i = 0
    · simpa [fastWindowFrom, hsquares, h0] using ih
    · simpa [fastWindowFrom, hsquares, h0, choose4_window P.w c b _ (windowOf_lt e i) h0, hmul] using ih

/-- One window of SSMA: the fourth power drops the sign, and a "00" window multiplies by p − 1. -/
theorem ssmaFrom_succ (h : c.wellBuilt P) (e i : Nat) (neg : Bool) :
    ssmaFrom (c.mul P.w) (c.toRing P.w (c.modulus - 1)) (expValue P.w c b 1) (expValue P.w c b 2)
      (expValue P.w c b 3) e (i + 1) (signedPow P.w c b neg (e / 4 ^ (i + 1))) =
    ssmaFrom (c.mul P.w) (c.toRing P.w (c.modulus - 1)) (expValue P.w c b 1) (expValue P.w c b 2)
      (expValue P.w c b 3) e i (signedPow P.w c b (decide (windowOf e i = 0)) (e / 4 ^ i)) := by
  set k := e / 4 ^ (i + 1)
  have hsquares : ((c.mul P.w (signedPow P.w c b neg k) (signedPow P.w c b neg k)).bind fun q => c.mul P.w q q) =
      some (signedPow P.w c b false (4 * k)) := by
    rw [mul_signedPow h, Option.bind_some, mul_signedPow h, Bool.xor_self]
    congr 2
    ring
  have hfactor : choose4 (windowOf e i) (c.toRing P.w (c.modulus - 1)) (expValue P.w c b 1) (expValue P.w c b 2)
      (expValue P.w c b 3) = signedPow P.w c b (decide (windowOf e i = 0)) (windowOf e i) := by
    by_cases h0 : windowOf e i = 0
    · rw [h0, decide_eq_true rfl, signedPow_true_zero h]
      rfl
    · rw [choose4_window P.w c b _ (windowOf_lt e i) h0, decide_eq_false h0, signedPow_false]
  rw [ssmaFrom, hsquares, Option.bind_some, hfactor, mul_signedPow h, Bool.false_xor, window_split e i]

/-- After one window or more SSMA holds x^e, with a sign when its last window was "00". -/
theorem ssmaFrom_eq (h : c.wellBuilt P) (e i : Nat) (neg : Bool) :
    ssmaFrom (c.mul P.w) (c.toRing P.w (c.modulus - 1)) (expValue P.w c b 1) (expValue P.w c b 2)
      (expValue P.w c b 3) e (i + 1) (signedPow P.w c b neg (e / 4 ^ (i + 1))) =
    some (signedPow P.w c b (decide (windowOf e 0 = 0)) e) := by
  induction i generalizing neg with
  | zero => rw [ssmaFrom_succ h, ssmaFrom, pow_zero, Nat.div_one]
  | succ i ih => rw [ssmaFrom_succ h, ih]

end

/-- Settles O60: each loop starts with no bit read, so its register holds x^0 = 1. -/
theorem exponentiationListingsAgree : Obligations.ExponentiationListingsAgree := by
  intro p c lenB b e h hb he
  have hone : c.one = expValue p.w c b 0 := (expValue_exp_zero h b).symm
  have hbase : expValue p.w c b 1 = b := expValue_exp_one h hb
  have hsquare : c.mul p.w b b = some (expValue p.w c b 2) := by
    simpa [hbase] using mul_expValue (b := b) h 1 1
  have hcube : c.mul p.w (expValue p.w c b 2) b = some (expValue p.w c b 3) := by
    simpa [hbase] using mul_expValue (b := b) h 2 1
  have hbits : e / 2 ^ (p.w * lenB) = 0 := Nat.div_eq_of_lt he
  obtain ⟨m, hm, hw⟩ : ∃ m, 1 ≤ m ∧ p.w = 2 * m := by
    rcases bits_cases p.width with hw | hw
    · exact ⟨16, by decide, hw⟩
    · exact ⟨32, by decide, hw⟩
  have hwindows : p.w * lenB / 2 = m * lenB := by rw [hw, Nat.mul_assoc, Nat.mul_div_cancel_left _ two_pos]
  have hwindow : e / 4 ^ (m * lenB) = 0 := by
    rw [show (4 : Nat) = 2 ^ 2 from rfl, ← pow_mul, ← Nat.mul_assoc, ← hw, hbits]
  rw [hwindows]
  refine ⟨?_, ?_, fun hlen => ?_⟩
  · have hloop := ladderFrom_eq (b := b) h e (p.w * lenB)
    rwa [hbits, Nat.zero_add, hbase, ← hone] at hloop
  · have hloop := fastWindowFrom_eq (b := b) h e (m * lenB)
    rw [hwindow, hbase, ← hone] at hloop
    simp only [fastWindow, hsquare, hcube, hloop]
  · obtain ⟨i, hi⟩ : ∃ i, m * lenB = i + 1 := ⟨m * lenB - 1, (Nat.succ_pred_eq_of_pos (Nat.mul_pos hm hlen)).symm⟩
    have hloop := ssmaFrom_eq (b := b) h e i false
    rw [← hi, hwindow, signedPow_false, hbase, ← hone] at hloop
    simp only [ssma, hsquare, hcube, hloop, Option.map_some, Option.some.injEq]
    split
    case isTrue h0 => rw [decide_eq_true h0, neg_signedPow h]
    case isFalse h0 => rw [decide_eq_false h0, signedPow_false]

end Sys2Proof.Machine
end
